-- ==== Sys2Proof/Word.lean ====
section
/-! DEFINITION. The value types every other file uses: the number type `Num` (00_scope.md R8), the event byte,
the two command ports (30_encoding.md R96) and the two enumerations the source names (10_state.md R23, R26).
A register the spec gives a 3-bit code but only five legal values is an inductive type here, as R130 and R156 ask;
the codes themselves stand in `Sys2Proof.Decode`. -/

namespace Sys2Proof

/-- A number, as plain data (00_scope.md R8, log entry 1). In the ideal instantiation of `CFG.NUM` a term stands for
one real number exactly, and the constructors are the ways the rules build a number; in a finite instantiation a term
is a code for a value of that format, and what the code stands for is the instantiation's own affair. -/
inductive Num where
  /-- A rational number. -/
  | rat (q : Rat)
  /-- The k-th of a list of arbitrary real numbers, whose digits are free values: the reals no other term reaches. -/
  | named (k : Nat)
  /-- 2π. -/
  | twoPi
  /-- A sum. -/
  | add (a b : Num)
  /-- A number with its sign changed. -/
  | neg (a : Num)
  /-- A product. -/
  | mul (a b : Num)
  /-- The reciprocal of a number other than 0: its n-th enclosure is one that leaves out 0. -/
  | inv (a : Num) (n : Nat)
  /-- The sine of an angle in radians. -/
  | sin (a : Num)
  /-- 2 raised to a number. -/
  | exp2 (a : Num)
  deriving DecidableEq, Repr, Inhabited

/-- One byte of an event message (30_encoding.md R90). -/
abbrev Byte := BitVec 8

/-- The two command ports (30_encoding.md R96): `r` belongs to the R agent, `c` to the C agent. -/
inductive Port where
  | r
  | c
  deriving DecidableEq, Repr, Inhabited

/-- The waveform of an oscillator (10_state.md R23); the reserved codes 5 to 7 are never held (R130). -/
inductive Waveform where
  | sine
  | saw
  | square
  | triangle
  | noise
  deriving DecidableEq, Repr, Inhabited

/-- The stage of the envelope (10_state.md R26); the reserved codes 5 to 7 are never held (R156). -/
inductive Stage where
  | idle
  | attack
  | decay
  | sustain
  | release
  deriving DecidableEq, Repr, Inhabited

end Sys2Proof
end

