-- ==== Sys2Proof/Syntax.lean ====
section
/-! DEFINITION. The instruction set: one constructor of `Instr` per row of spec/opcode_table.json, in the table's
order (00_scope.md R3: the commands, then the micro-operations the commands invoke), and the form in which a command
reaches the block (30_encoding.md R93, R95). -/

namespace Sys2Proof

/-- The voice core's operations. The first 23 are the commands a command word selects (30_encoding.md R109);
the last 17 are the micro-operations of R110, which no command word selects. -/
inductive Instr where
  /-- TICK: render one frame (44_voice_engine.md R196). -/
  | tick
  /-- NOTE_OFF data1, data2 (R191). -/
  | noteOff (data1 data2 : Byte)
  /-- NOTE_ON data1, data2 (R192). -/
  | noteOn (data1 data2 : Byte)
  /-- EVT_IGNORED: any other status byte (R193). -/
  | evtIgnored (status data1 data2 : Byte)
  /-- ENVSET.A v (41_envelope.md R148). -/
  | envsetA (v : Num)
  /-- ENVSET.D v (R149). -/
  | envsetD (v : Num)
  /-- ENVSET.S v (R150). -/
  | envsetS (v : Num)
  /-- ENVSET.R v (R151). -/
  | envsetR (v : Num)
  /-- PSET.0 x, Osc1 Freq (45_parameter_access.md R221). -/
  | pset0 (x : Num)
  /-- PSET.1 x, Osc2 Freq (R222). -/
  | pset1 (x : Num)
  /-- PSET.2 x, Filter Cutoff (R223). -/
  | pset2 (x : Num)
  /-- PSET.3 x, Filter Resonance (R224). -/
  | pset3 (x : Num)
  /-- PSET.4 x, LFO Freq (R225). -/
  | pset4 (x : Num)
  /-- PSET.5 x, LFO Amount (R226). -/
  | pset5 (x : Num)
  /-- PSET.RSVD x: parameter index 6 or 7 (R227). -/
  | psetRsvd (idx : BitVec 3) (x : Num)
  /-- PGET.0 (R229). -/
  | pget0
  /-- PGET.1 (R230). -/
  | pget1
  /-- PGET.2 (R231). -/
  | pget2
  /-- PGET.3 (R232). -/
  | pget3
  /-- PGET.4 (R233). -/
  | pget4
  /-- PGET.5 (R234). -/
  | pget5
  /-- PGET.RSVD: parameter index 6 or 7 (R235). -/
  | pgetRsvd (idx : BitVec 3)
  /-- RSVD: a reserved class, or a class on a port that does not accept it (30_encoding.md R97). -/
  | rsvd (port : Port) (cls : BitVec 4)
  /-- OSC.GEN.SINE(p) (40_oscillator.md R121). -/
  | oscGenSine (p : Num)
  /-- OSC.GEN.SAW(p) (R122). -/
  | oscGenSaw (p : Num)
  /-- OSC.GEN.SQUARE(p) (R123). -/
  | oscGenSquare (p : Num)
  /-- OSC.GEN.TRIANGLE(p) (R124). -/
  | oscGenTriangle (p : Num)
  /-- OSC.GEN.NOISE() (R125). -/
  | oscGenNoise
  /-- ENV.PROCESS.IDLE (41_envelope.md R141). -/
  | envProcessIdle
  /-- ENV.PROCESS.ATTACK (R142). -/
  | envProcessAttack
  /-- ENV.PROCESS.DECAY (R143). -/
  | envProcessDecay
  /-- ENV.PROCESS.SUSTAIN (R144). -/
  | envProcessSustain
  /-- ENV.PROCESS.RELEASE (R145). -/
  | envProcessRelease
  /-- OSC.GEN(i) (40_oscillator.md R120). -/
  | oscGen (i : Fin 5)
  /-- OSC.ADVANCE(i) (R126). -/
  | oscAdvance (i : Fin 5)
  /-- ENV.PROCESS (41_envelope.md R140). -/
  | envProcess
  /-- ENV.TRIGGER (R146). -/
  | envTrigger
  /-- ENV.RELEASE (R147). -/
  | envRelease
  /-- LPF.PROCESS(x) (42_filter.md R170). -/
  | lpfProcess (x : Num)
  /-- LFO.PROCESS (43_lfo.md R180). -/
  | lfoProcess
  deriving DecidableEq, Repr

/-- A command as it arrives (30_encoding.md R93, R95, R96): the port, the 32-bit command word `CW` and the operand
`DW`. A class without an operand carries a `DW` that nothing reads. -/
structure Command where
  port : Port
  cw : BitVec 32
  dw : Num
  deriving DecidableEq, Repr

end Sys2Proof
end

