-- ==== Sys2Proof/Config.lean ====
section
/-! DEFINITION. What an implementation fixes (the record `CFG` of 00_scope.md R7, with the numerics record of R8) and the
free values: constants with no body, so that nothing proved rests on what they are. The ranges the spec gives them are
put on in `Sys2Proof.Machine.Operands`, in the one function that reads each. -/

namespace Sys2Proof

/-- The numerics record `CFG.NUM` (00_scope.md R8): every rule's pseudocode is evaluated through its fields. -/
structure Numerics where
  /-- `+`. -/
  add : Num → Num → Num
  /-- `−`. -/
  sub : Num → Num → Num
  /-- `×`. -/
  mul : Num → Num → Num
  /-- `/`. -/
  div : Num → Num → Num
  /-- `<`. -/
  lt : Num → Num → Bool
  /-- `≤`. -/
  le : Num → Num → Bool
  /-- `≥`. -/
  ge : Num → Num → Bool
  /-- `=`. -/
  eq : Num → Num → Bool
  /-- An integer as a number. -/
  ofInt : Int → Num
  /-- A literal's value. -/
  lit : Rat → Num
  /-- `TWO_PI`. -/
  twoPi : Num
  /-- The sine of an angle in radians. -/
  sin : Num → Num
  /-- 2 raised to the argument. -/
  exp2 : Num → Num
  deriving Inhabited

/-- Which numerics record a block has (00_scope.md R8): the ideal instantiation, or another one. The name of a record
stands in `Cfg` for the record itself, since a configuration is part of the state and the state is plain data
(log entry 3). -/
inductive NumSystem where
  /-- The ideal instantiation: exact real arithmetic (`Sys2Proof.Numerics.ideal`). -/
  | ideal
  /-- The k-th other instantiation, any record at all (`Config.numerics k`). -/
  | other (k : Nat)
  deriving DecidableEq, Repr, Inhabited

/-- The configuration record `CFG` (00_scope.md R7). 10_state.md R20: constant for the whole life of the block, that is
until a RESET (70_reset_and_hazards.md R281). -/
structure Cfg where
  /-- `CFG.NUM`, by the name of its record. -/
  num : NumSystem
  /-- `CFG.SR`, the sample rate in Hz; > 0 when legal. -/
  sr : Num
  /-- `CFG.NCH`, the number of output channels; ≥ 1 when legal. -/
  nch : Nat
  /-- `CFG.WAVE0[i]`, the waveform of oscillator i. -/
  wave0 : Vector Waveform 5
  /-- `CFG.ATT0`, seconds; > 0 when legal. -/
  att0 : Num
  /-- `CFG.DEC0`, seconds; > 0 when legal. -/
  dec0 : Num
  /-- `CFG.SUS0`, a level; in [0,1] when legal. -/
  sus0 : Num
  /-- `CFG.REL0`, seconds; > 0 when legal. -/
  rel0 : Num
  /-- `CFG.P0[i]`, parameter i in engineering units; in [0, SCALE[i]] when legal. -/
  p0 : Vector Num 6
  deriving DecidableEq, Repr, Inhabited

/-- What the host hands the block, one item at a time: a command on one of the two ports, or the RESET input with the
configuration that holds from then on (70_reset_and_hazards.md R280, R281; log entry 8). -/
inductive Input where
  | command (c : Command)
  | reset (cfg : Cfg)
  deriving DecidableEq, Repr

/-- Free value: the configuration of the machine that starts at `State.reset`; R7 calls every field OPEN
(log entry 3). -/
opaque Config.cfgRaw : Cfg

/-- Free value: the k-th numerics record that is not the ideal one (00_scope.md R8, 93_implementation_defined.md U7;
log entry 1). What its `div` returns for a zero divisor is U1's parameter. -/
opaque Config.numerics : Nat → Numerics

/-- Free value: the digits of the k-th named real number (log entry 1): `namedRaw k 0` and then binary digits, each
brought into [−1, 1]. Every real number has such digits. -/
opaque Config.namedRaw : Nat → Nat → Rat

/-- Free value: the n-th Noise draw (40_oscillator.md R125, 92_eei_decisions.md D3; log entry 4). -/
opaque Config.noiseRaw : Nat → Num

/-- Free value: which of the stores it may observe the n-th parameter load of the R agent observes
(20_memory.md R70; log entry 5). -/
opaque Config.loadChoice : Nat → Nat

end Sys2Proof
end

