-- ==== Sys2Proof/WellFormed.lean ====
section
/-! DEFINITION. Which instructions are words of the instruction set. Four constructors have operands that only some
values make a word of their own row; every other constructor is well formed for every operand, since no byte, no index
and no number is validated by the voice core (30_encoding.md R92, 60_exceptions.md R252). -/

namespace Sys2Proof

/-- The command classes a port accepts (30_encoding.md R96): 0, 1, 2 on the R port; 3, 4 on the C port. -/
def Port.accepts : Port → BitVec 4 → Bool
  | .r, cls => cls.toNat ≤ 2
  | .c, cls => cls.toNat = 3 || cls.toNat = 4

/-- An instruction whose operands its own row of the opcode table admits. EVT_IGNORED is tried after NOTE_OFF and
NOTE_ON, so its status is neither 128 nor 144 (R109); PSET.RSVD and PGET.RSVD have index 6 or 7; RSVD has a class its
port does not accept (R97), which every class 5 to 15 is. -/
def Instr.wellFormed : Instr → Bool
  | .evtIgnored status _ _ => status.toNat ≠ 128 && status.toNat ≠ 144
  | .psetRsvd idx _ => 6 ≤ idx.toNat
  | .pgetRsvd idx => 6 ≤ idx.toNat
  | .rsvd port cls => !port.accepts cls
  | .tick | .noteOff _ _ | .noteOn _ _ => true
  | .envsetA _ | .envsetD _ | .envsetS _ | .envsetR _ => true
  | .pset0 _ | .pset1 _ | .pset2 _ | .pset3 _ | .pset4 _ | .pset5 _ => true
  | .pget0 | .pget1 | .pget2 | .pget3 | .pget4 | .pget5 => true
  | .oscGenSine _ | .oscGenSaw _ | .oscGenSquare _ | .oscGenTriangle _ | .oscGenNoise => true
  | .envProcessIdle | .envProcessAttack | .envProcessDecay | .envProcessSustain | .envProcessRelease => true
  | .oscGen _ | .oscAdvance _ | .envProcess | .envTrigger | .envRelease | .lpfProcess _ | .lfoProcess => true

/-- The commands: the instructions a command word selects. The rest are the micro-operations, "no command word
selects one directly" (R110). -/
def Instr.isCommand : Instr → Bool
  | .tick | .noteOff _ _ | .noteOn _ _ | .evtIgnored _ _ _ => true
  | .envsetA _ | .envsetD _ | .envsetS _ | .envsetR _ => true
  | .pset0 _ | .pset1 _ | .pset2 _ | .pset3 _ | .pset4 _ | .pset5 _ | .psetRsvd _ _ => true
  | .pget0 | .pget1 | .pget2 | .pget3 | .pget4 | .pget5 | .pgetRsvd _ => true
  | .rsvd _ _ => true
  | .oscGenSine _ | .oscGenSaw _ | .oscGenSquare _ | .oscGenTriangle _ | .oscGenNoise => false
  | .envProcessIdle | .envProcessAttack | .envProcessDecay | .envProcessSustain | .envProcessRelease => false
  | .oscGen _ | .oscAdvance _ | .envProcess | .envTrigger | .envRelease | .lpfProcess _ | .lfoProcess => false

end Sys2Proof
end

