-- ==== Sys2Proof/Decode.lean ====
section
/-! DEFINITION. 30_encoding.md: the fields of the command word `CW32` (R93), its decoder (R109) and encoder, the codes
`WAVE3` and `STAGE3` (R98, R99), the assembler's lines and pseudo-instructions (R106, R107). Decoding a command is
total: "No encoding traps" (R103); a code of 5 to 7 is refused by name (R130, R156). -/

namespace Sys2Proof

/-! ### Fields of the command word (R93) -/

/-- `cls = CW[31:28]`. -/
def Command.cls (cw : BitVec 32) : BitVec 4 := cw.extractLsb' 28 4

/-- `status = CW[23:16]`, byte 0 of the event message. -/
def Command.status (cw : BitVec 32) : Byte := cw.extractLsb' 16 8

/-- `data1 = CW[15:8]`, byte 1 of the event message. -/
def Command.data1 (cw : BitVec 32) : Byte := cw.extractLsb' 8 8

/-- `data2 = CW[7:0]`, byte 2 of the event message. -/
def Command.data2 (cw : BitVec 32) : Byte := cw.extractLsb' 0 8

/-- `sel = CW[1:0]`, the envelope register select. -/
def Command.sel (cw : BitVec 32) : BitVec 2 := cw.extractLsb' 0 2

/-- `idx = CW[2:0]`, the parameter index. -/
def Command.idx (cw : BitVec 32) : BitVec 3 := cw.extractLsb' 0 3

/-! ### The decoder (R109) -/

/-- The event decode (R91, R109 step 4): the whole status byte is compared. -/
def decodeEvent (status data1 data2 : Byte) : Instr :=
  if status.toNat = 128 then .noteOff data1 data2
  else if status.toNat = 144 then .noteOn data1 data2
  else .evtIgnored status data1 data2

/-- R109 step 5: `sel` 0 to 3 is attack, decay, sustain, release. -/
def decodeEnvset (sel : BitVec 2) (v : Num) : Instr :=
  match sel.toNat with
  | 0 => .envsetA v
  | 1 => .envsetD v
  | 2 => .envsetS v
  | _ => .envsetR v

/-- R109 step 6: `idx` 0 to 5 is a parameter, 6 and 7 are PSET.RSVD. -/
def decodePset (idx : BitVec 3) (x : Num) : Instr :=
  match idx.toNat with
  | 0 => .pset0 x
  | 1 => .pset1 x
  | 2 => .pset2 x
  | 3 => .pset3 x
  | 4 => .pset4 x
  | 5 => .pset5 x
  | _ => .psetRsvd idx x

/-- R109 step 7: `idx` 0 to 5 is a parameter, 6 and 7 are PGET.RSVD. -/
def decodePget (idx : BitVec 3) : Instr :=
  match idx.toNat with
  | 0 => .pget0
  | 1 => .pget1
  | 2 => .pget2
  | 3 => .pget3
  | 4 => .pget4
  | 5 => .pget5
  | _ => .pgetRsvd idx

/-- The operation a command is (R109): the class is read first; a class the port does not accept is RSVD (R97), and
every bit the class does not name is ignored (R93). -/
def decode (c : Command) : Instr :=
  if c.port.accepts (Command.cls c.cw) then
    match (Command.cls c.cw).toNat with
    | 0 => .tick
    | 1 => decodeEvent (Command.status c.cw) (Command.data1 c.cw) (Command.data2 c.cw)
    | 2 => decodeEnvset (Command.sel c.cw) c.dw
    | 3 => decodePset (Command.idx c.cw) c.dw
    | _ => decodePget (Command.idx c.cw)
  else .rsvd c.port (Command.cls c.cw)

/-! ### The encoder (R93, R94, R106) -/

/-- A command word of a class whose named bits lie in the low 24; the bits 27:24 are reserved and written as 0 (R93). -/
def word (cls : BitVec 4) (low : BitVec 24) : BitVec 32 := cls ++ (0#4 ++ low)

/-- The three bytes of an event, `status` most significant (R64, R93). -/
def eventBits (status data1 data2 : Byte) : BitVec 24 := status ++ (data1 ++ data2)

/-- The command of an event message (R90, R106). -/
def eventCommand (status data1 data2 : Byte) : Command :=
  { port := .r, cw := word 1 (eventBits status data1 data2), dw := .rat 0 }

/-- The command of an ENVSET with this `sel` (R94). -/
def envsetCommand (sel : BitVec 2) (v : Num) : Command :=
  { port := .r, cw := word 2 (sel.setWidth 24), dw := v }

/-- The command of a PSET with this `idx` (R94). -/
def psetCommand (idx : BitVec 3) (x : Num) : Command :=
  { port := .c, cw := word 3 (idx.setWidth 24), dw := x }

/-- The command of a PGET with this `idx` (R94). -/
def pgetCommand (idx : BitVec 3) : Command :=
  { port := .c, cw := word 4 (idx.setWidth 24), dw := .rat 0 }

/-- The command an instruction is issued as; none for a micro-operation (R110). A class without an operand is given
the operand 0, which nothing reads. -/
def encode : Instr → Option Command
  | .tick => some { port := .r, cw := word 0 0, dw := .rat 0 }
  | .noteOff data1 data2 => some (eventCommand 128 data1 data2)
  | .noteOn data1 data2 => some (eventCommand 144 data1 data2)
  | .evtIgnored status data1 data2 => some (eventCommand status data1 data2)
  | .envsetA v => some (envsetCommand 0 v)
  | .envsetD v => some (envsetCommand 1 v)
  | .envsetS v => some (envsetCommand 2 v)
  | .envsetR v => some (envsetCommand 3 v)
  | .pset0 x => some (psetCommand 0 x)
  | .pset1 x => some (psetCommand 1 x)
  | .pset2 x => some (psetCommand 2 x)
  | .pset3 x => some (psetCommand 3 x)
  | .pset4 x => some (psetCommand 4 x)
  | .pset5 x => some (psetCommand 5 x)
  | .psetRsvd idx x => some (psetCommand idx x)
  | .pget0 => some (pgetCommand 0)
  | .pget1 => some (pgetCommand 1)
  | .pget2 => some (pgetCommand 2)
  | .pget3 => some (pgetCommand 3)
  | .pget4 => some (pgetCommand 4)
  | .pget5 => some (pgetCommand 5)
  | .pgetRsvd idx => some (pgetCommand idx)
  | .rsvd port cls => some { port := port, cw := word cls 0, dw := .rat 0 }
  | .oscGenSine _ | .oscGenSaw _ | .oscGenSquare _ | .oscGenTriangle _ | .oscGenNoise => none
  | .envProcessIdle | .envProcessAttack | .envProcessDecay | .envProcessSustain | .envProcessRelease => none
  | .oscGen _ | .oscAdvance _ | .envProcess | .envTrigger | .envRelease | .lpfProcess _ | .lfoProcess => none

/-! ### The register codes WAVE3 and STAGE3 (R98, R99) -/

/-- Why a register code is refused. -/
inductive CodeError where
  /-- A `WAVE3` code 5, 6 or 7 (40_oscillator.md R130). -/
  | reservedWave (code : BitVec 3)
  /-- A `STAGE3` code 5, 6 or 7 (41_envelope.md R156). -/
  | reservedStage (code : BitVec 3)
  deriving DecidableEq, Repr

/-- The `WAVE3` code of a waveform (R98). -/
def Waveform.code : Waveform → BitVec 3
  | .sine => 0
  | .saw => 1
  | .square => 2
  | .triangle => 3
  | .noise => 4

/-- The waveform a `WAVE3` code stands for (R98). -/
def Waveform.ofCode (code : BitVec 3) : Except CodeError Waveform :=
  match code.toNat with
  | 0 => .ok .sine
  | 1 => .ok .saw
  | 2 => .ok .square
  | 3 => .ok .triangle
  | 4 => .ok .noise
  | _ => .error (.reservedWave code)

/-- The `STAGE3` code of a stage (R99). -/
def Stage.code : Stage → BitVec 3
  | .idle => 0
  | .attack => 1
  | .decay => 2
  | .sustain => 3
  | .release => 4

/-- The stage a `STAGE3` code stands for (R99). -/
def Stage.ofCode (code : BitVec 3) : Except CodeError Stage :=
  match code.toNat with
  | 0 => .ok .idle
  | 1 => .ok .attack
  | 2 => .ok .decay
  | 3 => .ok .sustain
  | 4 => .ok .release
  | _ => .error (.reservedStage code)

/-- The micro-operation a waveform selects inside OSC.GEN, given the phase (R98, R110). -/
def Waveform.instr (p : Num) : Waveform → Instr
  | .sine => .oscGenSine p
  | .saw => .oscGenSaw p
  | .square => .oscGenSquare p
  | .triangle => .oscGenTriangle p
  | .noise => .oscGenNoise

/-- The micro-operation a stage selects inside ENV.PROCESS (R99, R110). -/
def Stage.instr : Stage → Instr
  | .idle => .envProcessIdle
  | .attack => .envProcessAttack
  | .decay => .envProcessDecay
  | .sustain => .envProcessSustain
  | .release => .envProcessRelease

/-! ### The assembler (R106, R107) -/

/-- A line that is an event: `EVT s, d1, d2`, `NOTE_ON d1 [, d2]` or `NOTE_OFF d1 [, d2]` (R106, R107). -/
inductive AsmEvent where
  | evt (status data1 data2 : Byte)
  | noteOn (data1 : Byte) (data2 : Option Byte)
  | noteOff (data1 : Byte) (data2 : Option Byte)
  deriving DecidableEq, Repr

/-- One line of the assembler (R106), the pseudo-instructions of R107 included. -/
inductive Asm where
  | tick
  | event (e : AsmEvent)
  | envset (sel : BitVec 2) (v : Num)
  | pset (idx : BitVec 3) (x : Num)
  | pget (idx : BitVec 3)
  /-- RESET: "the reset input, not a command word". -/
  | reset (cfg : Cfg)
  /-- `TICK n`. -/
  | ticks (n : Nat)
  /-- `BLOCK n { e1; …; ek }`: "the events e1 to ek in order, each an EVT, NOTE_ON or NOTE_OFF, then TICK n". -/
  | block (n : Nat) (events : List AsmEvent)
  deriving DecidableEq, Repr

/-- The TICK command (R106). -/
def tickCommand : Command := { port := .r, cw := word 0 0, dw := .rat 0 }

/-- The command of an event line; a second operand that is not written is 0 (R107). -/
def AsmEvent.command : AsmEvent → Command
  | .evt status data1 data2 => eventCommand status data1 data2
  | .noteOn data1 data2 => eventCommand 144 data1 (data2.getD 0)
  | .noteOff data1 data2 => eventCommand 128 data1 (data2.getD 0)

/-- What a line hands the block, in order (R106, R107); without a written agent a line is issued on the port that
accepts its class. -/
def Asm.inputs : Asm → List Input
  | .tick => [.command tickCommand]
  | .event e => [.command e.command]
  | .envset sel v => [.command (envsetCommand sel v)]
  | .pset idx x => [.command (psetCommand idx x)]
  | .pget idx => [.command (pgetCommand idx)]
  | .reset cfg => [.reset cfg]
  | .ticks n => List.replicate n (.command tickCommand)
  | .block n events => events.map (fun e => .command e.command) ++ List.replicate n (.command tickCommand)

/-- A line with the agent written before it, `R:` or `C:` (R106): its commands are issued on that agent's port,
whichever port accepts them. -/
def Asm.inputsOn (port : Port) (a : Asm) : List Input :=
  a.inputs.map fun
    | .command c => .command { c with port := port }
    | .reset cfg => .reset cfg

/-! ### The opcode table's numbering -/

/-- The port a bare command word is issued on (R106: "without a prefix, classes 0 to 2 are the R agent's and classes
3, 4 the C agent's"; a reserved class is RSVD on either). -/
def Port.ofWord (cw : BitVec 32) : Port :=
  if (Command.cls cw).toNat = 3 ∨ (Command.cls cw).toNat = 4 then .c else .r

/-- A bare command word as a command, its operand `DW` the word of zeros. -/
def Command.ofWord (cw : BitVec 32) : Command := { port := Port.ofWord cw, cw := cw, dw := .rat 0 }

/-- The instruction read from the bits `w` of a row of the opcode table. There is one command-word length, 32 bits
(R108); a row of another length is a micro-operation or a register code, which "no command word selects" (R110). -/
def decodeTableWord (nbits w : Nat) : Option Instr :=
  if nbits = 32 then some (decode (Command.ofWord (BitVec.ofNat 32 w))) else none

end Sys2Proof
end

