-- ==== Sys2Proof/Machine/Numerics.lean ====
section
/-! DEFINITION. 00_scope.md R8: the ideal instantiation of the numerics record. A number is a term (`Num`), so the four
operations, the sine and 2^x of the ideal record are exact by construction; what has to be computed is the order. Every
term has a sequence of rational enclosures that close in on the real number it stands for, and two numbers are compared
by searching for an enclosure of their difference that leaves out 0. The search ends where they differ; where they are
equal it has no end, and then, as a function, answers nothing, which is what equal numbers are told by. Rational numbers
are computed with and compared directly. -/

namespace Sys2Proof

/-! ### Enclosures -/

/-- The reals within `rad` of `mid`. -/
structure Ball where
  mid : Rat
  rad : Rat
  deriving DecidableEq, Repr

/-- `f 0 + … + f (n − 1)`. -/
def sumTo (f : Nat → Rat) : Nat → Rat
  | 0 => 0
  | n + 1 => sumTo f n + f n

/-- The sum of two enclosed numbers. -/
def Ball.add (x y : Ball) : Ball := { mid := x.mid + y.mid, rad := x.rad + y.rad }

/-- An enclosed number with its sign changed. -/
def Ball.neg (x : Ball) : Ball := { mid := -x.mid, rad := x.rad }

/-- The product of two enclosed numbers. -/
def Ball.mul (x y : Ball) : Ball :=
  { mid := x.mid * y.mid, rad := |x.mid| * y.rad + x.rad * |y.mid| + x.rad * y.rad }

/-- Does the enclosure leave out 0? -/
def Ball.apart (x : Ball) : Bool := x.rad < |x.mid|

/-- The reciprocal of an enclosed number, once 0 is left out. -/
def Ball.inv (x : Ball) : Option Ball :=
  if x.apart then some { mid := 1 / x.mid, rad := x.rad / ((|x.mid| - x.rad) * |x.mid|) } else none

/-- A power series with coefficients `c k / k!` up to the power n − 1, each c k within [−1, 1], with a bound on what it
leaves out; n has to be large enough for the point. -/
def expSeries (c : Nat → Rat) (n : Nat) (x : Rat) : Option Ball :=
  if 2 * |x| ≤ n + 1 then
    some { mid := sumTo (fun k => c k * (x ^ k / k.factorial)) n, rad := |x| ^ n / n.factorial * 2 }
  else none

/-- The coefficients of the sine: 0, 1, 0, −1 and so on. -/
def sineCoeff (k : Nat) : Rat := if k % 4 = 1 then 1 else if k % 4 = 3 then -1 else 0

/-- The sine of an enclosed angle. -/
def Ball.sin (n : Nat) (x : Ball) : Option Ball :=
  (expSeries sineCoeff n x.mid).map fun s => { mid := s.mid, rad := s.rad + x.rad }

/-- The exponential of an enclosed number, once its radius is at most 1. -/
def Ball.exp (n : Nat) (x : Ball) : Option Ball :=
  if x.rad ≤ 1 then
    (expSeries (fun _ => 1) n x.mid).map fun s => { mid := s.mid, rad := s.rad + (|s.mid| + s.rad) * (2 * x.rad) }
  else none

/-- The arctangent of 1/m, m ≥ 5, by n terms of its series; within 25^(−n)/4. -/
def arctanTo (m : Nat) (n : Nat) : Rat :=
  sumTo (fun k => (-1) ^ k * (1 / m) ^ (2 * k + 1) / (2 * k + 1 : Nat)) n

/-- 2π, by Machin's formula. -/
def twoPiBall (n : Nat) : Ball :=
  { mid := 8 * (4 * arctanTo 5 n - arctanTo 239 n), rad := 10 * (1 / 25) ^ n }

/-- The natural logarithm of 2. -/
def logTwoBall (n : Nat) : Ball :=
  { mid := sumTo (fun k => (1 / 2) ^ (k + 1) / (k + 1 : Nat)) n, rad := (1 / 2) ^ n }

/-- The k-th summand of a named real number: a free rational, and then free binary digits within [−1, 1]. -/
def namedTerm (i k : Nat) : Rat :=
  if k = 0 then Config.namedRaw i 0 else max (-1) (min 1 (Config.namedRaw i k)) * (1 / 2) ^ k

/-- A named real number, from n summands on. -/
def namedBall (i n : Nat) : Ball := { mid := sumTo (namedTerm i) (n + 1), rad := (1 / 2) ^ n }

/-- The n-th enclosure of the number a term stands for, if it has one yet: every term has them from some n on, and they
close in on the number as n grows. -/
def Num.ball : Num → Nat → Option Ball
  | .rat q, _ => some { mid := q, rad := 0 }
  | .named i, n => some (namedBall i n)
  | .twoPi, n => some (twoPiBall n)
  | .add a b, n => (a.ball n).bind fun x => (b.ball n).map fun y => x.add y
  | .neg a, n => (a.ball n).map Ball.neg
  | .mul a b, n => (a.ball n).bind fun x => (b.ball n).map fun y => x.mul y
  | .inv a k, n => if (a.ball k).any Ball.apart then (a.ball n).bind Ball.inv else some { mid := 0, rad := 0 }
  | .sin a, n => (a.ball n).bind (Ball.sin n)
  | .exp2 a, n => (a.ball n).bind fun x => Ball.exp n (x.mul (logTwoBall n))

/-! ### The search -/

/-- The first k from n on that has the property; none where there is none. As a computation it then has no end. -/
def firstFrom (p : Nat → Bool) (n : Nat) : Option Nat := if p n then some n else firstFrom p (n + 1)
partial_fixpoint

/-- The first k from n on, of the next `fuel` ones, that has the property. -/
def firstWithin (p : Nat → Bool) (n : Nat) : Nat → Option Nat
  | 0 => none
  | fuel + 1 => if p n then some n else firstWithin p (n + 1) fuel

/-- The number of an enclosure that leaves out 0: there is one exactly where the number is not 0. The first ones are
tried in a bounded search, which Lean's kernel can evaluate. -/
def Num.apartAt (a : Num) : Option Nat :=
  match firstWithin (fun n => (a.ball n).any Ball.apart) 0 64 with
  | some n => some n
  | none => firstFrom (fun n => (a.ball n).any Ball.apart) 64

/-- Is the number above 0? The enclosure that leaves out 0 says. -/
def Num.positive (a : Num) : Bool :=
  match a.apartAt with
  | some n => (a.ball n).any fun x => 0 < x.mid
  | none => false

/-! ### The fields of the ideal record -/

/-- Exact addition. -/
def Num.plus : Num → Num → Num
  | .rat p, .rat q => .rat (p + q)
  | a, b => .add a b

/-- The exact negative. -/
def Num.minus : Num → Num
  | .rat p => .rat (-p)
  | a => .neg a

/-- Exact multiplication. -/
def Num.times : Num → Num → Num
  | .rat p, .rat q => .rat (p * q)
  | a, b => .mul a b

/-- The exact reciprocal. Of 0 there is none; the answer 0 is then never used, because the step is refused
(00_scope.md R11; `Sys2Proof.Machine.State.dividing`). -/
def Num.recip : Num → Num
  | .rat p => .rat (1 / p)
  | a =>
    match a.apartAt with
    | some n => .inv a n
    | none => .rat 0

/-- Exact order. -/
def Num.lessThan : Num → Num → Bool
  | .rat p, .rat q => p < q
  | a, b => (b.plus a.minus).positive

/-- The sine at a quarter of the turn, of which z counts the quarters. -/
def sineOfQuarters (z : Int) : Rat :=
  if z % 4 = 1 then 1 else if z % 4 = 3 then -1 else 0

/-- The exact sine; at the quarters of the turn it is a rational number. -/
def Num.sine : Num → Num
  | .mul .twoPi (.rat p) => if (4 * p).den = 1 then .rat (sineOfQuarters (4 * p).num) else .sin (.mul .twoPi (.rat p))
  | a => .sin a

/-- 2^z for an integer z. -/
def powTwo : Int → Rat
  | .ofNat n => 2 ^ n
  | .negSucc n => 1 / 2 ^ (n + 1)

/-- The exact power of 2; at the integers it is a rational number. -/
def Num.powerOfTwo : Num → Num
  | .rat q => if q.den = 1 then .rat (powTwo q.num) else .exp2 (.rat q)
  | a => .exp2 a

/-- The ideal instantiation: "every field is the exact mathematical function" (00_scope.md R8). -/
def Numerics.ideal : Numerics where
  add := Num.plus
  sub a b := a.plus b.minus
  mul := Num.times
  div a b := a.times b.recip
  lt := Num.lessThan
  le a b := !b.lessThan a
  ge a b := !a.lessThan b
  eq a b := !a.lessThan b && !b.lessThan a
  ofInt z := .rat z
  lit := .rat
  twoPi := .twoPi
  sin := Num.sine
  exp2 := Num.powerOfTwo

/-- The record an instantiation's name stands for. -/
def NumSystem.record : NumSystem → Numerics
  | .ideal => Numerics.ideal
  | .other k => Config.numerics k

/-- May the instantiation divide by this number? In the ideal one a division by zero has no value and the step is
refused; any other goes on with what its `div` returns (00_scope.md R11, 41_envelope.md R155,
93_implementation_defined.md U1; log entry 2). -/
def NumSystem.divides : NumSystem → Num → Bool
  | .ideal, d => !Numerics.ideal.eq d (.rat 0)
  | .other _, _ => true

end Sys2Proof
end

