-- ==== Sys2Proof/Machine/Operands.lean ====
section
/-! DEFINITION. 00_scope.md R8 and section 5: `clamp`, the sine of a phase, the pitch mapping, the parameter tables, the
legal configurations and the Noise draw, and the operand assembly of 30_encoding.md R100, R101. Everything here is a
function of the numerics record and of numbers; nothing reads the state. -/

namespace Sys2Proof

/-- `clamp(v, lo, hi)` of 00_scope.md section 5 (92_eei_decisions.md D35): both bounds inclusive. DESIGN CHOICE: its
`v > hi` is `lt(hi, v)`, the record having no field for `>` (log entry 15). -/
def clamp (N : Numerics) (v lo hi : Num) : Num := if N.lt v lo then lo else if N.lt hi v then hi else v

/-- `sin(2π × p)` (40_oscillator.md R121, 43_lfo.md R180). -/
def sinTwoPi (N : Numerics) (p : Num) : Num := N.sin (N.mul N.twoPi p)

/-- `PITCH2FREQ(pitch) = 440 × exp2(ofInt(pitch − 69) / 12)` (44_voice_engine.md R194). The byte is not masked, the
subtraction is on integers, and the division is that of `ofInt(pitch − 69)` by `ofInt(12)` (30_encoding.md R100). DEDUCED:
R100's field for the 12, where R194 writes it plain and 00_scope.md section 5 would read it as `lit` (log entry 15). -/
def pitchToFreq (N : Numerics) (data1 : Byte) : Num :=
  N.mul (N.lit 440) (N.exp2 (N.div (N.ofInt (data1.toNat - 69)) (N.ofInt 12)))

/-! ### The parameter tables (45_parameter_access.md) -/

/-- `SCALE[idx]`, the set path. -/
def scale (i : Fin 6) : Rat := (#v[20000, 20000, 20000, 1, 20, 2] : Vector Rat 6)[i]

/-- `RSCALE[idx]`, the get path: parameter 4 is read back by 10, not 20 (R233). -/
def rscale (i : Fin 6) : Rat := (#v[20000, 20000, 20000, 1, 10, 2] : Vector Rat 6)[i]

/-- The value a PSET stores: the normalized operand clamped to [0,1], then scaled (R220, R237). -/
def unitOf (N : Numerics) (i : Fin 6) (x : Num) : Num :=
  N.mul (clamp N x (N.lit 0) (N.lit 1)) (N.lit (scale i))

/-- The value a PGET returns: the stored value over the read-back divisor, for parameter 3 too, where that is 1
(R228, R232). -/
def normOf (N : Numerics) (i : Fin 6) (v : Num) : Num := N.div v (N.lit (rscale i))

/-! ### Configuration (00_scope.md R7) -/

/-- `v > 0`, as `lt(0, v)` (DESIGN CHOICE, log entry 15). -/
def Numerics.above0 (N : Numerics) (v : Num) : Bool := N.lt (N.lit 0) v

/-- `0 ≤ v ≤ hi`. -/
def Numerics.upTo (N : Numerics) (v : Num) (hi : Rat) : Bool := N.le (N.lit 0) v && N.le v (N.lit hi)

/-- A configuration within the ranges of 00_scope.md R7, by the order of its own numerics record. -/
abbrev Cfg.Legal (c : Cfg) : Prop :=
  c.num.record.above0 c.sr = true ∧ 1 ≤ c.nch ∧ c.num.record.above0 c.att0 = true ∧
    c.num.record.above0 c.dec0 = true ∧ c.num.record.above0 c.rel0 = true ∧ c.num.record.upTo c.sus0 1 = true ∧
    ∀ i : Fin 6, c.num.record.upTo c.p0[i] (scale i) = true

/-- A legal configuration. -/
def Cfg.standard : Cfg where
  num := .ideal
  sr := .rat 44100
  nch := 1
  wave0 := Vector.replicate 5 .sine
  att0 := .rat 1
  dec0 := .rat 1
  sus0 := .rat 1
  rel0 := .rat 1
  p0 := Vector.replicate 6 (.rat 0)

/-- The configuration of the machine at `State.reset`: some legal one (log entry 3). The free record if that is legal, so
each legal configuration is one it could be. -/
def Config.cfg : Cfg := if Config.cfgRaw.Legal then Config.cfgRaw else Cfg.standard

/-! ### The Noise draw (40_oscillator.md R125) -/

/-- The n-th draw: a free number u with −1 ≤ u < 1 (log entry 4). -/
def noiseDraw (N : Numerics) (n : Nat) : Num :=
  if N.le (N.lit (-1)) (Config.noiseRaw n) && N.lt (Config.noiseRaw n) (N.lit 1) then Config.noiseRaw n else N.lit 0

end Sys2Proof
end

