-- ==== Sys2Proof/Machine/State.lean ====
section
/-! DEFINITION. The architectural state (10_state.md R20) and its value after RESET (R44 to R47,
70_reset_and_hazards.md R280), with the model's own fields marked as such (log entries 3 to 7). -/

namespace Sys2Proof.Machine

/-- The registers of one oscillator (10_state.md R21 to R23). -/
structure Osc where
  /-- `OSC[i].PH`. -/
  ph : Num
  /-- `OSC[i].FREQ`, Hz. -/
  freq : Num
  /-- `OSC[i].WAVE`. -/
  wave : Waveform
  deriving DecidableEq, Repr

/-- The envelope's registers (10_state.md R25 to R28). -/
structure Env where
  /-- `ENV.ATT`, seconds. -/
  att : Num
  /-- `ENV.DEC`, seconds. -/
  dec : Num
  /-- `ENV.SUS`, a level. -/
  sus : Num
  /-- `ENV.REL`, seconds. -/
  rel : Num
  /-- `ENV.STAGE`. -/
  stage : Stage
  /-- `ENV.LEVEL`. -/
  level : Num
  /-- `ENV.SR`, the envelope's own copy of the sample rate. -/
  sr : Num
  deriving DecidableEq, Repr

/-- The filter's registers (10_state.md R30 to R32). -/
structure Filt where
  /-- `FILT.CUTOFF`, Hz. -/
  cutoff : Num
  /-- `FILT.RES`. -/
  res : Num
  /-- `FILT.Y1`. -/
  y1 : Num
  /-- `FILT.Y2`. -/
  y2 : Num
  deriving DecidableEq, Repr

/-- The LFO's registers (10_state.md R33). -/
structure Lfo where
  /-- `LFO.PH`. -/
  ph : Num
  /-- `LFO.FREQ`, Hz. -/
  freq : Num
  deriving DecidableEq, Repr

/-- The voice engine's registers (10_state.md R34, R35). -/
structure Ve where
  /-- `VE.NOTE`. -/
  note : Byte
  /-- `VE.GATE`. -/
  gate : Bool
  deriving DecidableEq, Repr

/-- One location `PS.P[i]` of the parameter store under the consistency model of 20_memory.md R70 (log entry 5):
the values that its loads may still return, in the order of the stores. The register's value, which the C agent's next
PGET returns, is the newest of them. -/
structure ParLoc where
  /-- The store the R agent's latest load of this location returned, or the reset value (R70 point 2). -/
  seen : Num
  /-- The stores after that one, oldest first (R70 point 1). -/
  later : List Num
  deriving DecidableEq, Repr

/-- What the block drives on its output ports in one step (30_encoding.md R94 to R96; log entry 6). -/
structure Ports where
  /-- The frame on AUD, one sample a channel; none when the step writes no frame. -/
  aud : Option (List Num)
  /-- The result `RW` of the C port; none when the step gives no result. -/
  rw : Option Num
  /-- The value a micro-operation returns to the command that calls it; none when it returns nothing. -/
  ret : Option Num
  deriving DecidableEq, Repr

/-- The state of the voice core. `osc` to `ps` are the registers of 10_state.md R20 and nothing else; the fields after
them are the model's own. -/
structure State where
  /-- `OSC[0..4]`. -/
  osc : Vector Osc 5
  /-- `ENV`. -/
  env : Env
  /-- `FILT`. -/
  filt : Filt
  /-- `LFO`. -/
  lfo : Lfo
  /-- `VE`. -/
  ve : Ve
  /-- `PS.P[0..5]`. -/
  ps : Vector ParLoc 6
  /-- MODEL: the configuration `CFG`, constant between resets (log entry 3). -/
  cfg : Cfg
  /-- MODEL: the output ports in the latest step (log entry 6). -/
  out : Ports
  /-- MODEL: how many Noise draws have been consumed (log entry 4). -/
  draws : Nat
  /-- MODEL: how many parameter loads the R agent has made (log entry 5). -/
  loads : Nat
  /-- MODEL: what the host has handed the block and the block has not yet taken, oldest first (log entry 7). -/
  inbox : List Input
  deriving DecidableEq, Repr

/-- Why the machine stops with a fault. It never does: "The voice core raises no synchronous exception"
(60_exceptions.md R250) and a division by zero is "Never a fault" (93_implementation_defined.md U1), so this type has
no constructor. -/
inductive Fault where
  deriving DecidableEq, Repr

/-- Why the machine gives an instruction no next state. -/
inductive Refusal where
  /-- Raised by an arm of `exec` whose instruction has no meaning yet; safe. No arm raises it: every instruction of
  the opcode table has its meaning. -/
  | notModelled (mnemonic : String)
  /-- Raised by a gated TICK and by OSC.GEN(i), OSC.ADVANCE(i), ENV.PROCESS and its Attack, Decay and Release arms,
  LPF.PROCESS and LFO.PROCESS, in the ideal instantiation only, when a number they divide by is 0: "a model refuses the
  step" (41_envelope.md R155, 00_scope.md R11, 93_implementation_defined.md U1; log entry 2). Safe: the spec gives the
  quotient no value there, and a statement about such a step cannot be made. -/
  | divisionByZero
  deriving DecidableEq, Repr

/-- The location after reset: the reset value, and no store after it. -/
def ParLoc.reset (v : Num) : ParLoc := { seen := v, later := [] }

/-- No frame, no result, no return value. -/
def Ports.none : Ports := { aud := Option.none, rw := Option.none, ret := Option.none }

/-- Every register at its reset value, computed from the configuration (70_reset_and_hazards.md R280;
10_state.md R44, R45, R46). The model's own fields start empty (DESIGN CHOICE, log entries 4 to 7). -/
def State.resetWith (c : Cfg) : State where
  osc := Vector.ofFn fun i => { ph := c.num.record.lit 0, freq := c.num.record.lit 440, wave := c.wave0[i] }
  env :=
    { att := c.att0, dec := c.dec0, sus := c.sus0, rel := c.rel0, stage := .idle, level := c.num.record.lit 0
      sr := c.sr }
  filt :=
    { cutoff := clamp c.num.record c.p0[2] (c.num.record.lit 20) (c.num.record.lit 20000), res := c.p0[3]
      y1 := c.num.record.lit 0, y2 := c.num.record.lit 0 }
  lfo := { ph := c.num.record.lit 0, freq := c.p0[4] }
  ve := { note := 0, gate := false }
  ps := Vector.ofFn fun i => ParLoc.reset c.p0[i]
  cfg := c
  out := Ports.none
  draws := 0
  loads := 0
  inbox := []

/-- The machine right after RESET, in some legal configuration (00_scope.md R7: every field of `CFG` is OPEN). -/
def State.reset : State := State.resetWith Config.cfg

end Sys2Proof.Machine
end

