-- ==== Sys2Proof/Machine/Ops.lean ====
section
/-! DEFINITION. The named operations over the state: writing one component, the two agents' accesses to the parameter
store (20_memory.md R66, R70), the audio output (R76), the Noise draw (40_oscillator.md R125), RESET
(70_reset_and_hazards.md R280) and taking the next input.

Taking an exception and returning from one: there is neither. The voice core raises no exception (60_exceptions.md
R250), takes no interrupt (R253), and has no trap entry and no trap return (R255, R256); no register saves anything and
no mode changes (R257). So no operation of this file takes one. -/

namespace Sys2Proof.Machine

/-- The numerics record the state's rules are evaluated through: `CFG.NUM` (00_scope.md R8). -/
def State.num (s : State) : Numerics := s.cfg.num.record

/-- The state `t`, if the instantiation can divide by every divisor of the step; else the step is refused
(00_scope.md R11, 41_envelope.md R155; log entry 2). -/
def State.dividing (s : State) (divisors : List Num) (t : State) : Host.Outcome State Fault Refusal :=
  if divisors.all s.cfg.num.divides then .next t else .refused .divisionByZero

/-! ### Writing one component -/

/-- Writes the registers of oscillator `i`. -/
def State.setOsc (s : State) (i : Fin 5) (o : Osc) : State := { s with osc := s.osc.set i o }

/-- Writes the envelope's registers. -/
def State.setEnv (s : State) (e : Env) : State := { s with env := e }

/-- Writes the filter's registers. -/
def State.setFilt (s : State) (f : Filt) : State := { s with filt := f }

/-- Writes the LFO's registers. -/
def State.setLfo (s : State) (l : Lfo) : State := { s with lfo := l }

/-- Writes the voice engine's registers. -/
def State.setVe (s : State) (v : Ve) : State := { s with ve := v }

/-- Writes one location of the parameter store. -/
def State.setPar (s : State) (i : Fin 6) (l : ParLoc) : State := { s with ps := s.ps.set i l }

/-! ### The output ports -/

/-- No output port is driven. -/
def State.quiet (s : State) : State := { s with out := Ports.none }

/-- `AudWrite(ch, v)` for every channel of the frame: the same sample to each (20_memory.md R76). -/
def State.audWrite (s : State) (v : Num) : State :=
  { s with out := { s.out with aud := some (List.replicate s.cfg.nch v) } }

/-- The result `RW` of a PGET. -/
def State.result (s : State) (v : Num) : State := { s with out := { s.out with rw := some v } }

/-- The state after a micro-operation that returns a value, the value on the return port. -/
def State.returning (r : Num × State) : State := { r.2 with out := { r.2.out with ret := some r.1 } }

/-! ### The parameter store (20_memory.md R66 to R70) -/

/-- The value of the newest store: what the register holds, and what the C agent, its only writer, reads
(R70 point 3). -/
def ParLoc.newest (l : ParLoc) : Num := (l.seen :: l.later).getLast (List.cons_ne_nil _ _)

/-- The location after one more store (R70 point 1). -/
def ParLoc.store (l : ParLoc) (v : Num) : ParLoc := { l with later := l.later ++ [v] }

/-- The location after an R-agent load that returns the k-th value it may return, the one it last returned being
number 0: no later load goes behind it (R70 point 2). Every k is some value's number, by the remainder. -/
def ParLoc.observe (l : ParLoc) (k : Nat) : ParLoc :=
  match l.later with
  | [] => l
  | _ :: _ =>
    match (l.seen :: l.later).drop (k % (l.later.length + 1)) with
    | [] => l
    | v :: rest => { seen := v, later := rest }

/-- The value of `PS.P[i]` (10_state.md R37). -/
def State.par (s : State) (i : Fin 6) : Num := s.ps[i].newest

/-- `ParWrite(i, v)`: one atomic store by the C agent. -/
def State.parWrite (s : State) (i : Fin 6) (v : Num) : State := s.setPar i (s.ps[i].store v)

/-- `ParRead(i)` by the R agent: one atomic load, which returns the latest value this agent has observed or the value
of any store after it; which one is free (R70, log entry 5). -/
def State.parLoad (s : State) (i : Fin 6) : Num × State :=
  ((s.ps[i].observe (Config.loadChoice s.loads)).seen,
    { s.setPar i (s.ps[i].observe (Config.loadChoice s.loads)) with loads := s.loads + 1 })

/-! ### The Noise draw -/

/-- `draw_noise()` (00_scope.md section 5): the next draw of the free sequence. -/
def State.drawNoise (s : State) : Num × State := (noiseDraw s.num s.draws, { s with draws := s.draws + 1 })

/-! ### The host's inputs -/

/-- RESET: every register and the store at the reset values of the configuration; the inputs not yet taken stay, and
the free sequences go on where they were (70_reset_and_hazards.md R280, R281; log entry 8). -/
def State.resetInput (s : State) (c : Cfg) : State :=
  { State.resetWith c with draws := s.draws, loads := s.loads, inbox := s.inbox }

/-- The next input and the state without it; none when the block waits for commands (R280). -/
def State.takeInput (s : State) : Option (Input × State) :=
  match s.inbox with
  | [] => none
  | x :: rest => some (x, { s with inbox := rest })

end Sys2Proof.Machine
end

