-- ==== Sys2Proof/Machine/Parameter.lean ====
section
/-! DEFINITION. 45_parameter_access.md: PSET and PGET, the C agent's commands. -/

namespace Sys2Proof.Machine

/-- PSET, general form (R220): the operand clamped and scaled, one atomic store; no datapath register is written. -/
def State.pset (s : State) (i : Fin 6) (x : Num) : State := s.quiet.parWrite i (unitOf s.num i x)

/-- PGET, general form (R228): one atomic load by the C agent, divided by the read-back scale. -/
def State.pget (s : State) (i : Fin 6) : State := s.quiet.result (normOf s.num i (s.par i))

/-- PSET.0 x, Osc1 Freq (R221). -/
def execPset0 (x : Num) (s : State) : Host.Outcome State Fault Refusal := .next (s.pset 0 x)

/-- PSET.1 x, Osc2 Freq (R222). -/
def execPset1 (x : Num) (s : State) : Host.Outcome State Fault Refusal := .next (s.pset 1 x)

/-- PSET.2 x, Filter Cutoff (R223). -/
def execPset2 (x : Num) (s : State) : Host.Outcome State Fault Refusal := .next (s.pset 2 x)

/-- PSET.3 x, Filter Resonance (R224). -/
def execPset3 (x : Num) (s : State) : Host.Outcome State Fault Refusal := .next (s.pset 3 x)

/-- PSET.4 x, LFO Freq (R225). -/
def execPset4 (x : Num) (s : State) : Host.Outcome State Fault Refusal := .next (s.pset 4 x)

/-- PSET.5 x, LFO Amount (R226). -/
def execPset5 (x : Num) (s : State) : Host.Outcome State Fault Refusal := .next (s.pset 5 x)

/-- PSET.RSVD x: no register is written and the operand is discarded (R227). -/
def execPsetRsvd (_idx : BitVec 3) (_x : Num) (s : State) : Host.Outcome State Fault Refusal := .next s.quiet

/-- PGET.0 (R229). -/
def execPget0 (s : State) : Host.Outcome State Fault Refusal := .next (s.pget 0)

/-- PGET.1 (R230). -/
def execPget1 (s : State) : Host.Outcome State Fault Refusal := .next (s.pget 1)

/-- PGET.2 (R231). -/
def execPget2 (s : State) : Host.Outcome State Fault Refusal := .next (s.pget 2)

/-- PGET.3 (R232). -/
def execPget3 (s : State) : Host.Outcome State Fault Refusal := .next (s.pget 3)

/-- PGET.4: read back by 10, not 20 (R233). -/
def execPget4 (s : State) : Host.Outcome State Fault Refusal := .next (s.pget 4)

/-- PGET.5 (R234). -/
def execPget5 (s : State) : Host.Outcome State Fault Refusal := .next (s.pget 5)

/-- PGET.RSVD: the result is 0 and no state is read (R235). -/
def execPgetRsvd (_idx : BitVec 3) (s : State) : Host.Outcome State Fault Refusal := .next (s.quiet.result (s.num.lit 0))

end Sys2Proof.Machine
end

