-- ==== Sys2Proof/Machine/Flags.lean ====
section
/-! DEFINITION. 10_state.md R41: there is no arithmetic flag and no condition code; the only flag-like state is the
gate and the envelope's stage. Here are the conditions on which the stage changes (41_envelope.md R142, R143, R145) and
the writes of the two, stated once. -/

namespace Sys2Proof.Machine

/-- Attack is over when the updated level is ≥ 1; then the level is 1 and the stage Decay (R142). -/
def Env.afterAttack (N : Numerics) (e : Env) (level : Num) : Env :=
  if N.ge level (N.lit 1) then { e with level := N.lit 1, stage := .decay } else { e with level := level }

/-- Decay is over when the updated level is ≤ the sustain level; then the level is that and the stage Sustain
(R143). -/
def Env.afterDecay (N : Numerics) (e : Env) (level : Num) : Env :=
  if N.le level e.sus then { e with level := e.sus, stage := .sustain } else { e with level := level }

/-- Release is over when the updated level is ≤ 0.001; then the level is 0 and the stage Idle (R145,
90_conflicts.md C3). -/
def Env.afterRelease (N : Numerics) (e : Env) (level : Num) : Env :=
  if N.le level (N.lit (1 / 1000)) then { e with level := N.lit 0, stage := .idle } else { e with level := level }

/-- ENV.TRIGGER's writes (R146). -/
def Env.trigger (N : Numerics) (e : Env) : Env := { e with stage := .attack, level := N.lit 0 }

/-- ENV.RELEASE's write: the level is not written (R147). -/
def Env.release (e : Env) : Env := { e with stage := .release }

/-- NOTE_ON's write of the gate; nothing but RESET clears it (10_state.md R35, 44_voice_engine.md R204). -/
def Ve.noteOn (data1 : Byte) : Ve := { note := data1, gate := true }

end Sys2Proof.Machine
end

