-- ==== Sys2Proof/Machine/Envelope.lean ====
section
/-! DEFINITION. 41_envelope.md: ENV.PROCESS and its five arms, ENV.TRIGGER, ENV.RELEASE, and the setters ENVSET. -/

namespace Sys2Proof.Machine

/-! ### The arms of ENV.PROCESS, on the envelope's registers -/

/-- ENV.PROCESS.IDLE: the level is forced to 0 (R141). -/
def Env.idleArm (N : Numerics) (e : Env) : Env := { e with level := N.lit 0 }

/-- ENV.PROCESS.ATTACK (R142). -/
def Env.attackArm (N : Numerics) (e : Env) : Env :=
  e.afterAttack N (N.add e.level (N.div (N.lit 1) (N.mul e.att e.sr)))

/-- ENV.PROCESS.DECAY (R143). -/
def Env.decayArm (N : Numerics) (e : Env) : Env :=
  e.afterDecay N (N.sub e.level (N.div (N.sub (N.lit 1) e.sus) (N.mul e.dec e.sr)))

/-- ENV.PROCESS.SUSTAIN: no write (R144). -/
def Env.sustainArm (e : Env) : Env := e

/-- ENV.PROCESS.RELEASE (R145). -/
def Env.releaseArm (N : Numerics) (e : Env) : Env :=
  e.afterRelease N (N.sub e.level (N.div e.level (N.mul e.rel e.sr)))

/-- ENV.PROCESS: the arm of the current stage and no other runs (R140). -/
def Env.process (N : Numerics) (e : Env) : Env :=
  match e.stage with
  | .idle => e.idleArm N
  | .attack => e.attackArm N
  | .decay => e.decayArm N
  | .sustain => e.sustainArm
  | .release => e.releaseArm N

/-- The numbers the arm of a stage divides by (R155). -/
def Env.divisorsOf (N : Numerics) (e : Env) : Stage → List Num
  | .attack => [N.mul e.att e.sr]
  | .decay => [N.mul e.dec e.sr]
  | .release => [N.mul e.rel e.sr]
  | .idle | .sustain => []

/-- An envelope's registers in place, and the level as it then stands returned (R140, 92_eei_decisions.md D14). -/
def State.envReturning (s : State) (e : Env) : Num × State := (e.level, s.setEnv e)

/-- ENV.PROCESS on the state. -/
def envProcess (s : State) : Num × State := s.envReturning (s.env.process s.num)

/-! ### Meanings -/

/-- ENV.PROCESS.IDLE (R141). -/
def execEnvProcessIdle (s : State) : Host.Outcome State Fault Refusal :=
  .next (State.returning (s.quiet.envReturning (s.env.idleArm s.num)))

/-- ENV.PROCESS.ATTACK (R142). -/
def execEnvProcessAttack (s : State) : Host.Outcome State Fault Refusal :=
  s.dividing (s.env.divisorsOf s.num .attack) (State.returning (s.quiet.envReturning (s.env.attackArm s.num)))

/-- ENV.PROCESS.DECAY (R143). -/
def execEnvProcessDecay (s : State) : Host.Outcome State Fault Refusal :=
  s.dividing (s.env.divisorsOf s.num .decay) (State.returning (s.quiet.envReturning (s.env.decayArm s.num)))

/-- ENV.PROCESS.SUSTAIN (R144). -/
def execEnvProcessSustain (s : State) : Host.Outcome State Fault Refusal :=
  .next (State.returning (s.quiet.envReturning s.env.sustainArm))

/-- ENV.PROCESS.RELEASE (R145). -/
def execEnvProcessRelease (s : State) : Host.Outcome State Fault Refusal :=
  s.dividing (s.env.divisorsOf s.num .release) (State.returning (s.quiet.envReturning (s.env.releaseArm s.num)))

/-- ENV.PROCESS (R140). -/
def execEnvProcess (s : State) : Host.Outcome State Fault Refusal :=
  s.dividing (s.env.divisorsOf s.num s.env.stage) (State.returning (envProcess s.quiet))

/-- ENV.TRIGGER (R146). -/
def execEnvTrigger (s : State) : Host.Outcome State Fault Refusal :=
  .next (s.quiet.setEnv (s.env.trigger s.num))

/-- ENV.RELEASE (R147). -/
def execEnvRelease (s : State) : Host.Outcome State Fault Refusal :=
  .next (s.quiet.setEnv s.env.release)

/-- ENVSET.A v: `ENV.ATT` takes the operand as given (R148). -/
def execEnvsetA (v : Num) (s : State) : Host.Outcome State Fault Refusal :=
  .next (s.quiet.setEnv { s.env with att := v })

/-- ENVSET.D v: `ENV.DEC` takes the operand as given (R149). -/
def execEnvsetD (v : Num) (s : State) : Host.Outcome State Fault Refusal :=
  .next (s.quiet.setEnv { s.env with dec := v })

/-- ENVSET.S v: `ENV.SUS` takes the operand unclamped (R150, 92_eei_decisions.md D36). -/
def execEnvsetS (v : Num) (s : State) : Host.Outcome State Fault Refusal :=
  .next (s.quiet.setEnv { s.env with sus := v })

/-- ENVSET.R v: `ENV.REL` takes the operand as given (R151). -/
def execEnvsetR (v : Num) (s : State) : Host.Outcome State Fault Refusal :=
  .next (s.quiet.setEnv { s.env with rel := v })

end Sys2Proof.Machine
end

