-- ==== Sys2Proof/Machine/Filter.lean ====
section
/-! DEFINITION. 42_filter.md: LPF.PROCESS. -/

namespace Sys2Proof.Machine

/-- The normalized cutoff c = 2π × CUTOFF / SR (R170); no clamp (R172). -/
def normalizedCutoff (N : Numerics) (cutoff sr : Num) : Num := N.div (N.mul N.twoPi cutoff) sr

/-- What the coefficient c / (1 + c) divides by (R170). -/
def onePlus (N : Numerics) (c : Num) : Num := N.add (N.lit 1) c

/-- The one-pole coefficient k = c / (1 + c) (R170). -/
def onePole (N : Numerics) (c : Num) : Num := N.div c (onePlus N c)

/-- One stage of the cascade: `x × k + y × (1 − k)` (R170). -/
def smooth (N : Numerics) (k x y : Num) : Num := N.add (N.mul x k) (N.mul y (N.sub (N.lit 1) k))

/-- The cascade for the input x and the coefficient k: the new registers (R170). `FILT.RES` is read into a local value
and used nowhere, so it does not appear (R171). The new Y1 is made from stage1 and the old Y2; the output is the new
Y2. -/
def Filt.cascade (N : Numerics) (f : Filt) (k x : Num) : Filt :=
  { f with
    y1 := smooth N k (smooth N k x f.y1) f.y2
    y2 := smooth N k x f.y1 }

/-- LPF.PROCESS(x) on the filter's registers (R170). -/
def Filt.process (N : Numerics) (f : Filt) (x sr : Num) : Filt :=
  f.cascade N (onePole N (normalizedCutoff N f.cutoff sr)) x

/-- The numbers LPF.PROCESS divides by (R170, R175). -/
def Filt.divisors (N : Numerics) (f : Filt) (sr : Num) : List Num := [sr, onePlus N (normalizedCutoff N f.cutoff sr)]

/-- LPF.PROCESS(x): the value returned is stage1, the new `FILT.Y2` (R170). -/
def lpfProcess (x : Num) (s : State) : Num × State :=
  ((s.filt.process s.num x s.cfg.sr).y2, s.setFilt (s.filt.process s.num x s.cfg.sr))

/-- LPF.PROCESS(x) (R170). -/
def execLpfProcess (x : Num) (s : State) : Host.Outcome State Fault Refusal :=
  s.dividing (s.filt.divisors s.num s.cfg.sr) (State.returning (lpfProcess x s.quiet))

end Sys2Proof.Machine
end

