-- ==== Sys2Proof/Machine/Oscillator.lean ====
section
/-! DEFINITION. 40_oscillator.md: the five waveforms, the phase accumulator and OSC.GEN. -/

namespace Sys2Proof.Machine

/-! ### The waveforms (R121 to R124), functions of the phase alone -/

/-- OSC.GEN.SINE(p) = sin(2π × p) (R121). -/
def sineWave (N : Numerics) (p : Num) : Num := sinTwoPi N p

/-- OSC.GEN.SAW(p) = 1 − 2 × p (R122). -/
def sawWave (N : Numerics) (p : Num) : Num := N.sub (N.lit 1) (N.mul (N.lit 2) p)

/-- OSC.GEN.SQUARE(p): strict comparison with 0.5 (R123). -/
def squareWave (N : Numerics) (p : Num) : Num := if N.lt p (N.lit (1 / 2)) then N.lit 1 else N.lit (-1)

/-- OSC.GEN.TRIANGLE(p) (R124). -/
def triangleWave (N : Numerics) (p : Num) : Num :=
  if N.lt p (N.lit (1 / 2)) then N.sub (N.mul (N.lit 4) p) (N.lit 1) else N.sub (N.lit 3) (N.mul (N.lit 4) p)

/-- The sample of a waveform at a phase, and the state after it: only Noise takes a draw (R120, R125). -/
def waveSample (w : Waveform) (p : Num) (s : State) : Num × State :=
  match w with
  | .sine => (sineWave s.num p, s)
  | .saw => (sawWave s.num p, s)
  | .square => (squareWave s.num p, s)
  | .triangle => (triangleWave s.num p, s)
  | .noise => s.drawNoise

/-! ### The phase accumulator (R126) -/

/-- The wrap: at most one subtraction of 1, no test for a negative phase (R126, R127). -/
def wrapOnce (N : Numerics) (q : Num) : Num := if N.ge q (N.lit 1) then N.sub q (N.lit 1) else q

/-- One advance of a phase (R126). -/
def advancePhase (N : Numerics) (ph freq sr : Num) : Num := wrapOnce N (N.add ph (N.div freq sr))

/-- OSC.ADVANCE(i) (R126). -/
def oscAdvance (i : Fin 5) (s : State) : State :=
  s.setOsc i { s.osc[i] with ph := advancePhase s.num s.osc[i].ph s.osc[i].freq s.cfg.sr }

/-- OSC.GEN(i): the sample of the phase before the advance, then the advance (R120). -/
def oscGen (i : Fin 5) (s : State) : Num × State :=
  ((waveSample s.osc[i].wave s.osc[i].ph s).1, oscAdvance i (waveSample s.osc[i].wave s.osc[i].ph s).2)

/-! ### Meanings -/

/-- OSC.GEN.SINE(p) (R121). -/
def execOscGenSine (p : Num) (s : State) : Host.Outcome State Fault Refusal :=
  .next (State.returning (waveSample .sine p s.quiet))

/-- OSC.GEN.SAW(p) (R122). -/
def execOscGenSaw (p : Num) (s : State) : Host.Outcome State Fault Refusal :=
  .next (State.returning (waveSample .saw p s.quiet))

/-- OSC.GEN.SQUARE(p) (R123). -/
def execOscGenSquare (p : Num) (s : State) : Host.Outcome State Fault Refusal :=
  .next (State.returning (waveSample .square p s.quiet))

/-- OSC.GEN.TRIANGLE(p) (R124). -/
def execOscGenTriangle (p : Num) (s : State) : Host.Outcome State Fault Refusal :=
  .next (State.returning (waveSample .triangle p s.quiet))

/-- OSC.GEN.NOISE() (R125): the value is the next draw; no phase is read. -/
def execOscGenNoise (s : State) : Host.Outcome State Fault Refusal :=
  .next (State.returning s.quiet.drawNoise)

/-- OSC.GEN(i) (R120). -/
def execOscGen (i : Fin 5) (s : State) : Host.Outcome State Fault Refusal :=
  s.dividing [s.cfg.sr] (State.returning (oscGen i s.quiet))

/-- OSC.ADVANCE(i) (R126): it returns nothing. -/
def execOscAdvance (i : Fin 5) (s : State) : Host.Outcome State Fault Refusal :=
  s.dividing [s.cfg.sr] (oscAdvance i s.quiet)

end Sys2Proof.Machine
end

