-- ==== Sys2Proof/Machine/Modulation.lean ====
section
/-! DEFINITION. 43_lfo.md: LFO.PROCESS. -/

namespace Sys2Proof.Machine

/-- LFO.PROCESS: the sine of the phase before the advance, and the oscillator's phase advance (R180). -/
def lfoProcess (s : State) : Num × State :=
  (sinTwoPi s.num s.lfo.ph, s.setLfo { s.lfo with ph := advancePhase s.num s.lfo.ph s.lfo.freq s.cfg.sr })

/-- LFO.PROCESS (R180). -/
def execLfoProcess (s : State) : Host.Outcome State Fault Refusal :=
  s.dividing [s.cfg.sr] (State.returning (lfoProcess s.quiet))

end Sys2Proof.Machine
end

