-- ==== Sys2Proof/Machine/Voice.lean ====
section
/-! DEFINITION. 44_voice_engine.md: the event commands and TICK; and RSVD (30_encoding.md R97). -/

namespace Sys2Proof.Machine

/-! ### TICK, step by step (R196 to R203) -/

/-- One oscillator's sample added to a running sum. -/
def addOsc (r : Num × State) (i : Fin 5) : Num × State := (r.2.num.add r.1 (oscGen i r.2).1, (oscGen i r.2).2)

/-- The five samples added from 0 in index order, each oscillator advanced (R196, R198). DEDUCED: the sum starts from 0,
as both rules say, where 92_eei_decisions.md D16 writes it without the 0 (log entry 15). -/
def sumBank (s : State) : Num × State := ([0, 1, 2, 3, 4] : List (Fin 5)).foldl addOsc (s.num.lit 0, s)

/-- Step 2: the sum of the samples, then scaled by 0.5 (R198). -/
def mixBank (s : State) : Num × State := (s.num.mul (sumBank s).1 (s.num.lit (1 / 2)), (sumBank s).2)

/-- Step 4, the latch: `LFO.FREQ <- ParRead(4)`, then `FILT.RES <- ParRead(3)` (R200). -/
def latchLfoFreq (s : State) : State := (s.parLoad 4).2.setLfo { s.lfo with freq := (s.parLoad 4).1 }

/-- Step 4, the latch of `FILT.RES` (R200). -/
def latchRes (s : State) : State := (s.parLoad 3).2.setFilt { s.filt with res := (s.parLoad 3).1 }

/-- Step 4, the modulated cutoff, clamped; the order of the arithmetic is the one written (R201). -/
def modulatedCutoff (N : Numerics) (p2 l p5 : Num) : Num :=
  clamp N (N.mul p2 (N.add (N.lit 1) (N.mul l p5))) (N.lit 20) (N.lit 20000)

/-- Step 4, the modulation: the loads of parameters 2 and 5, and the write of `FILT.CUTOFF` (R201). -/
def modulate (l : Num) (s : State) : State :=
  ((s.parLoad 2).2.parLoad 5).2.setFilt
    { s.filt with cutoff := modulatedCutoff s.num (s.parLoad 2).1 l ((s.parLoad 2).2.parLoad 5).1 }

/-- Step 4 whole: the latches, LFO.PROCESS, the modulation (R200, R201). -/
def stepFour (s : State) : State :=
  modulate (lfoProcess (latchRes (latchLfoFreq s))).1 (lfoProcess (latchRes (latchLfoFreq s))).2

/-- Steps 2 to 4 of a gated TICK (R196): the amplitude-scaled mix `a = m × e`, and the state with the cutoff that step 4
writes. -/
def beforeFilter (s : State) : Num × State :=
  (s.num.mul (mixBank s).1 (envProcess (mixBank s).2).1, stepFour (envProcess (mixBank s).2).2)

/-- Steps 2 to 6 of a gated TICK (R196): the filter, with the cutoff of this same TICK, and the frame. -/
def render (s : State) : State :=
  (lpfProcess (beforeFilter s).1 (beforeFilter s).2).2.audWrite (lpfProcess (beforeFilter s).1 (beforeFilter s).2).1

/-- The numbers a gated TICK divides by: the sample rate in the oscillators and the LFO, the divisor of the envelope's
arm, and the filter's two, at the cutoff of step 4 (93_implementation_defined.md U1). -/
def renderDivisors (s : State) : List Num :=
  s.cfg.sr :: s.env.divisorsOf s.num s.env.stage ++ (beforeFilter s).2.filt.divisors s.num s.cfg.sr

/-! ### Meanings -/

/-- TICK (R196): with the gate off a frame of zeros and nothing else (R197); else the render. -/
def execTick (s : State) : Host.Outcome State Fault Refusal :=
  if s.ve.gate then s.dividing (renderDivisors s.quiet) (render s.quiet) else .next (s.quiet.audWrite (s.num.lit 0))

/-- NOTE_OFF data1, data2: Release if the pitch is the current note; the gate is not written and data2 is not read
(R191). -/
def execNoteOff (data1 _data2 : Byte) (s : State) : Host.Outcome State Fault Refusal :=
  .next (if data1 = s.ve.note then s.quiet.setEnv s.env.release else s.quiet)

/-- NOTE_ON data1, data2: the note, the two tracking oscillators, the envelope's trigger and the gate (R192, R195);
data2 is not read (30_encoding.md R104). -/
def execNoteOn (data1 _data2 : Byte) (s : State) : Host.Outcome State Fault Refusal :=
  .next
    ((((s.quiet.setOsc 0 { s.osc[0] with freq := pitchToFreq s.num data1 }).setOsc 1
      { s.osc[1] with freq := s.num.mul (pitchToFreq s.num data1) (s.num.lit (101 / 100)) }).setEnv
        (s.env.trigger s.num)).setVe (Ve.noteOn data1))

/-- EVT_IGNORED: no write (R193). -/
def execEvtIgnored (_status _data1 _data2 : Byte) (s : State) : Host.Outcome State Fault Refusal :=
  .next s.quiet

/-- RSVD: no state change, no frame, no result (30_encoding.md R97). -/
def execRsvd (_port : Port) (_cls : BitVec 4) (s : State) : Host.Outcome State Fault Refusal :=
  .next s.quiet

end Sys2Proof.Machine
end

