-- ==== Sys2Proof/Machine/Dispatch.lean ====
section
/-! DEFINITION. The dispatch: one arm per constructor of `Instr`, each one direct call of the instruction's meaning. -/

namespace Sys2Proof.Machine

def exec (i : Instr) (s : State) : Host.Outcome State Fault Refusal :=
  match i with
  | .tick => Sys2Proof.Machine.execTick s
  | .noteOff data1 data2 => Sys2Proof.Machine.execNoteOff data1 data2 s
  | .noteOn data1 data2 => Sys2Proof.Machine.execNoteOn data1 data2 s
  | .evtIgnored status data1 data2 => Sys2Proof.Machine.execEvtIgnored status data1 data2 s
  | .envsetA v => Sys2Proof.Machine.execEnvsetA v s
  | .envsetD v => Sys2Proof.Machine.execEnvsetD v s
  | .envsetS v => Sys2Proof.Machine.execEnvsetS v s
  | .envsetR v => Sys2Proof.Machine.execEnvsetR v s
  | .pset0 x => Sys2Proof.Machine.execPset0 x s
  | .pset1 x => Sys2Proof.Machine.execPset1 x s
  | .pset2 x => Sys2Proof.Machine.execPset2 x s
  | .pset3 x => Sys2Proof.Machine.execPset3 x s
  | .pset4 x => Sys2Proof.Machine.execPset4 x s
  | .pset5 x => Sys2Proof.Machine.execPset5 x s
  | .psetRsvd idx x => Sys2Proof.Machine.execPsetRsvd idx x s
  | .pget0 => Sys2Proof.Machine.execPget0 s
  | .pget1 => Sys2Proof.Machine.execPget1 s
  | .pget2 => Sys2Proof.Machine.execPget2 s
  | .pget3 => Sys2Proof.Machine.execPget3 s
  | .pget4 => Sys2Proof.Machine.execPget4 s
  | .pget5 => Sys2Proof.Machine.execPget5 s
  | .pgetRsvd idx => Sys2Proof.Machine.execPgetRsvd idx s
  | .rsvd port cls => Sys2Proof.Machine.execRsvd port cls s
  | .oscGenSine p => Sys2Proof.Machine.execOscGenSine p s
  | .oscGenSaw p => Sys2Proof.Machine.execOscGenSaw p s
  | .oscGenSquare p => Sys2Proof.Machine.execOscGenSquare p s
  | .oscGenTriangle p => Sys2Proof.Machine.execOscGenTriangle p s
  | .oscGenNoise => Sys2Proof.Machine.execOscGenNoise s
  | .envProcessIdle => Sys2Proof.Machine.execEnvProcessIdle s
  | .envProcessAttack => Sys2Proof.Machine.execEnvProcessAttack s
  | .envProcessDecay => Sys2Proof.Machine.execEnvProcessDecay s
  | .envProcessSustain => Sys2Proof.Machine.execEnvProcessSustain s
  | .envProcessRelease => Sys2Proof.Machine.execEnvProcessRelease s
  | .oscGen n => Sys2Proof.Machine.execOscGen n s
  | .oscAdvance n => Sys2Proof.Machine.execOscAdvance n s
  | .envProcess => Sys2Proof.Machine.execEnvProcess s
  | .envTrigger => Sys2Proof.Machine.execEnvTrigger s
  | .envRelease => Sys2Proof.Machine.execEnvRelease s
  | .lpfProcess x => Sys2Proof.Machine.execLpfProcess x s
  | .lfoProcess => Sys2Proof.Machine.execLfoProcess s

end Sys2Proof.Machine
end

