-- ==== Sys2Proof/Machine/Step.lean ====
section
/-! DEFINITION. One step of the block: the next input is taken (10_state.md R40: there is no program counter and no
fetch; 20_memory.md R72: one command at a time, in the order issued). With no input the block waits
(70_reset_and_hazards.md R280): nothing changes and no port is driven. -/

namespace Sys2Proof.Machine

/-- One step: a command runs as `exec` of what it decodes to, on the state without it; a RESET re-establishes the
reset values. -/
def step (s : State) : Host.Outcome State Fault Refusal :=
  match s.takeInput with
  | none => .next s.quiet
  | some (.command c, t) => exec (decode c) t
  | some (.reset cfg, t) => .next (t.resetInput cfg)

/-- `s` with the command word of an opcode-table row handed to the block as its very next input, on the port that
accepts its class, with an operand word of zeros (log entry 7). A row that is no command word (a register code or a
micro-operation, 30_encoding.md R110) changes nothing. -/
def State.withFetchWord (s : State) (nbits w : Nat) : State :=
  if nbits = 32 then { s with inbox := .command (Command.ofWord (BitVec.ofNat 32 w)) :: s.inbox } else s

end Sys2Proof.Machine
end

