-- ==== Sys2Proof/Safety.lean ====
section
/-! DEFINITION. What claims about a run are stated in: the real number a term stands for in the ideal instantiation
(00_scope.md R8), the registers alone, the invariants of 10_state.md and 45_parameter_access.md, the well-formed settings
of 70_reset_and_hazards.md R282. Nothing the machine computes is defined here. -/

namespace Sys2Proof

/-- The real number a term stands for in the ideal instantiation. A reciprocal is taken at an enclosure that leaves out
0; a term whose enclosure does not is no reciprocal the ideal record makes, and stands for 0. -/
noncomputable def Num.val : Num → ℝ
  | .rat q => (q : ℝ)
  | .named i => ∑' k, (namedTerm i k : ℝ)
  | .twoPi => 2 * Real.pi
  | .add a b => a.val + b.val
  | .neg a => -a.val
  | .mul a b => a.val * b.val
  | .inv a n => if (a.ball n).any Ball.apart then a.val⁻¹ else 0
  | .sin a => Real.sin a.val
  | .exp2 a => (2 : ℝ) ^ a.val

namespace Machine

/-- The ideal instantiation: exact real arithmetic (00_scope.md R8). -/
abbrev State.Ideal (s : State) : Prop := s.cfg.num = .ideal

/-- The registers of 10_state.md R20, without the model's own fields. -/
structure Registers where
  osc : Vector Osc 5
  env : Env
  filt : Filt
  lfo : Lfo
  ve : Ve
  ps : Vector ParLoc 6
  deriving DecidableEq, Repr

/-- The registers a state holds. -/
def State.registers (s : State) : Registers :=
  { osc := s.osc, env := s.env, filt := s.filt, lfo := s.lfo, ve := s.ve, ps := s.ps }

/-- The values the loads of a location may still return, oldest first (20_memory.md R70). -/
def ParLoc.values (l : ParLoc) : List Num := l.seen :: l.later

/-- Every value a load of a parameter may return lies in its legal range (10_state.md R37, R237). -/
def State.StoreInRange (s : State) : Prop :=
  ∀ i : Fin 6, ∀ v ∈ s.ps[i].values, 0 ≤ v.val ∧ v.val ≤ scale i

/-- `20 ≤ FILT.CUTOFF ≤ 20000` (42_filter.md R172). -/
def State.CutoffInRange (s : State) : Prop := 20 ≤ s.filt.cutoff.val ∧ s.filt.cutoff.val ≤ 20000

/-- The latched parameters lie in the ranges of the parameters they are loaded from: `LFO.FREQ` in [0, 20] and
`FILT.RES` in [0, 1] (43_lfo.md R183, 90_conflicts.md C12). -/
def State.LatchesInRange (s : State) : Prop :=
  (0 ≤ s.lfo.freq.val ∧ s.lfo.freq.val ≤ 20) ∧ 0 ≤ s.filt.res.val ∧ s.filt.res.val ≤ 1

/-- The registers no command writes hold their reset values: `ENV.SR` (10_state.md R28), the waveforms (R23) and the
frequencies of oscillators 2, 3 and 4 (R22, 44_voice_engine.md R195). -/
def State.ConstantsHeld (s : State) : Prop :=
  s.env.sr = s.cfg.sr ∧ (∀ i : Fin 5, s.osc[i].wave = s.cfg.wave0[i]) ∧
    ∀ i : Fin 5, 2 ≤ i.val → s.osc[i].freq = s.num.lit 440

/-- The configuration is legal (00_scope.md R7), and so is that of every RESET still to come. -/
def State.ConfigsLegal (s : State) : Prop := s.cfg.Legal ∧ ∀ c, Input.reset c ∈ s.inbox → c.Legal

/-- The machine's invariant: what every step keeps. The ranges are those of real numbers, so they are claimed of the
ideal instantiation. -/
def State.Inv (s : State) : Prop :=
  s.ConfigsLegal ∧ s.ConstantsHeld ∧ (s.Ideal → s.StoreInRange ∧ s.CutoffInRange ∧ s.LatchesInRange)

/-- A phase within its turn. -/
abbrev InTurn (p : Num) : Prop := 0 ≤ p.val ∧ p.val < 1

/-- A frequency at which the single wrap suffices: `0 ≤ freq / sampleRate < 1` (40_oscillator.md R128). -/
abbrev RateOk (freq sr : Num) : Prop := 0 < sr.val ∧ 0 ≤ freq.val ∧ freq.val < sr.val

/-- Every oscillator's phase is within its turn, and its frequency one at which it stays there. -/
def State.PhasesInTurn (s : State) : Prop := ∀ i : Fin 5, InTurn s.osc[i].ph ∧ RateOk s.osc[i].freq s.cfg.sr

/-- The settings under which the level stays in [0,1] (41_envelope.md R154). -/
def Env.WellSet (e : Env) : Prop :=
  0 < e.att.val ∧ 0 < e.dec.val ∧ 0 < e.sr.val ∧ 0 ≤ e.sus.val ∧ e.sus.val ≤ 1 ∧ 1 ≤ e.rel.val * e.sr.val

/-- The level in [0,1] (10_state.md R27). -/
def Env.LevelInUnit (e : Env) : Prop := 0 ≤ e.level.val ∧ e.level.val ≤ 1

/-! ### The closed form of one TICK's samples -/

/-- One oscillator's registers after its advance: the phase moves, nothing else. -/
def Osc.advance (N : Numerics) (o : Osc) (sr : Num) : Osc := { o with ph := advancePhase N o.ph o.freq sr }

/-- How many draws a sample of a waveform takes (R125). -/
def drawsOf : Waveform → Nat
  | .noise => 1
  | .sine | .saw | .square | .triangle => 0

/-- The sample of a waveform with the number of draws taken before it. -/
def sampleAt (N : Numerics) (w : Waveform) (p : Num) (draws : Nat) : Num :=
  match w with
  | .sine => sineWave N p
  | .saw => sawWave N p
  | .square => squareWave N p
  | .triangle => triangleWave N p
  | .noise => noiseDraw N draws

/-- How many draws the oscillators before number n take in one TICK. -/
def drawsBefore (osc : Vector Osc 5) (n : Nat) : Nat :=
  ((osc.toList.take n).map fun o => drawsOf o.wave).sum

/-- The mix of TICK step 2 from the bank before it and the draws consumed so far: the five samples added to 0 in index
order, then scaled by 0.5 (44_voice_engine.md R198; from 0: log entry 15). -/
def mixOf (N : Numerics) (osc : Vector Osc 5) (draws : Nat) : Num :=
  let sample (i : Fin 5) : Num := sampleAt N osc[i].wave osc[i].ph (draws + drawsBefore osc i)
  N.mul (N.add (N.add (N.add (N.add (N.add (N.lit 0) (sample 0)) (sample 1)) (sample 2)) (sample 3)) (sample 4))
    (N.lit (1 / 2))

/-! ### Division -/

/-- The numbers an instruction divides by in a state (93_implementation_defined.md U1). The division of PGET, and that of
NOTE_ON's pitch mapping, are by a literal other than 0. -/
def divisors : Instr → State → List Num
  | .tick, s => if s.ve.gate then renderDivisors s.quiet else []
  | .oscGen _, s | .oscAdvance _, s | .lfoProcess, s => [s.cfg.sr]
  | .envProcess, s => s.env.divisorsOf s.num s.env.stage
  | .envProcessAttack, s => s.env.divisorsOf s.num .attack
  | .envProcessDecay, s => s.env.divisorsOf s.num .decay
  | .envProcessRelease, s => s.env.divisorsOf s.num .release
  | .lpfProcess _, s => s.filt.divisors s.num s.cfg.sr
  | .noteOff _ _, _ | .noteOn _ _, _ | .evtIgnored _ _ _, _ => []
  | .envsetA _, _ | .envsetD _, _ | .envsetS _, _ | .envsetR _, _ => []
  | .pset0 _, _ | .pset1 _, _ | .pset2 _, _ | .pset3 _, _ | .pset4 _, _ | .pset5 _, _ | .psetRsvd _ _, _ => []
  | .pget0, _ | .pget1, _ | .pget2, _ | .pget3, _ | .pget4, _ | .pget5, _ | .pgetRsvd _, _ => []
  | .rsvd _ _, _ => []
  | .oscGenSine _, _ | .oscGenSaw _, _ | .oscGenSquare _, _ | .oscGenTriangle _, _ | .oscGenNoise, _ => []
  | .envProcessIdle, _ | .envProcessSustain, _ | .envTrigger, _ | .envRelease, _ => []

/-- The product the current stage's arm divides by is not 0 (41_envelope.md R155). -/
def Env.ArmDivides (e : Env) : Prop :=
  (e.stage = .attack → e.att.val * e.sr.val ≠ 0) ∧ (e.stage = .decay → e.dec.val * e.sr.val ≠ 0) ∧
    (e.stage = .release → e.rel.val * e.sr.val ≠ 0)

/-- In the ideal instantiation none of the numbers an instruction divides by is 0. -/
def Divides (i : Instr) (s : State) : Prop := s.Ideal → ∀ d ∈ divisors i s, d.val ≠ 0

/-! ### Running instructions one after another -/

/-- `n` runs of one instruction, each on the state the last one left. -/
def execTimes (i : Instr) : Nat → State → Host.Outcome State Fault Refusal
  | 0, s => .next s
  | n + 1, s =>
    match exec i s with
    | .next t => execTimes i n t
    | .fault r => .fault r
    | .refused r => .refused r

/-- A list of instructions, each on the state the one before it left. -/
def execAll : List Instr → State → Host.Outcome State Fault Refusal
  | [], s => .next s
  | i :: is, s =>
    match exec i s with
    | .next t => execAll is t
    | .fault r => .fault r
    | .refused r => .refused r

end Machine

end Sys2Proof
end

