-- ==== Sys2Proof/Certificates/Slice0/Obligations.lean ====
section
/-! DEFINITION. The statements about the voice core, from the numbered rules of spec/ (and, where a rule rests on the
spec's own decision or derivation or on an entry of the assumption log, from the section that holds it). An equation
stands for every instantiation of the numerics record, `s.num` being the record of the state; what is said of real
numbers (`Num.val`) is said of the ideal instantiation, `s.Ideal` (00_scope.md R8), whose record is exact
(`Obligations.IdealRecordIsExact`). -/

open Sys2Proof Sys2Proof.Machine

/-! ### Reset and the host's inputs -/

/-- 10_state.md R44: the two reset values the source states, in every configuration and at `State.reset`. -/
def Obligations.ResetValuesOfTheSource : Prop :=
  (∀ c : Cfg, (∀ i : Fin 5, (State.resetWith c).osc[i].freq = c.num.record.lit 440) ∧
    (c.num = .ideal → ∀ i : Fin 5, (State.resetWith c).osc[i].freq.val = 440) ∧ (State.resetWith c).ve.gate = false) ∧
  (∀ i : Fin 5, State.reset.osc[i].freq = State.reset.num.lit 440) ∧ State.reset.ve.gate = false

/-- 10_state.md section 9: the reset values the spec itself chose (decision D18) or left as parameters (D19); the
model's own fields are not spoken of. Two clauses are the model's choice and no decision of the spec: that a location
may be loaded as nothing but its reset value (log entry 5), and that `State.reset` is this state in some legal
configuration (log entry 3), legal as 00_scope.md section 4 says (0 < SR, NCH ≥ 1 and the other ranges). The `>` of clamp
and of those ranges, in an instantiation other than the ideal one, is log entry 15's (DESIGN CHOICE). -/
def Obligations.ResetValuesOfTheSpec : Prop :=
  (∀ c : Cfg, let N := c.num.record
    (∀ i : Fin 5, (State.resetWith c).osc[i].ph = N.lit 0 ∧ (State.resetWith c).osc[i].wave = c.wave0[i]) ∧
    (State.resetWith c).env =
      { att := c.att0, dec := c.dec0, sus := c.sus0, rel := c.rel0, stage := .idle, level := N.lit 0, sr := c.sr } ∧
    (State.resetWith c).filt =
      { cutoff := clamp N c.p0[2] (N.lit 20) (N.lit 20000), res := c.p0[3], y1 := N.lit 0, y2 := N.lit 0 } ∧
    (State.resetWith c).lfo = { ph := N.lit 0, freq := c.p0[4] } ∧ (State.resetWith c).ve.note = 0 ∧
    (∀ i : Fin 6, (State.resetWith c).ps[i].values = [c.p0[i]] ∧ (State.resetWith c).par i = c.p0[i])) ∧
  State.reset = State.resetWith Config.cfg ∧ Config.cfg.Legal ∧
  ∀ c : Cfg, c.num = .ideal → (c.Legal ↔
    0 < c.sr.val ∧ 1 ≤ c.nch ∧ 0 < c.att0.val ∧ 0 < c.dec0.val ∧ 0 < c.rel0.val ∧
      (0 ≤ c.sus0.val ∧ c.sus0.val ≤ 1) ∧ ∀ i : Fin 6, 0 ≤ c.p0[i].val ∧ c.p0[i].val ≤ scale i)

/-- The invariant holds after a reset into any legal configuration, and at `State.reset`. -/
def Obligations.InvariantAtReset : Prop :=
  (∀ c : Cfg, c.Legal → (State.resetWith c).Inv) ∧ State.reset.Inv

/-- 70_reset_and_hazards.md section 1: RESET as a step (log entry 8): every register at its reset value, the inputs not
yet taken kept. And with nothing handed to it the block waits: nothing changes. -/
def Obligations.ResetInputAndWaiting : Prop :=
  (∀ (s : State) (c : Cfg) (rest : List Input), s.inbox = .reset c :: rest →
    ∃ t, step s = .next t ∧ t.registers = (State.resetWith c).registers ∧ t.cfg = c ∧ t.inbox = rest ∧
      t.out = Ports.none) ∧
  ∀ s : State, s.inbox = [] → step s = .next { s with out := { aud := none, rw := none, ret := none } }

/-- A step runs the decoded command: it takes the command from the inputs and is `exec` of what the command decodes to;
and a word of the opcode table placed with `withFetchWord` is the very next command to run. -/
def Obligations.StepRunsTheDecodedCommand : Prop :=
  (∀ (s : State) (c : Command) (rest : List Input), s.inbox = .command c :: rest →
    step s = exec (decode c) { s with inbox := rest }) ∧
  ∀ (s : State) (w : BitVec 32),
    decodeTableWord 32 w.toNat = some (decode (Command.ofWord w)) ∧
    step (s.withFetchWord 32 w.toNat) = exec (decode (Command.ofWord w)) s

/-! ### Numbers -/

/-- 00_scope.md section 4 (decisions D1, D2): in the ideal instantiation every field of the numerics record is the exact
mathematical function, the division where the divisor is not 0. -/
def Obligations.IdealRecordIsExact : Prop :=
  let N := NumSystem.ideal.record
  (∀ a b : Sys2Proof.Num,
    (N.add a b).val = a.val + b.val ∧ (N.sub a b).val = a.val - b.val ∧ (N.mul a b).val = a.val * b.val ∧
    (b.val ≠ 0 → (N.div a b).val = a.val / b.val) ∧
    (N.lt a b = true ↔ a.val < b.val) ∧ (N.le a b = true ↔ a.val ≤ b.val) ∧ (N.ge a b = true ↔ b.val ≤ a.val) ∧
    (N.eq a b = true ↔ a.val = b.val)) ∧
  (∀ z : ℤ, (N.ofInt z).val = z) ∧ (∀ q : ℚ, (N.lit q).val = q) ∧ N.twoPi.val = 2 * Real.pi ∧
  ∀ a : Sys2Proof.Num, (N.sin a).val = Real.sin a.val ∧ (N.exp2 a).val = (2 : ℝ) ^ a.val

/-! ### Encoding -/

/-- 95_test_vectors.md section 2.9 (V-X1 to V-X6) and V-N2: words written out from the spec. -/
def Obligations.WordsOfTheSpecDecode : Prop :=
  decode { port := .r, cw := 0x10904564, dw := .rat 0 } = .noteOn 69 100 ∧
  decode { port := .r, cw := 0x10803C00, dw := .rat 0 } = .noteOff 60 0 ∧
  decode { port := .r, cw := 0x10914564, dw := .rat 0 } = .evtIgnored 145 69 100 ∧
  decode { port := .r, cw := 0x20000002, dw := .rat (1 / 2) } = .envsetS (.rat (1 / 2)) ∧
  decode { port := .c, cw := 0x30000004, dw := .rat (1 / 4) } = .pset4 (.rat (1 / 4)) ∧
  decode { port := .c, cw := 0x40000005, dw := .rat 0 } = .pget5 ∧
  decode { port := .r, cw := 0x0FFFFFFF, dw := .rat 0 } = .tick ∧
  decode { port := .r, cw := 0x2ABCDEF1, dw := .rat 3 } = .envsetD (.rat 3) ∧
  decode { port := .c, cw := 0x3FFFFFF2, dw := .rat 3 } = .pset2 (.rat 3) ∧
  decode { port := .c, cw := 0xFFFFFFFF, dw := .rat 0 } = .rsvd .c 15 ∧
  decode { port := .r, cw := 0x30000002, dw := .rat 0 } = .rsvd .r 3 ∧
  decode { port := .c, cw := 0x40000007, dw := .rat 0 } = .pgetRsvd 7

/-- 30_encoding.md R109: how a command word is decoded, step by step, for every word and operand on either port. -/
def Obligations.DecodingOfACommandWord : Prop :=
  ∀ (p : Port) (cw : BitVec 32) (dw : Sys2Proof.Num),
    let cls := cw.extractLsb' 28 4
    let d := decode { port := p, cw := cw, dw := dw }
    (((p = .r ∧ cls ≠ 0 ∧ cls ≠ 1 ∧ cls ≠ 2) ∨ (p = .c ∧ cls ≠ 3 ∧ cls ≠ 4)) → d = .rsvd p cls) ∧
    (p = .r → cls = 0 → d = .tick) ∧
    (p = .r → cls = 1 → d =
      if cw.extractLsb' 16 8 = 0x80 then .noteOff (cw.extractLsb' 8 8) (cw.extractLsb' 0 8)
      else if cw.extractLsb' 16 8 = 0x90 then .noteOn (cw.extractLsb' 8 8) (cw.extractLsb' 0 8)
      else .evtIgnored (cw.extractLsb' 16 8) (cw.extractLsb' 8 8) (cw.extractLsb' 0 8)) ∧
    (p = .r → cls = 2 →
      (cw.extractLsb' 0 2 = 0 → d = .envsetA dw) ∧ (cw.extractLsb' 0 2 = 1 → d = .envsetD dw) ∧
      (cw.extractLsb' 0 2 = 2 → d = .envsetS dw) ∧ (cw.extractLsb' 0 2 = 3 → d = .envsetR dw)) ∧
    (p = .c → cls = 3 →
      (cw.extractLsb' 0 3 = 0 → d = .pset0 dw) ∧ (cw.extractLsb' 0 3 = 1 → d = .pset1 dw) ∧
      (cw.extractLsb' 0 3 = 2 → d = .pset2 dw) ∧ (cw.extractLsb' 0 3 = 3 → d = .pset3 dw) ∧
      (cw.extractLsb' 0 3 = 4 → d = .pset4 dw) ∧ (cw.extractLsb' 0 3 = 5 → d = .pset5 dw) ∧
      (cw.extractLsb' 0 3 = 6 → d = .psetRsvd 6 dw) ∧ (cw.extractLsb' 0 3 = 7 → d = .psetRsvd 7 dw)) ∧
    (p = .c → cls = 4 →
      (cw.extractLsb' 0 3 = 0 → d = .pget0) ∧ (cw.extractLsb' 0 3 = 1 → d = .pget1) ∧
      (cw.extractLsb' 0 3 = 2 → d = .pget2) ∧ (cw.extractLsb' 0 3 = 3 → d = .pget3) ∧
      (cw.extractLsb' 0 3 = 4 → d = .pget4) ∧ (cw.extractLsb' 0 3 = 5 → d = .pget5) ∧
      (cw.extractLsb' 0 3 = 6 → d = .pgetRsvd 6) ∧ (cw.extractLsb' 0 3 = 7 → d = .pgetRsvd 7))

/-- 30_encoding.md sections 2, 3 and 6: every command, with every operand its row admits, is issued as a command that
decodes to it; a micro-operation is issued as none. And the codes of the two registers: `WAVE3` (R98) and `STAGE3` (R99)
0 to 4 are the five waveforms and the five stages, the code of each gives it back, and 5 to 7 are refused by name
(40_oscillator.md R130, 41_envelope.md R156). -/
def Obligations.DecodeOfEncodeIsTheInstruction : Prop :=
  (∀ i : Instr, i.wellFormed = true →
    (i.isCommand = true → ∃ c, encode i = some c ∧ decode c = i) ∧ (i.isCommand = false → encode i = none)) ∧
  (Waveform.ofCode 0 = .ok .sine ∧ Waveform.ofCode 1 = .ok .saw ∧ Waveform.ofCode 2 = .ok .square ∧
    Waveform.ofCode 3 = .ok .triangle ∧ Waveform.ofCode 4 = .ok .noise ∧
    (∀ w : Waveform, Waveform.ofCode w.code = .ok w) ∧
    ∀ b : BitVec 3, 5 ≤ b.toNat → Waveform.ofCode b = .error (.reservedWave b)) ∧
  Stage.ofCode 0 = .ok .idle ∧ Stage.ofCode 1 = .ok .attack ∧ Stage.ofCode 2 = .ok .decay ∧
    Stage.ofCode 3 = .ok .sustain ∧ Stage.ofCode 4 = .ok .release ∧
    (∀ e : Stage, Stage.ofCode e.code = .ok e) ∧
    ∀ b : BitVec 3, 5 ≤ b.toNat → Stage.ofCode b = .error (.reservedStage b)

/-- 30_encoding.md section 6: decoding is total, and what it gives is a well-formed command, never a micro-operation. -/
def Obligations.DecodedCommandsAreWellFormed : Prop :=
  ∀ c : Command, (decode c).wellFormed = true ∧ (decode c).isCommand = true

/-- 30_encoding.md sections 2 and 5: a command is decoded from the fields its class names alone; every other bit of the
word, and the operand of a class that has none, may be anything. -/
def Obligations.UnnamedBitsAreIgnored : Prop :=
  ∀ (p : Port) (cw cw' : BitVec 32) (dw dw' : Sys2Proof.Num),
    cw.extractLsb' 28 4 = cw'.extractLsb' 28 4 →
    (cw.extractLsb' 28 4 = 1 → cw.extractLsb' 0 24 = cw'.extractLsb' 0 24) →
    (cw.extractLsb' 28 4 = 2 → cw.extractLsb' 0 2 = cw'.extractLsb' 0 2 ∧ dw = dw') →
    (cw.extractLsb' 28 4 = 3 → cw.extractLsb' 0 3 = cw'.extractLsb' 0 3 ∧ dw = dw') →
    (cw.extractLsb' 28 4 = 4 → cw.extractLsb' 0 3 = cw'.extractLsb' 0 3) →
    decode { port := p, cw := cw, dw := dw } = decode { port := p, cw := cw', dw := dw' }

/-- 30_encoding.md section 2 (decisions D9, D11): the R port accepts the classes 0, 1, 2 and the C port 3 and 4; any
other class on a port is RSVD, and RSVD changes nothing and drives no port. -/
def Obligations.UnacceptedClassIsNoOperation : Prop :=
  (∀ (p : Port) (cls : BitVec 4),
    p.accepts cls = true ↔
      (p = .r ∧ (cls = 0 ∨ cls = 1 ∨ cls = 2)) ∨ (p = .c ∧ (cls = 3 ∨ cls = 4))) ∧
  (∀ c : Command, c.port.accepts (c.cw.extractLsb' 28 4) = false →
    decode c = .rsvd c.port (c.cw.extractLsb' 28 4)) ∧
  ∀ (p : Port) (cls : BitVec 4) (s : State),
    exec (.rsvd p cls) s = .next { s with out := { aud := none, rw := none, ret := none } }

/-- 44_voice_engine.md R190: an event is decoded by its whole status byte; it writes no frame and loads no parameter. -/
def Obligations.EventDecodedByStatus : Prop :=
  ∀ (cw : BitVec 32) (dw : Sys2Proof.Num), cw.extractLsb' 28 4 = 1 →
    decode { port := .r, cw := cw, dw := dw } =
      (if cw.extractLsb' 16 8 = 128 then .noteOff (cw.extractLsb' 8 8) (cw.extractLsb' 0 8)
       else if cw.extractLsb' 16 8 = 144 then .noteOn (cw.extractLsb' 8 8) (cw.extractLsb' 0 8)
       else .evtIgnored (cw.extractLsb' 16 8) (cw.extractLsb' 8 8) (cw.extractLsb' 0 8)) ∧
    ∀ s : State, ∃ t, exec (decode { port := .r, cw := cw, dw := dw }) s = .next t ∧ t.out.aud = none ∧
      t.ps = s.ps ∧ t.loads = s.loads

/-! ### Note events -/

/-- 44_voice_engine.md R192: NOTE_ON writes the note, the frequencies of oscillators 0 and 1, the envelope's stage and
level, and the gate; every other register is unchanged and `data2` is not read. -/
def Obligations.NoteOnEffect : Prop :=
  ∀ (s : State) (d1 d2 : Byte),
    let N := s.num
    exec (.noteOn d1 d2) s = .next
      { s with
        osc := (s.osc.set 0 { s.osc[0] with freq := pitchToFreq N d1 }).set 1
          { s.osc[1] with freq := N.mul (pitchToFreq N d1) (N.lit (101 / 100)) }
        env := { s.env with stage := .attack, level := N.lit 0 }
        ve := { note := d1, gate := true }
        out := { aud := none, rw := none, ret := none } } ∧
    (s.Ideal → (pitchToFreq N d1).val = 440 * (2 : ℝ) ^ (((d1.toNat : ℝ) - 69) / 12) ∧
      (N.mul (pitchToFreq N d1) (N.lit (101 / 100))).val =
        440 * (2 : ℝ) ^ (((d1.toNat : ℝ) - 69) / 12) * (101 / 100))

/-- 44_voice_engine.md R191: NOTE_OFF of the current note puts the envelope into Release, at the level it has and with
the gate as it was; of another note it changes nothing. -/
def Obligations.NoteOffEffect : Prop :=
  ∀ (s : State) (d1 d2 : Byte),
    (d1 = s.ve.note → exec (.noteOff d1 d2) s = .next
      { s with
        env := { s.env with stage := .release }
        out := { aud := none, rw := none, ret := none } }) ∧
    (d1 ≠ s.ve.note → exec (.noteOff d1 d2) s = .next { s with out := { aud := none, rw := none, ret := none } })

/-- 44_voice_engine.md R193: any other event changes no register. -/
def Obligations.OtherEventsAreIgnored : Prop :=
  ∀ (s : State) (status d1 d2 : Byte),
    exec (.evtIgnored status d1 d2) s = .next { s with out := { aud := none, rw := none, ret := none } }

/-- 70_reset_and_hazards.md R291: the last note wins and there is no stack. After NOTE_ON a and NOTE_ON b, with b another
note, a NOTE_OFF a leaves every register as it is and a NOTE_OFF b puts the envelope into Release and nothing else. -/
def Obligations.LastNoteWins : Prop :=
  ∀ (s : State) (a b v w x : Byte), a ≠ b →
    ∃ t u, exec (.noteOn a v) s = .next t ∧ exec (.noteOn b w) t = .next u ∧ u.ve.note = b ∧
      (∃ n, exec (.noteOff a x) u = .next n ∧ n.registers = u.registers) ∧
      ∃ n, exec (.noteOff b x) u = .next n ∧
        n.registers = { u.registers with env := { u.env with stage := .release } }

/-- 44_voice_engine.md section 1 (R194) and 30_encoding.md section 4 (R100): the pitch mapping in every instantiation, the
byte unsigned and the division one of numbers; in the ideal one it is 440 × 2^((pitch − 69)/12) exactly, 440 at pitch 69
and 440 × 2^j at pitch 69 + 12 j. That another instantiation divides by `ofInt(12)`, as R100 says, and not by `lit(12)`, as
R194's plain 12 would be read, is log entry 15's (DEDUCED). -/
def Obligations.PitchMapping : Prop :=
  (∀ (N : Numerics) (d : Byte),
    pitchToFreq N d = N.mul (N.lit 440) (N.exp2 (N.div (N.ofInt ((d.toNat : ℤ) - 69)) (N.ofInt 12)))) ∧
  let N := NumSystem.ideal.record
  (∀ d : Byte, (pitchToFreq N d).val = 440 * (2 : ℝ) ^ (((d.toNat : ℝ) - 69) / 12)) ∧
  (pitchToFreq N 69).val = 440 ∧
  ∀ (d : Byte) (j : ℤ), (d.toNat : ℤ) = 69 + 12 * j → (pitchToFreq N d).val = 440 * (2 : ℝ) ^ j

/-! ### Oscillators -/

/-- 40_oscillator.md R122, R123, R124: Saw, Square and Triangle at any phase, and their ranges over a turn. -/
def Obligations.SawSquareTriangleFormulas : Prop :=
  ∀ (s : State) (p : Sys2Proof.Num),
    let N := s.num
    let saw := N.sub (N.lit 1) (N.mul (N.lit 2) p)
    let square := if N.lt p (N.lit (1 / 2)) then N.lit 1 else N.lit (-1)
    let triangle := if N.lt p (N.lit (1 / 2)) then N.sub (N.mul (N.lit 4) p) (N.lit 1)
      else N.sub (N.lit 3) (N.mul (N.lit 4) p)
    exec (.oscGenSaw p) s = .next { s with out := { aud := none, rw := none, ret := some saw } } ∧
    exec (.oscGenSquare p) s = .next { s with out := { aud := none, rw := none, ret := some square } } ∧
    exec (.oscGenTriangle p) s = .next { s with out := { aud := none, rw := none, ret := some triangle } } ∧
    (s.Ideal → saw.val = 1 - 2 * p.val ∧ square.val = (if p.val < 1 / 2 then 1 else -1) ∧
      triangle.val = (if p.val < 1 / 2 then 4 * p.val - 1 else 3 - 4 * p.val) ∧
      (InTurn p → (-1 < saw.val ∧ saw.val ≤ 1) ∧ (square.val = -1 ∨ square.val = 1) ∧
        -1 ≤ triangle.val ∧ triangle.val ≤ 1))

/-- 40_oscillator.md R121: Sine, as written in every instantiation; in the ideal one exactly the sine of 2π times the
phase, in [−1, 1], 0, 1, 0, −1 at the quarters of the turn, and periodic. -/
def Obligations.SineWave : Prop :=
  ∀ (s : State) (p : Sys2Proof.Num),
    let v (q : Sys2Proof.Num) := s.num.sin (s.num.mul s.num.twoPi q)
    exec (.oscGenSine p) s = .next { s with out := { aud := none, rw := none, ret := some (v p) } } ∧
    (s.Ideal → (v p).val = Real.sin (2 * Real.pi * p.val) ∧ -1 ≤ (v p).val ∧ (v p).val ≤ 1 ∧
      (p.val = 0 → (v p).val = 0) ∧ (p.val = 1 / 4 → (v p).val = 1) ∧ (p.val = 1 / 2 → (v p).val = 0) ∧
      (p.val = 3 / 4 → (v p).val = -1) ∧
      ∀ (q : Sys2Proof.Num) (k : ℤ), q.val = p.val + k → (v q).val = (v p).val)

/-- 40_oscillator.md section 2 (decision D3): Noise returns a draw in [−1, 1), by the order of the state's record (if that
puts 0 there), so in the ideal instantiation as real numbers; no register changes. The statement holds for every value of
the draw (log entry 4). -/
def Obligations.NoiseReturnsADraw : Prop :=
  ∀ s : State, ∃ u : Sys2Proof.Num,
    exec .oscGenNoise s = .next
      { s with draws := s.draws + 1, out := { aud := none, rw := none, ret := some u } } ∧
    (let N := s.num
     N.le (N.lit (-1)) (N.lit 0) = true → N.lt (N.lit 0) (N.lit 1) = true →
       N.le (N.lit (-1)) u = true ∧ N.lt u (N.lit 1) = true) ∧
    (s.Ideal → -1 ≤ u.val ∧ u.val < 1)

/-- 40_oscillator.md R126: one comparison and at most one subtraction; only the phase of oscillator i changes. (At a
sample rate of 0 the ideal instantiation has no quotient: `Obligations.ZeroDivisorIsRefused`.) -/
def Obligations.OscAdvanceWrapsOnce : Prop :=
  ∀ (s : State) (i : Fin 5), (s.Ideal → s.cfg.sr.val ≠ 0) →
    let N := s.num
    let q := N.add s.osc[i].ph (N.div s.osc[i].freq s.cfg.sr)
    exec (.oscAdvance i) s = .next
      { s with
        osc := s.osc.set i { s.osc[i] with ph := if N.ge q (N.lit 1) then N.sub q (N.lit 1) else q }
        out := { aud := none, rw := none, ret := none } } ∧
    (s.Ideal → q.val = s.osc[i].ph.val + s.osc[i].freq.val / s.cfg.sr.val ∧ (N.ge q (N.lit 1) = true ↔ 1 ≤ q.val) ∧
      (N.sub q (N.lit 1)).val = q.val - 1)

/-- 40_oscillator.md R120: the sample is that of the oscillator's own waveform at the phase before the advance, and then
OSC.ADVANCE(i) runs; a Noise oscillator advances too. `OSC[i].PH` is written and no other register. -/
def Obligations.OscGenSamplesThenAdvances : Prop :=
  ∀ (s : State) (i : Fin 5), (s.Ideal → s.cfg.sr.val ≠ 0) → ∃ a b v p,
    exec (Waveform.instr s.osc[i].ph s.osc[i].wave) s = .next a ∧ a.out.ret = some v ∧
    exec (.oscAdvance i) a = .next b ∧
    exec (.oscGen i) s = .next { b with out := { aud := none, rw := none, ret := some v } } ∧
    b.registers = { s.registers with osc := s.osc.set i { s.osc[i] with ph := p } }

/-- 40_oscillator.md section 3: n advances at a rate below the sample rate leave the fractional part of
p0 + n × FREQ / SR. -/
def Obligations.PhaseClosedForm : Prop :=
  ∀ (n : Nat) (s : State) (i : Fin 5), s.Ideal → InTurn s.osc[i].ph → RateOk s.osc[i].freq s.cfg.sr →
    ∃ t, execTimes (.oscAdvance i) n s = .next t ∧ t.osc[i].freq = s.osc[i].freq ∧
      t.osc[i].ph.val = Int.fract (s.osc[i].ph.val + n * (s.osc[i].freq.val / s.cfg.sr.val))

/-- 40_oscillator.md section 3: no instruction takes a phase out of its turn while the frequencies are below the sample
rate; and only NOTE_ON can end that. -/
def Obligations.PhasesStayInTurn : Prop :=
  ∀ (i : Instr) (s t : State), s.Ideal → s.PhasesInTurn → exec i s = .next t →
    (∀ j : Fin 5, InTurn t.osc[j].ph) ∧ ((∀ d1 d2, i ≠ .noteOn d1 d2) → t.PhasesInTurn)

/-! ### Envelope -/

/-- 41_envelope.md section 1: Idle forces the level to 0 and Sustain writes nothing (R141, R144). That each, run alone,
returns the level after it is decision D14's reading of the call, taken over to the arms by log entry 12 (DEDUCED). -/
def Obligations.IdleAndSustainArms : Prop :=
  ∀ s : State,
    exec .envProcessIdle s = .next
      { s with
        env := { s.env with level := s.num.lit 0 }
        out := { aud := none, rw := none, ret := some (s.num.lit 0) } } ∧
    exec .envProcessSustain s = .next { s with out := { aud := none, rw := none, ret := some s.env.level } }

/-- 41_envelope.md section 1: Attack, at every product ATT × SR that divides, positive or negative (R142). (A zero product:
`Obligations.ZeroDivisorIsRefused`.) That the arm, run alone, returns the level after it is decision D14's reading of the
call, taken over to the arms by log entry 12 (DEDUCED). -/
def Obligations.AttackArm : Prop :=
  ∀ s : State, (s.Ideal → s.env.att.val * s.env.sr.val ≠ 0) →
    let N := s.num
    let l := N.add s.env.level (N.div (N.lit 1) (N.mul s.env.att s.env.sr))
    (N.ge l (N.lit 1) = true → exec .envProcessAttack s = .next
      { s with
        env := { s.env with level := N.lit 1, stage := .decay }
        out := { aud := none, rw := none, ret := some (N.lit 1) } }) ∧
    (N.ge l (N.lit 1) = false → exec .envProcessAttack s = .next
      { s with env := { s.env with level := l }, out := { aud := none, rw := none, ret := some l } }) ∧
    (s.Ideal → l.val = s.env.level.val + 1 / (s.env.att.val * s.env.sr.val) ∧ (N.ge l (N.lit 1) = true ↔ 1 ≤ l.val))

/-- 41_envelope.md section 1: Decay, at every product DEC × SR that divides (R143). (A zero product:
`Obligations.ZeroDivisorIsRefused`.) That the arm, run alone, returns the level after it is decision D14's reading of the
call, taken over to the arms by log entry 12 (DEDUCED). -/
def Obligations.DecayArm : Prop :=
  ∀ s : State, (s.Ideal → s.env.dec.val * s.env.sr.val ≠ 0) →
    let N := s.num
    let l := N.sub s.env.level (N.div (N.sub (N.lit 1) s.env.sus) (N.mul s.env.dec s.env.sr))
    (N.le l s.env.sus = true → exec .envProcessDecay s = .next
      { s with
        env := { s.env with level := s.env.sus, stage := .sustain }
        out := { aud := none, rw := none, ret := some s.env.sus } }) ∧
    (N.le l s.env.sus = false → exec .envProcessDecay s = .next
      { s with env := { s.env with level := l }, out := { aud := none, rw := none, ret := some l } }) ∧
    (s.Ideal → l.val = s.env.level.val - (1 - s.env.sus.val) / (s.env.dec.val * s.env.sr.val) ∧
      (N.le l s.env.sus = true ↔ l.val ≤ s.env.sus.val))

/-- 41_envelope.md section 1: Release, at every product REL × SR that divides (R145). (A zero product:
`Obligations.ZeroDivisorIsRefused`.) That the arm, run alone, returns the level after it is decision D14's reading of the
call, taken over to the arms by log entry 12 (DEDUCED). -/
def Obligations.ReleaseArm : Prop :=
  ∀ s : State, (s.Ideal → s.env.rel.val * s.env.sr.val ≠ 0) →
    let N := s.num
    let l := N.sub s.env.level (N.div s.env.level (N.mul s.env.rel s.env.sr))
    (N.le l (N.lit (1 / 1000)) = true → exec .envProcessRelease s = .next
      { s with
        env := { s.env with level := N.lit 0, stage := .idle }
        out := { aud := none, rw := none, ret := some (N.lit 0) } }) ∧
    (N.le l (N.lit (1 / 1000)) = false → exec .envProcessRelease s = .next
      { s with env := { s.env with level := l }, out := { aud := none, rw := none, ret := some l } }) ∧
    (s.Ideal → l.val = s.env.level.val - s.env.level.val / (s.env.rel.val * s.env.sr.val) ∧
      (N.le l (N.lit (1 / 1000)) = true ↔ l.val ≤ 1 / 1000))

/-- 41_envelope.md section 5, 00_scope.md section 4 and 93_implementation_defined.md U1 (decision D24): in the ideal
instantiation a division by zero has no value and the step is refused; in any other instantiation every instruction goes
on with what the record's `div` returns. -/
def Obligations.ZeroDivisorIsRefused : Prop :=
  (∀ s : State, s.Ideal →
    (s.env.att.val * s.env.sr.val = 0 → exec .envProcessAttack s = .refused .divisionByZero ∧
      (s.env.stage = .attack → exec .envProcess s = .refused .divisionByZero)) ∧
    (s.env.dec.val * s.env.sr.val = 0 → exec .envProcessDecay s = .refused .divisionByZero ∧
      (s.env.stage = .decay → exec .envProcess s = .refused .divisionByZero)) ∧
    (s.env.rel.val * s.env.sr.val = 0 → exec .envProcessRelease s = .refused .divisionByZero ∧
      (s.env.stage = .release → exec .envProcess s = .refused .divisionByZero)) ∧
    (s.cfg.sr.val = 0 → (∀ i : Fin 5, exec (.oscAdvance i) s = .refused .divisionByZero ∧
        exec (.oscGen i) s = .refused .divisionByZero) ∧
      exec .lfoProcess s = .refused .divisionByZero ∧
      ∀ x, exec (.lpfProcess x) s = .refused .divisionByZero) ∧
    (1 + 2 * Real.pi * s.filt.cutoff.val / s.cfg.sr.val = 0 →
      ∀ x, exec (.lpfProcess x) s = .refused .divisionByZero) ∧
    (s.ve.gate = true → (s.cfg.sr.val = 0 ∨ ¬ s.env.ArmDivides) → exec .tick s = .refused .divisionByZero)) ∧
  ∀ (i : Instr) (s : State), ¬ s.Ideal → ∃ t, exec i s = .next t

/-- 41_envelope.md section 1 (decision D14): ENV.PROCESS is the arm of the current stage and no other, and returns the
level as it then stands; where the arm's product is 0 in the ideal instantiation both are refused. -/
def Obligations.EnvProcessRunsOneArm : Prop :=
  ∀ s : State, exec .envProcess s = exec (Stage.instr s.env.stage) s ∧
    ((s.Ideal → s.env.ArmDivides) → ∃ t, exec .envProcess s = .next t ∧ t.out.ret = some t.env.level)

/-- 41_envelope.md R146, R147: ENV.TRIGGER forces Attack and level 0; ENV.RELEASE forces Release and leaves the level. -/
def Obligations.TriggerAndRelease : Prop :=
  ∀ s : State,
    exec .envTrigger s = .next
      { s with
        env := { s.env with stage := .attack, level := s.num.lit 0 }
        out := { aud := none, rw := none, ret := none } } ∧
    exec .envRelease s = .next
      { s with
        env := { s.env with stage := .release }
        out := { aud := none, rw := none, ret := none } }

/-- 41_envelope.md section 3 (decisions D30, D36): each ENVSET stores its operand as given in its own register and
writes no other. -/
def Obligations.EnvsetStoresItsOperand : Prop :=
  ∀ (s : State) (v : Sys2Proof.Num),
    exec (.envsetA v) s = .next
      { s with env := { s.env with att := v }, out := { aud := none, rw := none, ret := none } } ∧
    exec (.envsetD v) s = .next
      { s with env := { s.env with dec := v }, out := { aud := none, rw := none, ret := none } } ∧
    exec (.envsetS v) s = .next
      { s with env := { s.env with sus := v }, out := { aud := none, rw := none, ret := none } } ∧
    exec (.envsetR v) s = .next
      { s with env := { s.env with rel := v }, out := { aud := none, rw := none, ret := none } }

/-- 41_envelope.md R152: a setting written is the one the very next ENV.PROCESS uses. -/
def Obligations.SetterTakesEffectAtTheNextCall : Prop :=
  ∀ (s : State) (v : Sys2Proof.Num),
    let N := s.num
    let attack := N.add s.env.level (N.div (N.lit 1) (N.mul v s.env.sr))
    let decay := N.sub s.env.level (N.div (N.sub (N.lit 1) s.env.sus) (N.mul v s.env.sr))
    let toSus := N.sub s.env.level (N.div (N.sub (N.lit 1) v) (N.mul s.env.dec s.env.sr))
    let release := N.sub s.env.level (N.div s.env.level (N.mul v s.env.sr))
    (s.env.stage = .attack → (s.Ideal → v.val * s.env.sr.val ≠ 0) → N.ge attack (N.lit 1) = false →
      ∃ t u, exec (.envsetA v) s = .next t ∧ exec .envProcess t = .next u ∧ u.env.level = attack) ∧
    (s.env.stage = .decay → (s.Ideal → v.val * s.env.sr.val ≠ 0) → N.le decay s.env.sus = false →
      ∃ t u, exec (.envsetD v) s = .next t ∧ exec .envProcess t = .next u ∧ u.env.level = decay) ∧
    (s.env.stage = .decay → (s.Ideal → s.env.dec.val * s.env.sr.val ≠ 0) → N.le toSus v = true →
      ∃ t u, exec (.envsetS v) s = .next t ∧ exec .envProcess t = .next u ∧
        u.env.level = v ∧ u.env.stage = .sustain) ∧
    (s.env.stage = .decay → (s.Ideal → s.env.dec.val * s.env.sr.val ≠ 0) → N.le toSus v = false →
      ∃ t u, exec (.envsetS v) s = .next t ∧ exec .envProcess t = .next u ∧ u.env.level = toSus) ∧
    (s.env.stage = .release → (s.Ideal → v.val * s.env.sr.val ≠ 0) → N.le release (N.lit (1 / 1000)) = false →
      ∃ t u, exec (.envsetR v) s = .next t ∧ exec .envProcess t = .next u ∧ u.env.level = release)

/-- 41_envelope.md R153: the rows of the transition relation, each taken when its condition holds (the arm's product
dividing), and no other: a command changes the stage only by a row, and leaves the level that row gives. -/
def Obligations.StageTransitionRelation : Prop :=
  (∀ s : State, (s.Ideal → s.env.ArmDivides) →
    let N := s.num
    ∃ t, exec .envProcess s = .next t ∧
    (s.env.stage = .idle → t.env.stage = .idle ∧ t.env.level = N.lit 0) ∧
    (s.env.stage = .attack →
      if N.ge (N.add s.env.level (N.div (N.lit 1) (N.mul s.env.att s.env.sr))) (N.lit 1)
      then t.env.stage = .decay ∧ t.env.level = N.lit 1
      else t.env.stage = .attack) ∧
    (s.env.stage = .decay →
      if N.le (N.sub s.env.level (N.div (N.sub (N.lit 1) s.env.sus) (N.mul s.env.dec s.env.sr))) s.env.sus
      then t.env.stage = .sustain ∧ t.env.level = s.env.sus
      else t.env.stage = .decay) ∧
    (s.env.stage = .sustain → t.env.stage = .sustain) ∧
    (s.env.stage = .release →
      if N.le (N.sub s.env.level (N.div s.env.level (N.mul s.env.rel s.env.sr))) (N.lit (1 / 1000))
      then t.env.stage = .idle ∧ t.env.level = N.lit 0
      else t.env.stage = .release)) ∧
  (∀ s : State, ∃ t u, exec .envTrigger s = .next t ∧ t.env.stage = .attack ∧ t.env.level = s.num.lit 0 ∧
    exec .envRelease s = .next u ∧ u.env.stage = .release ∧ u.env.level = s.env.level) ∧
  ∀ (i : Instr) (s t : State), i.isCommand = true → exec i s = .next t →
    t.env.stage = s.env.stage ∨
    (∃ d1 d2, i = .noteOn d1 d2 ∧ t.env.stage = .attack ∧ t.env.level = s.num.lit 0) ∨
    (∃ d1 d2, i = .noteOff d1 d2 ∧ d1 = s.ve.note ∧ t.env.stage = .release ∧ t.env.level = s.env.level) ∨
    (i = .tick ∧ s.ve.gate = true ∧
      ((s.env.stage = .attack ∧ t.env.stage = .decay ∧ t.env.level = s.num.lit 1) ∨
       (s.env.stage = .decay ∧ t.env.stage = .sustain ∧ t.env.level = s.env.sus) ∨
       (s.env.stage = .release ∧ t.env.stage = .idle ∧ t.env.level = s.num.lit 0)))

/-- 41_envelope.md section 5: with well-formed settings no instruction takes the level out of [0,1]. -/
def Obligations.LevelStaysInUnit : Prop :=
  ∀ (i : Instr) (s t : State), s.Ideal → s.env.WellSet → s.env.LevelInUnit → exec i s = .next t →
    t.env.LevelInUnit

/-- 41_envelope.md section 5: n calls after ENV.TRIGGER the level is n/N, with N = ATT × SR, until that reaches 1; the
call that reaches 1 leaves level 1 and stage Decay. -/
def Obligations.AttackLength : Prop :=
  ∀ (n : Nat) (s : State), s.Ideal → s.env.stage = .attack → s.env.level.val = 0 →
    0 < s.env.att.val * s.env.sr.val → (n : ℝ) < s.env.att.val * s.env.sr.val →
    (∃ t l, execTimes .envProcess n s = .next t ∧ t.env = { s.env with level := l } ∧
      l.val = n / (s.env.att.val * s.env.sr.val)) ∧
    (s.env.att.val * s.env.sr.val ≤ (n + 1 : ℝ) →
      ∃ t l, execTimes .envProcess (n + 1) s = .next t ∧ t.env = { s.env with level := l, stage := .decay } ∧
        l.val = 1)

/-- 41_envelope.md section 5: from level 1 in Decay, with N = DEC × SR, the level after n calls is 1 − n × (1 − SUS)/N
while n < N, and call ⌈N⌉ leaves the sustain level and stage Sustain. -/
def Obligations.DecayLength : Prop :=
  ∀ (n : Nat) (s : State), s.Ideal → s.env.stage = .decay → s.env.level.val = 1 → s.env.sus.val < 1 →
    0 < s.env.dec.val * s.env.sr.val → (n : ℝ) < s.env.dec.val * s.env.sr.val →
    (∃ t l, execTimes .envProcess n s = .next t ∧ t.env = { s.env with level := l } ∧
      l.val = 1 - n * ((1 - s.env.sus.val) / (s.env.dec.val * s.env.sr.val))) ∧
    (s.env.dec.val * s.env.sr.val ≤ (n + 1 : ℝ) →
      ∃ t, execTimes .envProcess (n + 1) s = .next t ∧
        t.env = { s.env with level := s.env.sus, stage := .sustain })

/-- 41_envelope.md section 5: from a level above 0.001 in Release, with N = REL × SR > 1, the level after n calls is
L0 × (1 − 1/N)^n while that is above 0.001, and the first call at which it is not leaves level 0 and stage Idle. -/
def Obligations.ReleaseLength : Prop :=
  ∀ (n : Nat) (s : State), s.Ideal → s.env.stage = .release → 1 < s.env.rel.val * s.env.sr.val →
    1 / 1000 < s.env.level.val * (1 - 1 / (s.env.rel.val * s.env.sr.val)) ^ n →
    (∃ t l, execTimes .envProcess n s = .next t ∧ t.env = { s.env with level := l } ∧
      l.val = s.env.level.val * (1 - 1 / (s.env.rel.val * s.env.sr.val)) ^ n) ∧
    (s.env.level.val * (1 - 1 / (s.env.rel.val * s.env.sr.val)) ^ (n + 1) ≤ 1 / 1000 →
      ∃ t l, execTimes .envProcess (n + 1) s = .next t ∧ t.env = { s.env with level := l, stage := .idle } ∧
        l.val = 0)

/-! ### Filter and LFO -/

/-- 42_filter.md R170: the cascade, as written in every instantiation; in the ideal one with 2π exactly. `FILT.RES` does
not occur. (At a divisor of 0 the ideal instantiation has no quotient: `Obligations.ZeroDivisorIsRefused`.) -/
def Obligations.LpfProcessCascade : Prop :=
  ∀ (s : State) (x : Sys2Proof.Num),
    let N := s.num
    let c := N.div (N.mul N.twoPi s.filt.cutoff) s.cfg.sr
    let k := N.div c (N.add (N.lit 1) c)
    let stage1 := N.add (N.mul x k) (N.mul s.filt.y1 (N.sub (N.lit 1) k))
    let newY1 := N.add (N.mul stage1 k) (N.mul s.filt.y2 (N.sub (N.lit 1) k))
    ((s.Ideal → s.cfg.sr.val ≠ 0 ∧ 1 + 2 * Real.pi * s.filt.cutoff.val / s.cfg.sr.val ≠ 0) →
      exec (.lpfProcess x) s = .next
        { s with
          filt := { s.filt with y1 := newY1, y2 := stage1 }
          out := { aud := none, rw := none, ret := some stage1 } }) ∧
    (s.Ideal → c.val = 2 * Real.pi * s.filt.cutoff.val / s.cfg.sr.val ∧ k.val = c.val / (1 + c.val) ∧
      stage1.val = x.val * k.val + s.filt.y1.val * (1 - k.val) ∧
      newY1.val = stage1.val * k.val + s.filt.y2.val * (1 - k.val))

/-- 42_filter.md: in the ideal instantiation c is 2π × CUTOFF / SR exactly, and with SR > 0 and a positive cutoff the
coefficient k = c/(1 + c) lies strictly between 0 and 1; and a constant input to which both delay states have settled
comes out unchanged and leaves them so (DC gain 1). -/
def Obligations.CoefficientRangeAndDcGain : Prop :=
  (∀ cutoff sr : Sys2Proof.Num, 0 < sr.val → 0 < cutoff.val →
    let N := NumSystem.ideal.record
    (normalizedCutoff N cutoff sr).val = 2 * Real.pi * cutoff.val / sr.val ∧
    0 < (onePole N (normalizedCutoff N cutoff sr)).val ∧ (onePole N (normalizedCutoff N cutoff sr)).val < 1) ∧
  ∀ (s : State) (x : Sys2Proof.Num), s.Ideal → s.cfg.sr.val ≠ 0 →
    1 + 2 * Real.pi * s.filt.cutoff.val / s.cfg.sr.val ≠ 0 → s.filt.y1.val = x.val → s.filt.y2.val = x.val →
    ∃ t y, exec (.lpfProcess x) s = .next t ∧ t.out.ret = some y ∧ y.val = x.val ∧ t.filt.y1.val = x.val ∧
      t.filt.y2.val = x.val

/-- 42_filter.md (decision D20): the resonance is inert. Changing `FILT.RES` changes no value LPF.PROCESS
returns and no other register after it; changing what parameter 3 may be loaded as changes no sample, and no register
but `FILT.RES` and that location, after a TICK with the same draws and load choices. That the two TICKs share those is
the model's (log entries 4 and 5); the spec's TICK is a function of them (44_voice_engine.md section 2, R205). -/
def Obligations.ResonanceIsInert : Prop :=
  (∀ (s t : State) (x r : Sys2Proof.Num), exec (.lpfProcess x) s = .next t →
    exec (.lpfProcess x) { s with filt := { s.filt with res := r } } =
      .next { t with filt := { t.filt with res := r } }) ∧
  ∀ (s t : State) (l : ParLoc) (r : Sys2Proof.Num), exec .tick s = .next t → ∃ t',
    exec .tick { s with filt := { s.filt with res := r }, ps := s.ps.set 3 l } = .next t' ∧
    t'.out = t.out ∧
    t' = { t with filt := { t.filt with res := t'.filt.res }, ps := t.ps.set 3 t'.ps[3] }

/-- 43_lfo.md R180: LFO.PROCESS returns the sine of 2π times the phase before the advance, and advances the phase with one
comparison and at most one subtraction. (At a sample rate of 0: `Obligations.ZeroDivisorIsRefused`.) -/
def Obligations.LfoProcessValueAndAdvance : Prop :=
  ∀ s : State, (s.Ideal → s.cfg.sr.val ≠ 0) →
    let N := s.num
    let v := N.sin (N.mul N.twoPi s.lfo.ph)
    let q := N.add s.lfo.ph (N.div s.lfo.freq s.cfg.sr)
    exec .lfoProcess s = .next
      { s with
        lfo := { s.lfo with ph := if N.ge q (N.lit 1) then N.sub q (N.lit 1) else q }
        out := { aud := none, rw := none, ret := some v } } ∧
    (s.Ideal → v.val = Real.sin (2 * Real.pi * s.lfo.ph.val) ∧ -1 ≤ v.val ∧ v.val ≤ 1 ∧
      q.val = s.lfo.ph.val + s.lfo.freq.val / s.cfg.sr.val ∧ (N.ge q (N.lit 1) = true ↔ 1 ≤ q.val) ∧
      (N.sub q (N.lit 1)).val = q.val - 1)

/-- 43_lfo.md: with a sample rate above 20 Hz no step within the ideal instantiation takes the LFO's phase out of its
turn. -/
def Obligations.LfoPhaseStaysInTurn : Prop :=
  ∀ s t : State, s.Ideal → t.Ideal → s.Inv → 20 < s.cfg.sr.val → InTurn s.lfo.ph → step s = .next t → InTurn t.lfo.ph

/-! ### TICK -/

/-- 44_voice_engine.md R197: with the gate off a TICK writes a frame of zeros and changes no register. -/
def Obligations.TickGateOffIsSilent : Prop :=
  ∀ s : State, s.ve.gate = false →
    exec .tick s = .next
      { s with out := { aud := some (List.replicate s.cfg.nch (s.num.lit 0)), rw := none, ret := none } }

/-- 44_voice_engine.md section 2: a gated TICK, whole. The four parameter values are values their locations may return
(log entry 5); the samples are `mixOf`; the envelope's level after its update scales them; the cutoff and the filter are
those of the same TICK; the frame is one sample on every channel. In the ideal instantiation it completes where its
divisors are not 0, so wherever the sample rate is positive and the product of the envelope's stage is not 0. (Clamp's
`>`, and the sum from 0, in another instantiation: log entry 15.) -/
def Obligations.TickRendersOneFrame : Prop :=
  ∀ s : State, s.ve.gate = true → ∃ (p2 p3 p4 p5 : Sys2Proof.Num) (ps' : Vector ParLoc 6),
    (p2 ∈ s.ps[2].values ∧ p3 ∈ s.ps[3].values ∧ p4 ∈ s.ps[4].values ∧ p5 ∈ s.ps[5].values) ∧
    (ps'[2].seen = p2 ∧ ps'[3].seen = p3 ∧ ps'[4].seen = p4 ∧ ps'[5].seen = p5) ∧
    (ps'[0] = s.ps[0] ∧ ps'[1] = s.ps[1]) ∧
    (∀ i : Fin 6, ps'[i].values <:+ s.ps[i].values) ∧
    let N := s.num
    let e := s.env.process N
    let a := N.mul (mixOf N s.osc s.draws) e.level
    let l := N.sin (N.mul N.twoPi s.lfo.ph)
    let cutoff := clamp N (N.mul p2 (N.add (N.lit 1) (N.mul l p5))) (N.lit 20) (N.lit 20000)
    let c := N.div (N.mul N.twoPi cutoff) s.cfg.sr
    let k := N.div c (N.add (N.lit 1) c)
    let o := N.add (N.mul a k) (N.mul s.filt.y1 (N.sub (N.lit 1) k))
    let t : State :=
      { s with
        osc := s.osc.map fun x => x.advance N s.cfg.sr
        env := e
        lfo := { ph := advancePhase N s.lfo.ph p4 s.cfg.sr, freq := p4 }
        filt := { cutoff := cutoff, res := p3, y1 := N.add (N.mul o k) (N.mul s.filt.y2 (N.sub (N.lit 1) k)), y2 := o }
        ps := ps'
        out := { aud := some (List.replicate s.cfg.nch o), rw := none, ret := none }
        draws := s.draws + drawsBefore s.osc 5
        loads := s.loads + 4 }
    ((s.Ideal → 0 < s.cfg.sr.val ∧ s.env.ArmDivides) → exec .tick s = .next t) ∧
    ((s.Ideal → s.cfg.sr.val ≠ 0 ∧ s.env.ArmDivides ∧ 1 + 2 * Real.pi * cutoff.val / s.cfg.sr.val ≠ 0) →
      exec .tick s = .next t)

/-- 44_voice_engine.md section 2: in the ideal instantiation, with every phase in its turn the mix lies in [−2.5, 2.5],
and so does the amplitude-scaled mix for a level in [0,1]. -/
def Obligations.MixIsBounded : Prop :=
  ∀ (osc : Vector Osc 5) (draws : Nat) (e : Sys2Proof.Num), (∀ i : Fin 5, InTurn osc[i].ph) → 0 ≤ e.val → e.val ≤ 1 →
    let N := NumSystem.ideal.record
    (-(5 / 2) ≤ (mixOf N osc draws).val ∧ (mixOf N osc draws).val ≤ 5 / 2) ∧
    -(5 / 2) ≤ (N.mul (mixOf N osc draws) e).val ∧ (N.mul (mixOf N osc draws) e).val ≤ 5 / 2

/-- 20_memory.md section 3: parameters 0 and 1 are never loaded by TICK: whatever they hold, a TICK with the same draws and
load choices leaves the same frame and every other register the same, and the locations as they were (that the two TICKs
share those is the model's, log entries 4 and 5); and PSET and PGET reach them like the others. -/
def Obligations.OscFreqParametersAreInert : Prop :=
  (∀ (s t : State) (i : Fin 6) (l : ParLoc), i = 0 ∨ i = 1 → exec .tick s = .next t →
    t.ps[i] = s.ps[i] ∧ exec .tick (s.setPar i l) = .next (t.setPar i l)) ∧
  ∀ (s : State) (x : Sys2Proof.Num), s.Ideal → 0 ≤ x.val → x.val ≤ 1 → ∃ t u v w y z,
    exec (.pset0 x) s = .next t ∧ (t.par 0).val = x.val * 20000 ∧ exec .pget0 t = .next u ∧ u.out.rw = some y ∧
    y.val = x.val ∧
    exec (.pset1 x) s = .next v ∧ (v.par 1).val = x.val * 20000 ∧ exec .pget1 v = .next w ∧ w.out.rw = some z ∧
    z.val = x.val

/-- 44_voice_engine.md section 2 and 30_encoding.md section 7: a block is its events and then its ticks, one after
another, and a block boundary changes nothing: `n` ticks behind the events leave the inputs after the block as they
were. An event is an EVT, a NOTE_ON or a NOTE_OFF, and a second operand that is not written is 0. -/
def Obligations.BlockRunsEventsThenTicks : Prop :=
  let instr : AsmEvent → Instr := fun
    | .evt st d1 d2 => if st = 128 then .noteOff d1 d2 else if st = 144 then .noteOn d1 d2 else .evtIgnored st d1 d2
    | .noteOn d1 d2 => .noteOn d1 (d2.getD 0)
    | .noteOff d1 d2 => .noteOff d1 (d2.getD 0)
  (∀ (es : List AsmEvent) (n : Nat) (s : State) (rest : List Input),
    Sys2Proof.core.run (es.length + n) { s with inbox := (Asm.block n es).inputs ++ rest } =
      execAll (es.map instr ++ List.replicate n .tick) { s with inbox := rest }) ∧
  (∀ e : AsmEvent, (Asm.event e).inputs = (Asm.block 0 [e]).inputs) ∧
  (∀ n : Nat, (Asm.ticks n).inputs = (Asm.block n []).inputs) ∧
  ∀ d1 : Byte, (AsmEvent.noteOn d1 none).command = (AsmEvent.noteOn d1 (some 0)).command ∧
    (AsmEvent.noteOff d1 none).command = (AsmEvent.noteOff d1 (some 0)).command

/-! ### Parameter store -/

/-- 45_parameter_access.md section 1 (decision D13): PSET.i stores the operand clamped to [0,1] times SCALE[i], as one
more store of its own location, and writes nothing else; no datapath register changes. (Clamp's `>` in another
instantiation: log entry 15.) -/
def Obligations.PsetStoresClampedAndScaled : Prop :=
  ∀ (s : State) (x : Sys2Proof.Num),
    let N := s.num
    let value (scale : ℚ) : Sys2Proof.Num := N.mul (clamp N x (N.lit 0) (N.lit 1)) (N.lit scale)
    let stored (i : Fin 6) (scale : ℚ) : State :=
      { s with
        ps := s.ps.set i { seen := s.ps[i].seen, later := s.ps[i].later ++ [value scale] }
        out := { aud := none, rw := none, ret := none } }
    exec (.pset0 x) s = .next (stored 0 20000) ∧ exec (.pset1 x) s = .next (stored 1 20000) ∧
    exec (.pset2 x) s = .next (stored 2 20000) ∧ exec (.pset3 x) s = .next (stored 3 1) ∧
    exec (.pset4 x) s = .next (stored 4 20) ∧ exec (.pset5 x) s = .next (stored 5 2) ∧
    (s.Ideal → ∀ scale : ℚ, (value scale).val = max 0 (min 1 x.val) * scale)

/-- 45_parameter_access.md R229, R230, R231, R232, R234: PGET of parameters 0, 1, 2, 3, 5 returns the stored value over
the scale of the set path and changes nothing. -/
def Obligations.PgetReturnsTheNormalizedValue : Prop :=
  ∀ s : State,
    let ratio (i : Fin 6) (d : ℚ) : Sys2Proof.Num := s.num.div (s.par i) (s.num.lit d)
    let result (v : Sys2Proof.Num) : State := { s with out := { aud := none, rw := some v, ret := none } }
    exec .pget0 s = .next (result (ratio 0 20000)) ∧ exec .pget1 s = .next (result (ratio 1 20000)) ∧
    exec .pget2 s = .next (result (ratio 2 20000)) ∧ exec .pget3 s = .next (result (ratio 3 1)) ∧
    exec .pget5 s = .next (result (ratio 5 2)) ∧
    (s.Ideal → (ratio 0 20000).val = (s.par 0).val / 20000 ∧ (ratio 1 20000).val = (s.par 1).val / 20000 ∧
      (ratio 2 20000).val = (s.par 2).val / 20000 ∧ (ratio 3 1).val = (s.par 3).val ∧
      (ratio 5 2).val = (s.par 5).val / 2)

/-- 45_parameter_access.md sections 1 and 2 (decisions D21, D12): PGET.4 divides by 10, not by the 20 of the set path;
at a reserved index PSET writes nothing and PGET returns 0. -/
def Obligations.LfoFreqReadBackAndReservedIndices : Prop :=
  ∀ (s : State) (idx : BitVec 3) (x : Sys2Proof.Num),
    exec .pget4 s = .next
      { s with out := { aud := none, rw := some (s.num.div (s.par 4) (s.num.lit 10)), ret := none } } ∧
    exec (.psetRsvd idx x) s = .next { s with out := { aud := none, rw := none, ret := none } } ∧
    exec (.pgetRsvd idx) s = .next { s with out := { aud := none, rw := some (s.num.lit 0), ret := none } } ∧
    (s.Ideal → (s.num.div (s.par 4) (s.num.lit 10)).val = (s.par 4).val / 10 ∧ (s.num.lit 0).val = 0)

/-- 45_parameter_access.md section 3: in the ideal instantiation PSET then PGET of one index returns the operand clamped to
[0,1], for index 4 twice it; so for an operand in [0,1] the operand itself, for index 4 twice it. -/
def Obligations.ParameterRoundTrip : Prop :=
  ∀ (s : State) (x : Sys2Proof.Num), s.Ideal →
    let clamped : ℝ := if x.val < 0 then 0 else if 1 < x.val then 1 else x.val
    let trip (i j : Instr) (v : ℝ) : Prop :=
      ∃ t u y, exec i s = .next t ∧ exec j t = .next u ∧ u.out.rw = some y ∧ y.val = v
    trip (.pset0 x) .pget0 clamped ∧ trip (.pset1 x) .pget1 clamped ∧ trip (.pset2 x) .pget2 clamped ∧
      trip (.pset3 x) .pget3 clamped ∧ trip (.pset4 x) .pget4 (2 * clamped) ∧ trip (.pset5 x) .pget5 clamped

/-- 20_memory.md section 4 (decision D17): one location. A load returns one of the values it may return and none before
it may be returned again; it may return each of them, for some choice; a store comes after all others; the register's
value is the newest store's and a load does not change it. -/
def Obligations.LocationIsCoherent : Prop :=
  ∀ l : ParLoc,
    (∀ k : Nat, (l.observe k).seen ∈ l.values ∧ (l.observe k).values <:+ l.values ∧
      (l.observe k).newest = l.newest) ∧
    (∀ v, v ∈ l.values → ∃ k, (l.observe k).seen = v) ∧
    ∀ v, (l.store v).values = l.values ++ [v] ∧ (l.store v).newest = v

/-- 20_memory.md sections 2 and 4 (decision D17): over any step with no RESET, what a location's loads may return. After a
PSET of its own index they may return what they could before, all of it, and last the value that PSET stores; after a TICK
a tail of what they could before, and nothing new; after anything else the location is as it was. -/
def Obligations.StoreOrderIsKeptByEveryStep : Prop :=
  ∀ s t : State, step s = .next t → ∀ i : Fin 6,
    let pset (x : Sys2Proof.Num) : Instr :=
      (#v[.pset0 x, .pset1 x, .pset2 x, .pset3 x, .pset4 x, .pset5 x] : Vector Instr 6)[i]
    (s.inbox = [] → t.ps[i] = s.ps[i]) ∧
    ∀ (c : Command) (rest : List Input), s.inbox = .command c :: rest →
      (∀ x, decode c = pset x → t.ps[i].values = s.ps[i].values ++ [unitOf s.num i x]) ∧
      (decode c = .tick → t.ps[i].values <:+ s.ps[i].values) ∧
      ((∀ x, decode c ≠ pset x) → decode c ≠ .tick → t.ps[i] = s.ps[i])

/-! ### The whole machine -/

/-- When the machine stops, which is never by a fault (60_exceptions.md section 1): an instruction answers a next state
exactly where the ideal instantiation divides by no 0 or the instantiation is another, and is refused as a division by zero
otherwise (log entry 2, after 00_scope.md section 4 and 41_envelope.md section 5); a step of the block, which waits when
nothing is handed to it (log entry 7), answers likewise. -/
def Obligations.OnlyAZeroDivisorStops : Prop :=
  (∀ (i : Instr) (s : State),
    (Divides i s → ∃ t, exec i s = .next t) ∧ (¬ Divides i s → exec i s = .refused .divisionByZero)) ∧
  (∀ (i : Instr) (s : State), divisors i s ≠ [] →
    (i = .tick ∧ s.ve.gate = true) ∨ (∃ n, i = .oscGen n ∨ i = .oscAdvance n) ∨ (∃ x, i = .lpfProcess x) ∨
      i ∈ [.lfoProcess, .envProcess, .envProcessAttack, .envProcessDecay, .envProcessRelease]) ∧
  ∀ s : State, (∃ t, step s = .next t) ∨
    (step s = .refused .divisionByZero ∧ s.Ideal ∧
      ∃ c rest, s.inbox = .command c :: rest ∧ ¬ Divides (decode c) { s with inbox := rest })

/-- Every step keeps the invariant: the configuration legal (00_scope.md section 4), that of a RESET to come included (log
entries 3 and 8); the registers no command writes at their reset values (10_state.md R22, R23, R28 and section 9); and in
the ideal instantiation every parameter value in its legal range (45_parameter_access.md section 1, R237), the cutoff in
[20, 20000] (42_filter.md R172), the latched LFO rate in [0, 20] and resonance in [0, 1]. -/
def Obligations.StepKeepsTheInvariant : Prop :=
  ∀ s t : State, s.Inv → step s = .next t → t.Inv

/-- 10_state.md R35: the gate is 0 after reset, set by NOTE_ON and cleared by no operation; TICK reads it. -/
def Obligations.GateIsNeverCleared : Prop :=
  (∀ c : Cfg, (State.resetWith c).ve.gate = false) ∧ State.reset.ve.gate = false ∧
  (∀ s : State, s.ve.gate = false → ∃ t, exec .tick s = .next t ∧ t.registers = s.registers) ∧
  (∀ s t : State, s.ve.gate = true → exec .tick s = .next t → t.env = s.env.process s.num) ∧
  ∀ (i : Instr) (s t : State), exec i s = .next t →
    (s.ve.gate = true → t.ve.gate = true) ∧
    (s.ve.gate = false → t.ve.gate = true → ∃ d1 d2, i = .noteOn d1 d2) ∧
    ∀ d1 d2, i = .noteOn d1 d2 → t.ve.gate = true

/-- The frame of every instruction (10_state.md sections 2 to 7, 20_memory.md sections 2 and 3): which component of the
state each instruction may change at all, and within the oscillator bank, the envelope, the filter and the LFO which
register. -/
def Obligations.FrameOfEveryInstruction : Prop :=
  ∀ (i : Instr) (s t : State), exec i s = .next t →
    (t.osc = s.osc ∨ (i = .tick ∧ s.ve.gate = true) ∨ (∃ d1 d2, i = .noteOn d1 d2) ∨
      ∃ n, i = .oscGen n ∨ i = .oscAdvance n) ∧
    (∀ j : Fin 5, t.osc[j].wave = s.osc[j].wave) ∧
    (∀ j : Fin 5, t.osc[j].freq = s.osc[j].freq ∨ (j.val < 2 ∧ ∃ d1 d2, i = .noteOn d1 d2)) ∧
    (∀ j : Fin 5, (∃ d1 d2, i = .noteOn d1 d2) → t.osc[j].ph = s.osc[j].ph) ∧
    (∀ j n : Fin 5, i = .oscGen n ∨ i = .oscAdvance n → j ≠ n → t.osc[j] = s.osc[j]) ∧
    t.env.sr = s.env.sr ∧
    (t.env = s.env ∨ (i = .tick ∧ s.ve.gate = true) ∨
      (∃ d1 d2, i = .noteOn d1 d2 ∨ (i = .noteOff d1 d2 ∧ d1 = s.ve.note)) ∨
      (∃ v, i = .envsetA v ∨ i = .envsetD v ∨ i = .envsetS v ∨ i = .envsetR v) ∨
      i ∈ [.envProcess, .envProcessIdle, .envProcessAttack, .envProcessDecay, .envProcessRelease, .envTrigger,
        .envRelease]) ∧
    ((∃ v, i = .envsetA v ∨ i = .envsetD v ∨ i = .envsetS v ∨ i = .envsetR v) →
      t.env.level = s.env.level ∧ t.env.stage = s.env.stage) ∧
    ((t.env.att = s.env.att ∨ ∃ v, i = .envsetA v) ∧ (t.env.dec = s.env.dec ∨ ∃ v, i = .envsetD v) ∧
      (t.env.sus = s.env.sus ∨ ∃ v, i = .envsetS v) ∧ (t.env.rel = s.env.rel ∨ ∃ v, i = .envsetR v)) ∧
    (t.filt = s.filt ∨ (i = .tick ∧ s.ve.gate = true) ∨ ∃ x, i = .lpfProcess x) ∧
    (i ≠ .tick → t.filt.cutoff = s.filt.cutoff ∧ t.filt.res = s.filt.res ∧ t.lfo.freq = s.lfo.freq) ∧
    (t.lfo = s.lfo ∨ (i = .tick ∧ s.ve.gate = true) ∨ i = .lfoProcess) ∧
    (t.ve = s.ve ∨ ∃ d1 d2, i = .noteOn d1 d2) ∧
    (∀ j : Fin 6, t.par j = s.par j ∨
      (j = 0 ∧ ∃ x, i = .pset0 x) ∨ (j = 1 ∧ ∃ x, i = .pset1 x) ∨ (j = 2 ∧ ∃ x, i = .pset2 x) ∨
      (j = 3 ∧ ∃ x, i = .pset3 x) ∨ (j = 4 ∧ ∃ x, i = .pset4 x) ∨ (j = 5 ∧ ∃ x, i = .pset5 x)) ∧
    t.cfg = s.cfg ∧ t.inbox = s.inbox

/-- 60_exceptions.md section 5 (decisions D9, D11): the split of rights between the two agents. A command decoded from
the C port changes no oscillator, envelope, filter, LFO or voice register and writes no frame; one decoded from the
R port changes no parameter's value and gives no result. -/
def Obligations.AgentsKeepToTheirState : Prop :=
  ∀ (c : Command) (s t : State), exec (decode c) s = .next t →
    (c.port = .c →
      t.osc = s.osc ∧ t.env = s.env ∧ t.filt = s.filt ∧ t.lfo = s.lfo ∧ t.ve = s.ve ∧ t.out.aud = none) ∧
    (c.port = .r → (∀ i : Fin 6, t.par i = s.par i) ∧ t.out.rw = none)
end

