-- ==== Sys2Proof/Laws/Numerics.lean ====
section
/-! SUPPORT. The ideal numerics record is exact (00_scope.md R8): every term's enclosures hold the real number it stands
for and close in on it, so the search that compares two numbers decides the order of the reals. -/

namespace Sys2Proof

set_option Elab.async false -- one theorem at a time: each would take a thread of its own

open Filter

/-! ### Enclosures of one number -/

/-- The enclosure holds the number. -/
def Ball.holds (b : Ball) (x : ℝ) : Prop := |x - (b.mid : ℝ)| ≤ (b.rad : ℝ)

theorem Ball.holds.rad_nonneg {b : Ball} {x : ℝ} (h : b.holds x) : (0 : ℝ) ≤ b.rad := (abs_nonneg _).trans h

theorem Ball.add_holds {b c : Ball} {x y : ℝ} (hx : b.holds x) (hy : c.holds y) : (b.add c).holds (x + y) := by
  simp only [Ball.holds, Ball.add, abs_le] at *
  push_cast
  constructor <;> linarith

theorem Ball.neg_holds {b : Ball} {x : ℝ} (hx : b.holds x) : b.neg.holds (-x) := by
  simp only [Ball.holds, Ball.neg, abs_le] at *
  push_cast
  constructor <;> linarith

theorem Ball.mul_holds {b c : Ball} {x y : ℝ} (hx : b.holds x) (hy : c.holds y) : (b.mul c).holds (x * y) := by
  have h0 := hx.rad_nonneg
  have e : x * y - b.mid * c.mid =
      b.mid * (y - c.mid) + (x - b.mid) * c.mid + (x - b.mid) * (y - c.mid) := by ring
  simp only [Ball.holds, Ball.mul] at *
  push_cast
  rw [e]
  refine (abs_add_le _ _).trans (add_le_add ((abs_add_le _ _).trans (add_le_add ?_ ?_)) ?_) <;> rw [abs_mul]
  · exact mul_le_mul_of_nonneg_left hy (abs_nonneg _)
  · exact mul_le_mul_of_nonneg_right hx (abs_nonneg _)
  · exact mul_le_mul hx hy (abs_nonneg _) h0

/-- An enclosure that leaves out 0 gives the number's sign. -/
theorem Ball.apart_iff {b : Ball} : b.apart = true ↔ (b.rad : ℝ) < |(b.mid : ℝ)| := by
  simp only [Ball.apart, decide_eq_true_eq]
  exact_mod_cast Iff.rfl

theorem Ball.ne_zero {b : Ball} {x : ℝ} (hx : b.holds x) (h : b.apart = true) : x ≠ 0 := by
  rintro rfl
  rw [Ball.apart_iff] at h
  simp only [Ball.holds, zero_sub, abs_neg] at hx
  linarith

theorem Ball.pos_iff {b : Ball} {x : ℝ} (hx : b.holds x) (h : b.apart = true) : 0 < b.mid ↔ 0 < x := by
  rw [Ball.apart_iff] at h
  have hm : (0 : ℚ) < b.mid ↔ (0 : ℝ) < (b.mid : ℝ) := by exact_mod_cast Iff.rfl
  simp only [Ball.holds, abs_le] at hx
  rw [hm]
  constructor <;> intro p
  · rw [abs_of_pos p] at h; linarith
  · by_contra q
    rw [abs_of_nonpos (not_lt.1 q)] at h; linarith

theorem Ball.inv_holds {b c : Ball} {x : ℝ} (hx : b.holds x) (h : b.inv = some c) : c.holds x⁻¹ := by
  unfold Ball.inv at h
  split_ifs at h with ha
  have hne := Ball.ne_zero hx ha
  rw [Ball.apart_iff] at ha
  cases h
  simp only [Ball.holds] at *
  have hr : (0 : ℝ) ≤ b.rad := (abs_nonneg _).trans hx
  have hm : (b.mid : ℝ) ≠ 0 := by intro h0; rw [h0, abs_zero] at ha; linarith
  have hxm : |(b.mid : ℝ)| - b.rad ≤ |x| := by
    have := abs_sub_abs_le_abs_sub (b.mid : ℝ) x
    rw [abs_sub_comm] at this
    linarith
  have hpos : 0 < |(b.mid : ℝ)| - b.rad := by linarith
  have hmp : 0 < |(b.mid : ℝ)| := abs_pos.2 hm
  push_cast
  have e : x⁻¹ - 1 / (b.mid : ℝ) = -((x - b.mid) / (x * b.mid)) := by field_simp; ring
  rw [e, abs_neg, abs_div, abs_mul]
  exact div_le_div₀ hr hx (mul_pos hpos hmp) (mul_le_mul_of_nonneg_right hxm hmp.le)

/-! ### Finite sums -/

theorem sumTo_cast (f : ℕ → ℚ) (n : ℕ) : ((sumTo f n : ℚ) : ℝ) = ∑ k ∈ Finset.range n, ((f k : ℚ) : ℝ) := by
  induction n with
  | zero => simp [sumTo]
  | succ n ih => rw [sumTo, Finset.sum_range_succ, ← ih]; push_cast; rfl

/-! ### The exponential and the sine -/

/-- What the exponential series leaves out after n terms. -/
theorem complex_exp_close {z : ℂ} {x : ℚ} {n : ℕ} (hz : ‖z‖ = |(x : ℝ)|) (h : 2 * |x| ≤ n + 1) :
    ‖Complex.exp z - ∑ m ∈ Finset.range n, z ^ m / (m.factorial : ℂ)‖ ≤ |(x : ℝ)| ^ n / n.factorial * 2 := by
  rw [← hz]
  refine Complex.exp_bound' ?_
  have h' : 2 * |(x : ℝ)| ≤ n + 1 := by exact_mod_cast h
  rw [hz, div_le_iff₀ (by positivity)]
  push_cast
  linarith

theorem expSeries_exp {n : ℕ} {x : ℚ} {b : Ball} (h : expSeries (fun _ => 1) n x = some b) :
    b.holds (Real.exp x) := by
  unfold expSeries at h
  split_ifs at h with hx
  cases h
  have hc := complex_exp_close (z := ((x : ℝ) : ℂ)) (by rw [Complex.norm_real, Real.norm_eq_abs]) hx
  simp only [Ball.holds]
  rw [sumTo_cast]
  push_cast
  rw [← Real.norm_eq_abs, ← Complex.norm_real]
  push_cast
  simpa using hc

theorem sineCoeff_eq (k : ℕ) : ((sineCoeff k : ℚ) : ℝ) = (Complex.I ^ k).im := by
  have hk : k = 4 * (k / 4) + k % 4 := by omega
  have hI : Complex.I ^ k = Complex.I ^ (k % 4) := by
    conv_lhs => rw [hk, pow_add, pow_mul, Complex.I_pow_four, one_pow, one_mul]
  rw [hI, sineCoeff]
  have : k % 4 < 4 := Nat.mod_lt _ (by norm_num)
  interval_cases h : k % 4 <;> simp [pow_succ]

theorem expSeries_sine {n : ℕ} {x : ℚ} {b : Ball} (h : expSeries sineCoeff n x = some b) :
    b.holds (Real.sin x) := by
  unfold expSeries at h
  split_ifs at h with hx
  cases h
  have hc := complex_exp_close (z := ((x : ℝ) : ℂ) * Complex.I) (by simp) hx
  have him := (Complex.abs_im_le_norm _).trans hc
  rw [Complex.sub_im, Complex.exp_ofReal_mul_I_im, Complex.im_sum] at him
  simp only [Ball.holds]
  rw [sumTo_cast]
  push_cast
  refine le_trans (le_of_eq ?_) him
  congr 2
  refine Finset.sum_congr rfl fun k _ => ?_
  have e : ((x : ℝ) * Complex.I : ℂ) ^ k / (k.factorial : ℂ) =
      (((x : ℝ) ^ k / (k.factorial : ℝ) : ℝ) : ℂ) * Complex.I ^ k := by
    push_cast; rw [mul_pow]; ring
  rw [e, Complex.im_ofReal_mul, ← sineCoeff_eq]; ring

theorem Ball.sin_holds {n : ℕ} {b c : Ball} {x : ℝ} (hx : b.holds x) (h : Ball.sin n b = some c) :
    c.holds (Real.sin x) := by
  simp only [Ball.sin, Option.map_eq_some_iff] at h
  obtain ⟨s, hs, rfl⟩ := h
  have h1 := expSeries_sine hs
  have h2 := Real.abs_sin_sub_sin_le x b.mid
  simp only [Ball.holds] at *
  push_cast
  have e : Real.sin x - s.mid = (Real.sin x - Real.sin b.mid) + (Real.sin b.mid - s.mid) := by ring
  rw [e]
  refine (abs_add_le _ _).trans ?_
  linarith

theorem Ball.exp_holds {n : ℕ} {b c : Ball} {x : ℝ} (hx : b.holds x) (h : Ball.exp n b = some c) :
    c.holds (Real.exp x) := by
  unfold Ball.exp at h
  split_ifs at h with hr
  simp only [Option.map_eq_some_iff] at h
  obtain ⟨s, hs, rfl⟩ := h
  have h1 := expSeries_exp hs
  have hr' : (b.rad : ℝ) ≤ 1 := by exact_mod_cast hr
  simp only [Ball.holds] at *
  have h2 := Real.abs_exp_sub_one_le (hx.trans hr')
  have hm : Real.exp b.mid ≤ |(s.mid : ℝ)| + s.rad := by
    have := abs_le.1 h1
    linarith [le_abs_self (s.mid : ℝ)]
  have hfac : Real.exp x - Real.exp b.mid = Real.exp b.mid * (Real.exp (x - b.mid) - 1) := by
    rw [mul_sub, ← Real.exp_add]; ring_nf
  have h3 : |Real.exp x - Real.exp b.mid| ≤ (|(s.mid : ℝ)| + s.rad) * (2 * b.rad) := by
    rw [hfac, abs_mul, abs_of_pos (Real.exp_pos _)]
    refine mul_le_mul hm (h2.trans (by linarith)) (abs_nonneg _) ?_
    exact (Real.exp_pos _).le.trans hm
  push_cast
  have e : Real.exp x - s.mid = (Real.exp x - Real.exp b.mid) + (Real.exp b.mid - s.mid) := by ring
  rw [e]
  refine (abs_add_le _ _).trans ?_
  linarith

/-! ### 2π, the logarithm of 2, the named numbers -/

theorem arctanTo_close {m : ℕ} (hm : 5 ≤ m) (n : ℕ) :
    |((arctanTo m n : ℚ) : ℝ) - Real.arctan ((m : ℝ)⁻¹)| ≤ 1 / 4 * (1 / 25) ^ n := by
  have hm' : (5 : ℝ) ≤ m := by exact_mod_cast hm
  have hx0 : (0 : ℝ) < (m : ℝ)⁻¹ := by positivity
  have hx1 : (m : ℝ)⁻¹ ≤ 1 / 5 := by rw [inv_eq_one_div]; exact one_div_le_one_div_of_le (by norm_num) hm'
  have hs := Real.hasSum_arctan (x := (m : ℝ)⁻¹) (by rw [Real.norm_of_nonneg hx0.le]; linarith)
  have hb : ∀ k : ℕ, ‖(-1) ^ k * ((m : ℝ)⁻¹) ^ (2 * k + 1) / ((2 * k + 1 : ℕ) : ℝ)‖ ≤ 1 / 5 * (1 / 25) ^ k := by
    intro k
    rw [norm_div, norm_mul, norm_pow, norm_neg, norm_one, one_pow, one_mul, norm_pow, Real.norm_of_nonneg hx0.le,
      Real.norm_of_nonneg (by positivity)]
    have h1 : ((m : ℝ)⁻¹) ^ (2 * k + 1) ≤ (1 / 5) ^ (2 * k + 1) := pow_le_pow_left₀ hx0.le hx1 _
    have h2 : ((1 : ℝ) / 5) ^ (2 * k + 1) = 1 / 5 * (1 / 25) ^ k := by
      rw [pow_succ, pow_mul]; norm_num; ring
    rw [h2] at h1
    refine (div_le_self (by positivity) ?_).trans h1
    exact_mod_cast Nat.one_le_iff_ne_zero.2 (by omega)
  have := norm_sub_le_of_geometric_bound_of_hasSum (by norm_num) hb hs n
  rw [Real.norm_eq_abs] at this
  rw [arctanTo, sumTo_cast]
  push_cast at this ⊢
  simp only [one_div] at this ⊢
  refine this.trans ?_
  have h25 : (0 : ℝ) ≤ (25⁻¹) ^ n := by positivity
  rw [div_le_iff₀ (by norm_num)]
  linarith

theorem twoPiBall_holds (n : ℕ) : (twoPiBall n).holds (2 * Real.pi) := by
  have h5 := arctanTo_close (m := 5) le_rfl n
  have h239 := arctanTo_close (m := 239) (by norm_num) n
  have hpi := Real.four_mul_arctan_inv_5_sub_arctan_inv_239
  simp only [Ball.holds, twoPiBall]
  push_cast at *
  rw [abs_le] at *
  constructor <;> linarith

theorem logTwoBall_holds (n : ℕ) : (logTwoBall n).holds (Real.log 2) := by
  have h := Real.abs_log_sub_add_sum_range_le (x := 1 / 2) (by rw [abs_of_pos] <;> norm_num) n
  have e : Real.log (1 - 1 / 2) = -Real.log 2 := by
    rw [show (1 : ℝ) - 1 / 2 = 2⁻¹ by norm_num, Real.log_inv]
  rw [e, abs_of_pos (by norm_num : (0 : ℝ) < 1 / 2)] at h
  simp only [Ball.holds, logTwoBall]
  rw [sumTo_cast]
  push_cast
  rw [abs_sub_comm, sub_eq_add_neg]
  refine h.trans (le_of_eq ?_)
  rw [pow_succ]; norm_num

theorem namedTerm_bound (i k : ℕ) (hk : k ≠ 0) : |((namedTerm i k : ℚ) : ℝ)| ≤ (1 / 2) ^ k := by
  have h : |namedTerm i k| ≤ (1 / 2) ^ k := by
    rw [namedTerm, if_neg hk, abs_mul, abs_of_pos (by positivity : (0 : ℚ) < (1 / 2) ^ k)]
    refine mul_le_of_le_one_left (by positivity) ?_
    rw [abs_le]
    exact ⟨le_max_left _ _, max_le (by norm_num) (min_le_left _ _)⟩
  have h' := (Rat.cast_le (K := ℝ)).2 h
  push_cast at h'
  exact h'

theorem namedTerm_summable (i : ℕ) : Summable fun k => ((namedTerm i k : ℚ) : ℝ) := by
  refine (summable_nat_add_iff 1).1 (Summable.of_norm_bounded (g := fun k => (1 / 2 : ℝ) ^ k) summable_geometric_two ?_)
  intro k
  rw [Real.norm_eq_abs]
  refine (namedTerm_bound i (k + 1) (by omega)).trans ?_
  exact pow_le_pow_of_le_one (by norm_num) (by norm_num) (by omega)

theorem namedBall_holds (i n : ℕ) : (namedBall i n).holds (∑' k, ((namedTerm i k : ℚ) : ℝ)) := by
  have hs := (namedTerm_summable i).sum_add_tsum_nat_add (n + 1)
  have ht : HasSum (fun k => ((namedTerm i (k + (n + 1)) : ℚ) : ℝ)) (∑' k, ((namedTerm i (k + (n + 1)) : ℚ) : ℝ)) :=
    ((summable_nat_add_iff (n + 1)).2 (namedTerm_summable i)).hasSum
  have hb : ∀ k : ℕ, ‖((namedTerm i (k + (n + 1)) : ℚ) : ℝ)‖ ≤ (1 / 2) ^ (n + 1) * (1 / 2) ^ k := by
    intro k
    rw [Real.norm_eq_abs, ← pow_add, add_comm (n + 1) k]
    exact namedTerm_bound i _ (by omega)
  have := norm_sub_le_of_geometric_bound_of_hasSum (by norm_num) hb ht 0
  simp only [Finset.range_zero, Finset.sum_empty, zero_sub, norm_neg, Real.norm_eq_abs, pow_zero, mul_one] at this
  simp only [Ball.holds, namedBall]
  rw [sumTo_cast, ← hs]
  push_cast
  rw [add_sub_cancel_left]
  refine this.trans (le_of_eq ?_)
  rw [pow_succ]; norm_num

/-! ### Sequences of enclosures -/

/-- Every enclosure of the sequence holds the number. -/
def Holds (f : ℕ → Option Ball) (x : ℝ) : Prop := ∀ n b, f n = some b → b.holds x

/-- From some number on the sequence has enclosures as narrow as one likes. -/
def Closes (f : ℕ → Option Ball) : Prop := ∀ ε : ℝ, 0 < ε → ∀ᶠ n in atTop, ∃ b, f n = some b ∧ (b.rad : ℝ) ≤ ε

theorem closes_of_tendsto {g : ℕ → Ball} (h : Tendsto (fun n => ((g n).rad : ℝ)) atTop (nhds 0)) :
    Closes fun n => some (g n) := fun _ hε =>
  (h.eventually (gt_mem_nhds hε)).mono fun n hn => ⟨g n, rfl, hn.le⟩

theorem Ball.holds.mid_le {b : Ball} {x : ℝ} (h : b.holds x) : |(b.mid : ℝ)| ≤ |x| + b.rad := by
  have := abs_sub_abs_le_abs_sub (b.mid : ℝ) x
  rw [abs_sub_comm] at this
  simp only [Ball.holds] at h
  linarith

theorem Closes.add {f g : ℕ → Option Ball} (hf : Closes f) (hg : Closes g) :
    Closes fun n => (f n).bind fun b => (g n).map fun c => b.add c := fun ε hε => by
  filter_upwards [hf (ε / 2) (by positivity), hg (ε / 2) (by positivity)] with n ⟨b, hb, rb⟩ ⟨c, hc, rc⟩
  refine ⟨b.add c, by simp [hb, hc], ?_⟩
  simp only [Ball.add]; push_cast; linarith

theorem Closes.mul {f g : ℕ → Option Ball} {x y : ℝ} (hx : Holds f x) (hy : Holds g y) (hf : Closes f)
    (hg : Closes g) : Closes fun n => (f n).bind fun b => (g n).map fun c => b.mul c := fun ε hε => by
  have hD : 0 < |x| + |y| + 3 := by positivity
  set δ := min 1 (ε / (|x| + |y| + 3)) with hδ
  have h0 : 0 < δ := lt_min one_pos (by positivity)
  have h1 : δ ≤ 1 := min_le_left _ _
  have h2 : δ * (|x| + |y| + 3) ≤ ε := by
    have := min_le_right 1 (ε / (|x| + |y| + 3))
    rwa [← hδ, le_div_iff₀ hD] at this
  filter_upwards [hf δ h0, hg δ h0] with n ⟨b, hb, rb⟩ ⟨c, hc, rc⟩
  refine ⟨b.mul c, by simp [hb, hc], ?_⟩
  have mb := (hx n b hb).mid_le
  have mc := (hy n c hc).mid_le
  have pb := (hx n b hb).rad_nonneg
  have pc := (hy n c hc).rad_nonneg
  simp only [Ball.mul]; push_cast
  have t1 : |(b.mid : ℝ)| * c.rad ≤ (|x| + 1) * δ := mul_le_mul (by linarith) rc pc (by positivity)
  have t2 : (b.rad : ℝ) * |(c.mid : ℝ)| ≤ δ * (|y| + 1) := mul_le_mul rb (by linarith) (abs_nonneg _) h0.le
  have t3 : (b.rad : ℝ) * c.rad ≤ δ * 1 := mul_le_mul rb (by linarith) pc h0.le
  linarith

theorem Closes.neg {f : ℕ → Option Ball} (hf : Closes f) : Closes fun n => (f n).map Ball.neg := fun ε hε => by
  filter_upwards [hf ε hε] with n ⟨b, hb, rb⟩
  exact ⟨b.neg, by simp [hb], rb⟩

/-- A number other than 0 is left out from some enclosure on. -/
theorem Closes.apart {f : ℕ → Option Ball} {x : ℝ} (hx : Holds f x) (hf : Closes f) (h : x ≠ 0) :
    ∀ᶠ n in atTop, (f n).any Ball.apart = true := by
  have hp : 0 < |x| := abs_pos.2 h
  filter_upwards [hf (|x| / 4) (by positivity)] with n ⟨b, hb, rb⟩
  have hm := hx n b hb
  have := abs_sub_abs_le_abs_sub x b.mid
  simp only [Ball.holds] at hm
  rw [hb, Option.any_some, Ball.apart_iff]
  linarith

theorem Closes.inv {f : ℕ → Option Ball} {x : ℝ} (hx : Holds f x) (hf : Closes f) (h : x ≠ 0) :
    Closes fun n => (f n).bind Ball.inv := fun ε hε => by
  have hp : 0 < |x| := abs_pos.2 h
  set δ := min (|x| / 4) (ε * (|x| / 2 * (|x| / 2))) with hδ
  have h0 : 0 < δ := lt_min (by positivity) (by positivity)
  filter_upwards [hf δ h0] with n ⟨b, hb, rb⟩
  have hm := hx n b hb
  have hr := hm.rad_nonneg
  have hd := abs_sub_abs_le_abs_sub x b.mid
  have h4 : (b.rad : ℝ) ≤ |x| / 4 := rb.trans (min_le_left _ _)
  have h5 : (b.rad : ℝ) ≤ ε * (|x| / 2 * (|x| / 2)) := rb.trans (min_le_right _ _)
  simp only [Ball.holds] at hm
  have ha : b.apart = true := by rw [Ball.apart_iff]; linarith
  refine ⟨_, by simp only [hb, Option.bind_some, Ball.inv, if_pos ha]; rfl, ?_⟩
  push_cast
  have l1 : |x| / 2 ≤ |(b.mid : ℝ)| - b.rad := by linarith
  have l2 : |x| / 2 ≤ |(b.mid : ℝ)| := by linarith
  have l3 : |x| / 2 * (|x| / 2) ≤ (|(b.mid : ℝ)| - b.rad) * |(b.mid : ℝ)| :=
    mul_le_mul l1 l2 (by positivity) (by linarith)
  rw [div_le_iff₀ (lt_of_lt_of_le (by positivity) l3)]
  exact h5.trans (mul_le_mul_of_nonneg_left l3 hε.le)

/-- The exponential series reaches every bounded point, as closely as one likes. -/
theorem expSeries_closes (c : ℕ → ℚ) (M : ℝ) {ε : ℝ} (hε : 0 < ε) :
    ∀ᶠ n in atTop, ∀ x : ℚ, |(x : ℝ)| ≤ M → ∃ s, expSeries c n x = some s ∧ (s.rad : ℝ) ≤ ε := by
  have ht := (FloorSemiring.tendsto_pow_div_factorial_atTop (K := ℝ) M).mul_const 2
  rw [zero_mul] at ht
  filter_upwards [ht.eventually (gt_mem_nhds hε), eventually_ge_atTop ⌈2 * M⌉₊] with n h1 h2 x hx
  have h3 : 2 * M ≤ n := (Nat.le_ceil _).trans (by exact_mod_cast h2)
  have h4 : 2 * |x| ≤ n + 1 := by
    have : 2 * |(x : ℝ)| ≤ n + 1 := by linarith
    exact_mod_cast this
  refine ⟨_, by simp only [expSeries, if_pos h4]; rfl, ?_⟩
  push_cast
  refine le_trans ?_ h1.le
  have := pow_le_pow_left₀ (abs_nonneg _) hx n
  gcongr

theorem Closes.sin {f : ℕ → Option Ball} {x : ℝ} (hx : Holds f x) (hf : Closes f) :
    Closes fun n => (f n).bind (Ball.sin n) := fun ε hε => by
  filter_upwards [hf (min 1 (ε / 2)) (lt_min one_pos (by positivity)),
    expSeries_closes sineCoeff (|x| + 1) (half_pos hε)] with n ⟨b, hb, rb⟩ hs
  have h1 := rb.trans (min_le_left _ _)
  have h2 := rb.trans (min_le_right _ _)
  obtain ⟨s, hs, rs⟩ := hs b.mid ((hx n b hb).mid_le.trans (by linarith))
  refine ⟨_, by simp only [hb, Option.bind_some, Ball.sin, hs, Option.map_some]; rfl, ?_⟩
  push_cast; linarith

theorem Closes.exp {f : ℕ → Option Ball} {x : ℝ} (hx : Holds f x) (hf : Closes f) :
    Closes fun n => (f n).bind (Ball.exp n) := fun ε hε => by
  set E := Real.exp (|x| + 1) + 2 with hE
  have hE0 : 0 < E := by positivity
  filter_upwards [hf (min 1 (ε / 2 / (2 * E))) (lt_min one_pos (by positivity)),
    expSeries_closes (fun _ => 1) (|x| + 1) (lt_min one_pos (half_pos hε))] with n ⟨b, hb, rb⟩ hs
  have h1 := rb.trans (min_le_left _ _)
  have h2 := rb.trans (min_le_right _ _)
  have hm := (hx n b hb).mid_le
  have hr := (hx n b hb).rad_nonneg
  obtain ⟨s, hs, rs⟩ := hs b.mid (hm.trans (by linarith))
  have r1 := rs.trans (min_le_left _ _)
  have r2 := rs.trans (min_le_right _ _)
  have hr1 : b.rad ≤ 1 := by exact_mod_cast h1
  have hh := expSeries_exp hs
  have hm' := hh.mid_le
  have he : Real.exp b.mid ≤ Real.exp (|x| + 1) := Real.exp_le_exp.2 ((le_abs_self _).trans (by linarith))
  rw [abs_of_pos (Real.exp_pos _)] at hm'
  refine ⟨_, by simp only [hb, Option.bind_some, Ball.exp, if_pos hr1, hs, Option.map_some]; rfl, ?_⟩
  push_cast
  have t : (|(s.mid : ℝ)| + s.rad) * (2 * b.rad) ≤ E * (2 * (ε / 2 / (2 * E))) :=
    mul_le_mul (by linarith) (by linarith) (by linarith) hE0.le
  have e : E * (2 * (ε / 2 / (2 * E))) = ε / 2 := by field_simp
  linarith

/-! ### The enclosures of a term -/

/-- Every enclosure of a term holds the number it stands for. -/
theorem Num.ball_holds : ∀ a : Num, Holds a.ball a.val
  | .rat q, n, b, h => by
    simp only [Num.ball, Option.some.injEq] at h
    subst h
    simp [Ball.holds, Num.val]
  | .named i, n, b, h => by
    simp only [Num.ball, Option.some.injEq] at h
    subst h
    exact namedBall_holds i n
  | .twoPi, n, b, h => by
    simp only [Num.ball, Option.some.injEq] at h
    subst h
    exact twoPiBall_holds n
  | .add x y, n, b, h => by
    simp only [Num.ball, Option.bind_eq_some_iff, Option.map_eq_some_iff] at h
    obtain ⟨c, hc, d, hd, rfl⟩ := h
    exact Ball.add_holds (Num.ball_holds x n c hc) (Num.ball_holds y n d hd)
  | .neg x, n, b, h => by
    simp only [Num.ball, Option.map_eq_some_iff] at h
    obtain ⟨c, hc, rfl⟩ := h
    exact Ball.neg_holds (Num.ball_holds x n c hc)
  | .mul x y, n, b, h => by
    simp only [Num.ball, Option.bind_eq_some_iff, Option.map_eq_some_iff] at h
    obtain ⟨c, hc, d, hd, rfl⟩ := h
    exact Ball.mul_holds (Num.ball_holds x n c hc) (Num.ball_holds y n d hd)
  | .inv x k, n, b, h => by
    simp only [Num.ball] at h
    simp only [Num.val]
    split_ifs at h ⊢ with ha
    · simp only [Option.bind_eq_some_iff] at h
      obtain ⟨c, hc, hi⟩ := h
      exact Ball.inv_holds (Num.ball_holds x n c hc) hi
    · simp only [Option.some.injEq] at h
      subst h
      simp [Ball.holds]
  | .sin x, n, b, h => by
    simp only [Num.ball, Option.bind_eq_some_iff] at h
    obtain ⟨c, hc, hs⟩ := h
    exact Ball.sin_holds (Num.ball_holds x n c hc) hs
  | .exp2 x, n, b, h => by
    simp only [Num.ball, Option.bind_eq_some_iff] at h
    obtain ⟨c, hc, he⟩ := h
    have := Ball.exp_holds (Ball.mul_holds (Num.ball_holds x n c hc) (logTwoBall_holds n)) he
    rwa [mul_comm, ← Real.rpow_def_of_pos (by norm_num)] at this

/-- A number one of whose enclosures leaves out 0 is not 0. -/
theorem Num.val_ne_zero {a : Num} {n : ℕ} (h : (a.ball n).any Ball.apart = true) : a.val ≠ 0 := by
  cases hb : a.ball n with
  | none => rw [hb] at h; cases h
  | some b =>
    rw [hb, Option.any_some] at h
    exact Ball.ne_zero (a.ball_holds n b hb) h

/-- The enclosures of a term close in on the number. -/
theorem Num.ball_closes : ∀ a : Num, Closes a.ball
  | .rat q => closes_of_tendsto (by simp)
  | .named i => closes_of_tendsto (by
      simp only [namedBall]; push_cast
      exact tendsto_pow_atTop_nhds_zero_of_lt_one (by norm_num) (by norm_num))
  | .twoPi => closes_of_tendsto (by
      simp only [twoPiBall]; push_cast
      simpa using (tendsto_pow_atTop_nhds_zero_of_lt_one (r := (1 / 25 : ℝ)) (by norm_num) (by norm_num)).const_mul 10)
  | .add x y => (Num.ball_closes x).add (Num.ball_closes y)
  | .neg x => (Num.ball_closes x).neg
  | .mul x y => Closes.mul x.ball_holds y.ball_holds (Num.ball_closes x) (Num.ball_closes y)
  | .inv x k => by
    by_cases h : (x.ball k).any Ball.apart = true
    · have e : (Num.inv x k).ball = fun n => (x.ball n).bind Ball.inv := by
        funext n; simp only [Num.ball, if_pos h]
      rw [e]
      exact (Num.ball_closes x).inv x.ball_holds (Num.val_ne_zero h)
    · have e : (Num.inv x k).ball = fun _ => some { mid := 0, rad := 0 } := by
        funext n; simp only [Num.ball, if_neg h]
      rw [e]
      exact closes_of_tendsto (by simp)
  | .sin x => (Num.ball_closes x).sin x.ball_holds
  | .exp2 x => by
    have hl : Closes fun n => some (logTwoBall n) := closes_of_tendsto (by
      simp only [logTwoBall]; push_cast
      exact tendsto_pow_atTop_nhds_zero_of_lt_one (by norm_num) (by norm_num))
    have hh : Holds (fun n => some (logTwoBall n)) (Real.log 2) := fun n b h => by
      cases h; exact logTwoBall_holds n
    have hm := Closes.mul x.ball_holds hh (Num.ball_closes x) hl
    have hx : Holds (fun n => (x.ball n).bind fun b => (some (logTwoBall n)).map fun c => b.mul c)
        (x.val * Real.log 2) := fun n b h => by
      simp only [Option.map_some, Option.bind_eq_some_iff, Option.some.injEq] at h
      obtain ⟨c, hc, rfl⟩ := h
      exact Ball.mul_holds (x.ball_holds n c hc) (logTwoBall_holds n)
    have := hm.exp hx
    refine fun ε hε => (this ε hε).mono fun n ⟨b, hb, rb⟩ => ⟨b, ?_, rb⟩
    rw [← hb]
    simp only [Num.ball, Option.map_some, Option.bind_assoc, Option.bind_some]

/-! ### The search -/

theorem firstFrom_eq (p : ℕ → Bool) (n : ℕ) : firstFrom p n = if p n then some n else firstFrom p (n + 1) := by
  rw [firstFrom]

/-- What the search finds has the property. -/
theorem firstFrom_some {p : ℕ → Bool} {n m : ℕ} (h : firstFrom p n = some m) : p m = true := by
  refine firstFrom.partial_correctness p (fun _ m => p m = true) ?_ n m h
  intro f ih n r hr
  split at hr
  · cases hr; assumption
  · exact ih _ _ hr

/-- The search finds something if there is something to find. -/
theorem firstFrom_none {p : ℕ → Bool} {n : ℕ} (h : firstFrom p n = none) (k : ℕ) : p (n + k) = false := by
  induction k generalizing n with
  | zero =>
    rw [firstFrom_eq] at h
    by_contra hc
    simp only [Nat.add_zero, Bool.not_eq_false] at hc
    simp [hc] at h
  | succ k ih =>
    rw [firstFrom_eq] at h
    split_ifs at h
    have := ih h
    rwa [Nat.add_assoc, Nat.add_comm 1 k] at this

theorem firstWithin_some {p : ℕ → Bool} {n fuel m : ℕ} (h : firstWithin p n fuel = some m) : p m = true := by
  induction fuel generalizing n with
  | zero => cases h
  | succ fuel ih =>
    rw [firstWithin] at h
    split_ifs at h with hp
    · cases h; exact hp
    · exact ih h

theorem Num.apartAt_some {a : Num} {n : ℕ} (h : a.apartAt = some n) : (a.ball n).any Ball.apart = true := by
  unfold Num.apartAt at h
  split at h
  · rename_i m hm; cases h; exact firstWithin_some hm
  · exact firstFrom_some h

/-- The search ends exactly where the number is not 0. -/
theorem Num.apartAt_none {a : Num} (h : a.apartAt = none) : a.val = 0 := by
  by_contra hne
  obtain ⟨n, hn⟩ := eventually_atTop.1 ((a.ball_closes).apart a.ball_holds hne)
  unfold Num.apartAt at h
  split at h
  · cases h
  · have := firstFrom_none h n
    rw [hn (64 + n) (by omega)] at this
    cases this

theorem Num.positive_iff (a : Num) : a.positive = true ↔ 0 < a.val := by
  unfold Num.positive
  split
  · rename_i n hn
    have ha := Num.apartAt_some hn
    cases hb : a.ball n with
    | none => rw [hb] at ha; cases ha
    | some b =>
      rw [hb, Option.any_some] at ha
      rw [Option.any_some, decide_eq_true_eq]
      exact Ball.pos_iff (a.ball_holds n b hb) ha
  · rename_i h
    simp [Num.apartAt_none h]

/-! ### The fields of the ideal record -/

@[simp] theorem Num.val_rat (q : ℚ) : (Num.rat q).val = (q : ℝ) := rfl

@[simp] theorem Num.val_twoPi : Num.twoPi.val = 2 * Real.pi := rfl

@[simp] theorem Num.val_plus (a b : Num) : (a.plus b).val = a.val + b.val := by
  unfold Num.plus; split <;> simp [Num.val]

@[simp] theorem Num.val_minus (a : Num) : a.minus.val = -a.val := by
  unfold Num.minus; split <;> simp [Num.val]

@[simp] theorem Num.val_times (a b : Num) : (a.times b).val = a.val * b.val := by
  unfold Num.times; split <;> simp [Num.val]

@[simp] theorem Num.val_recip (a : Num) : a.recip.val = a.val⁻¹ := by
  unfold Num.recip
  split
  · simp [Num.val]
  · split
    · rename_i n hn
      rw [Num.val, if_pos (Num.apartAt_some hn)]
    · rename_i h
      simp [Num.apartAt_none h]

theorem Num.lessThan_iff (a b : Num) : a.lessThan b = true ↔ a.val < b.val := by
  unfold Num.lessThan
  split
  · simp
  · rw [Num.positive_iff, Num.val_plus, Num.val_minus]
    constructor <;> intro h <;> linarith

theorem sineOfQuarters_eq (z : ℤ) : Real.sin (z * (Real.pi / 2)) = (sineOfQuarters z : ℝ) := by
  have hz : (z : ℝ) = 4 * ((z / 4 : ℤ) : ℝ) + ((z % 4 : ℤ) : ℝ) := by
    have : z = 4 * (z / 4) + z % 4 := by omega
    exact_mod_cast this
  have e : (z : ℝ) * (Real.pi / 2) = ((z % 4 : ℤ) : ℝ) * (Real.pi / 2) + ((z / 4 : ℤ) : ℝ) * (2 * Real.pi) := by
    rw [hz]; ring
  rw [e, Real.sin_add_int_mul_two_pi, sineOfQuarters]
  have h0 : 0 ≤ z % 4 := by omega
  have h4 : z % 4 < 4 := by omega
  interval_cases h : z % 4
  · simp
  · simp
  · have : ((2 : ℤ) : ℝ) * (Real.pi / 2) = Real.pi := by push_cast; ring
    rw [this, Real.sin_pi]; simp
  · have : ((3 : ℤ) : ℝ) * (Real.pi / 2) = Real.pi / 2 + Real.pi := by push_cast; ring
    rw [this, Real.sin_add_pi]; simp

@[simp] theorem Num.val_sine (a : Num) : a.sine.val = Real.sin a.val := by
  unfold Num.sine
  split
  · rename_i p
    split_ifs with h
    · have hp : (4 * p : ℚ) = ((4 * p).num : ℚ) := (Rat.den_eq_one_iff _).1 h |>.symm
      have hp' : 4 * (p : ℝ) = ((4 * p).num : ℝ) := by exact_mod_cast hp
      rw [Num.val_rat, ← sineOfQuarters_eq, ← hp']
      simp only [Num.val]
      congr 1; ring
    · simp [Num.val]
  · rfl

theorem powTwo_eq (z : ℤ) : powTwo z = (2 : ℚ) ^ z := by
  cases z with
  | ofNat n => simp [powTwo]
  | negSucc n => simp [powTwo, zpow_negSucc]

@[simp] theorem Num.val_powerOfTwo (a : Num) : a.powerOfTwo.val = (2 : ℝ) ^ a.val := by
  unfold Num.powerOfTwo
  split
  · rename_i q
    split_ifs with h
    · have hq : q = (q.num : ℚ) := (Rat.den_eq_one_iff _).1 h |>.symm
      have hq' : (q : ℝ) = (q.num : ℝ) := by exact_mod_cast hq
      rw [Num.val_rat, Num.val_rat, powTwo_eq, hq', Real.rpow_intCast]
      push_cast; rfl
    · simp [Num.val]
  · rfl

/-! The ideal record's fields, each the exact mathematical function (00_scope.md R8). -/

@[simp] theorem Numerics.ideal_add (a b : Num) : (Numerics.ideal.add a b).val = a.val + b.val := Num.val_plus a b

@[simp] theorem Numerics.ideal_sub (a b : Num) : (Numerics.ideal.sub a b).val = a.val - b.val := by
  simp [Numerics.ideal, sub_eq_add_neg]

@[simp] theorem Numerics.ideal_mul (a b : Num) : (Numerics.ideal.mul a b).val = a.val * b.val := Num.val_times a b

@[simp] theorem Numerics.ideal_div (a b : Num) : (Numerics.ideal.div a b).val = a.val / b.val := by
  simp [Numerics.ideal, div_eq_mul_inv]

@[simp] theorem Numerics.ideal_lt (a b : Num) : Numerics.ideal.lt a b = true ↔ a.val < b.val := Num.lessThan_iff a b

@[simp] theorem Numerics.ideal_le (a b : Num) : Numerics.ideal.le a b = true ↔ a.val ≤ b.val := by
  simp [Numerics.ideal, ← Bool.not_eq_true, Num.lessThan_iff]

@[simp] theorem Numerics.ideal_ge (a b : Num) : Numerics.ideal.ge a b = true ↔ b.val ≤ a.val := by
  simp [Numerics.ideal, ← Bool.not_eq_true, Num.lessThan_iff]

@[simp] theorem Numerics.ideal_eq (a b : Num) : Numerics.ideal.eq a b = true ↔ a.val = b.val := by
  have h : Numerics.ideal.eq a b = (Numerics.ideal.le a b && Numerics.ideal.ge a b) := Bool.and_comm _ _
  rw [h, Bool.and_eq_true, Numerics.ideal_le, Numerics.ideal_ge, le_antisymm_iff]

@[simp] theorem Numerics.ideal_ofInt (z : ℤ) : (Numerics.ideal.ofInt z).val = (z : ℝ) := by
  simp [Numerics.ideal]

@[simp] theorem Numerics.ideal_lit (q : ℚ) : (Numerics.ideal.lit q).val = (q : ℝ) := rfl

@[simp] theorem Numerics.ideal_twoPi : Numerics.ideal.twoPi.val = 2 * Real.pi := rfl

@[simp] theorem Numerics.ideal_sin (a : Num) : (Numerics.ideal.sin a).val = Real.sin a.val := Num.val_sine a

@[simp] theorem Numerics.ideal_exp2 (a : Num) : (Numerics.ideal.exp2 a).val = (2 : ℝ) ^ a.val := Num.val_powerOfTwo a

@[simp] theorem NumSystem.record_ideal : NumSystem.ideal.record = Numerics.ideal := rfl

/-- The ideal instantiation divides by every number but 0. -/
@[simp] theorem NumSystem.divides_ideal (d : Num) : NumSystem.ideal.divides d = true ↔ d.val ≠ 0 := by
  have h := Numerics.ideal_eq d (.rat 0)
  rw [Num.val_rat, Rat.cast_zero] at h
  have e : NumSystem.ideal.divides d = !Numerics.ideal.eq d (.rat 0) := rfl
  rw [e, Bool.not_eq_true', ← Bool.not_eq_true, h]

@[simp] theorem NumSystem.divides_other (k : ℕ) (d : Num) : (NumSystem.other k).divides d = true := rfl

/-- A rational number is told from 0 by its own value, whatever the instantiation. -/
theorem NumSystem.divides_of_val {n : NumSystem} {d : Num} (h : n = .ideal → d.val ≠ 0) : n.divides d = true := by
  cases n with
  | ideal => exact (NumSystem.divides_ideal d).2 (h rfl)
  | other k => rfl

theorem NumSystem.divides_iff {n : NumSystem} {d : Num} : n.divides d = true ↔ (n = .ideal → d.val ≠ 0) := by
  refine ⟨fun h hn => ?_, NumSystem.divides_of_val⟩
  subst hn
  exact (NumSystem.divides_ideal d).1 h

end Sys2Proof
end

