-- ==== Sys2Proof/Laws/Operands.lean ====
section
/-! SUPPORT. What `clamp`, the parameter tables, the legal configurations, the sine of a phase, the pitch mapping and the
Noise draw are as real numbers, in the ideal instantiation of 00_scope.md R8. -/

namespace Sys2Proof

set_option Elab.async false -- one theorem at a time: each would take a thread of its own

/-! ### clamp -/

/-- A value within the bounds is returned unchanged, the bounds themselves included. -/
theorem clamp_of_mem {v lo hi : Num} (h₁ : lo.val ≤ v.val) (h₂ : v.val ≤ hi.val) :
    clamp Numerics.ideal v lo hi = v := by
  simp only [clamp, Numerics.ideal_lt, if_neg (not_lt.2 h₁), if_neg (not_lt.2 h₂)]

theorem clamp_of_lt {v lo hi : Num} (h : v.val < lo.val) : clamp Numerics.ideal v lo hi = lo := by
  simp only [clamp, Numerics.ideal_lt, if_pos h]

theorem clamp_of_gt {v lo hi : Num} (h : lo.val ≤ hi.val) (hv : hi.val < v.val) :
    clamp Numerics.ideal v lo hi = hi := by
  simp only [clamp, Numerics.ideal_lt, if_neg (not_lt.2 (h.trans hv.le)), if_pos hv]

theorem clamp_mem {v lo hi : Num} (h : lo.val ≤ hi.val) :
    lo.val ≤ (clamp Numerics.ideal v lo hi).val ∧ (clamp Numerics.ideal v lo hi).val ≤ hi.val := by
  rcases lt_or_ge v.val lo.val with h1 | h1
  · rw [clamp_of_lt h1]; exact ⟨le_rfl, h⟩
  · rcases lt_or_ge hi.val v.val with h2 | h2
    · rw [clamp_of_gt h h2]; exact ⟨h, le_rfl⟩
    · rw [clamp_of_mem h1 h2]; exact ⟨h1, h2⟩

/-! ### The parameter tables -/

theorem scale_pos (i : Fin 6) : 0 < scale i := by fin_cases i <;> norm_num [scale]

theorem rscale_pos (i : Fin 6) : 0 < rscale i := by fin_cases i <;> norm_num [rscale]

/-- A PSET stores a value of the parameter's legal range (45_parameter_access.md R237). -/
theorem unitOf_mem (i : Fin 6) (x : Num) :
    0 ≤ (unitOf Numerics.ideal i x).val ∧ (unitOf Numerics.ideal i x).val ≤ scale i := by
  have h := clamp_mem (v := x) (lo := Numerics.ideal.lit 0) (hi := Numerics.ideal.lit 1) (by simp)
  have hs : (0 : ℝ) < scale i := by exact_mod_cast scale_pos i
  simp only [Numerics.ideal_lit, Rat.cast_zero, Rat.cast_one] at h
  simp only [unitOf, Numerics.ideal_mul, Numerics.ideal_lit]
  exact ⟨mul_nonneg h.1 hs.le, mul_le_of_le_one_left hs.le h.2⟩

/-! ### Configuration -/

@[simp] theorem Numerics.above0_ideal (v : Num) : Numerics.ideal.above0 v = true ↔ 0 < v.val := by
  simp [Numerics.above0]

@[simp] theorem Numerics.upTo_ideal (v : Num) (hi : ℚ) :
    Numerics.ideal.upTo v hi = true ↔ 0 ≤ v.val ∧ v.val ≤ hi := by
  simp [Numerics.upTo]

theorem Cfg.standard_legal : Cfg.standard.Legal := by decide +kernel

theorem Config.cfg_legal : Config.cfg.Legal := by
  unfold Config.cfg
  split_ifs with h
  · exact h
  · exact Cfg.standard_legal

/-- In the ideal instantiation a legal configuration's numbers lie in the ranges of 00_scope.md R7. -/
theorem Cfg.legal_ideal {c : Cfg} (hc : c.num = .ideal) : c.Legal ↔
    0 < c.sr.val ∧ 1 ≤ c.nch ∧ 0 < c.att0.val ∧ 0 < c.dec0.val ∧ 0 < c.rel0.val ∧
      (0 ≤ c.sus0.val ∧ c.sus0.val ≤ 1) ∧ ∀ i : Fin 6, 0 ≤ c.p0[i].val ∧ c.p0[i].val ≤ scale i := by
  simp [Cfg.Legal, hc]

/-! ### The sine, the pitch mapping, the Noise draw -/

@[simp] theorem sinTwoPi_val (p : Num) : (sinTwoPi Numerics.ideal p).val = Real.sin (2 * Real.pi * p.val) := by
  simp [sinTwoPi]

/-- The equal-tempered mapping (44_voice_engine.md R194). -/
theorem pitchToFreq_val (d : Byte) :
    (pitchToFreq Numerics.ideal d).val = 440 * (2 : ℝ) ^ (((d.toNat : ℝ) - 69) / 12) := by
  simp [pitchToFreq]

theorem noiseDraw_mem (n : ℕ) :
    -1 ≤ (noiseDraw Numerics.ideal n).val ∧ (noiseDraw Numerics.ideal n).val < 1 := by
  unfold noiseDraw
  split_ifs with h
  · rw [Bool.and_eq_true, Numerics.ideal_le, Numerics.ideal_lt, Numerics.ideal_lit, Numerics.ideal_lit] at h
    push_cast at h
    exact h
  · simp

end Sys2Proof
end

