-- ==== Sys2Proof/Laws/State.lean ====
section
/-! SUPPORT. One lemma per field per update of the state, each true by unfolding once, so that no later proof unfolds a
record update. -/

namespace Sys2Proof.Machine

set_option Elab.async false -- one theorem at a time: each would take a thread of its own

/-! ### setOsc -/

@[simp] theorem State.setOsc_osc (s : State) (i : Fin 5) (o : Osc) : (s.setOsc i o).osc = s.osc.set i o := rfl
@[simp] theorem State.setOsc_env (s : State) (i : Fin 5) (o : Osc) : (s.setOsc i o).env = s.env := rfl
@[simp] theorem State.setOsc_filt (s : State) (i : Fin 5) (o : Osc) : (s.setOsc i o).filt = s.filt := rfl
@[simp] theorem State.setOsc_lfo (s : State) (i : Fin 5) (o : Osc) : (s.setOsc i o).lfo = s.lfo := rfl
@[simp] theorem State.setOsc_ve (s : State) (i : Fin 5) (o : Osc) : (s.setOsc i o).ve = s.ve := rfl
@[simp] theorem State.setOsc_ps (s : State) (i : Fin 5) (o : Osc) : (s.setOsc i o).ps = s.ps := rfl
@[simp] theorem State.setOsc_cfg (s : State) (i : Fin 5) (o : Osc) : (s.setOsc i o).cfg = s.cfg := rfl
@[simp] theorem State.setOsc_out (s : State) (i : Fin 5) (o : Osc) : (s.setOsc i o).out = s.out := rfl
@[simp] theorem State.setOsc_draws (s : State) (i : Fin 5) (o : Osc) : (s.setOsc i o).draws = s.draws := rfl
@[simp] theorem State.setOsc_loads (s : State) (i : Fin 5) (o : Osc) : (s.setOsc i o).loads = s.loads := rfl
@[simp] theorem State.setOsc_inbox (s : State) (i : Fin 5) (o : Osc) : (s.setOsc i o).inbox = s.inbox := rfl

/-! ### setEnv -/

@[simp] theorem State.setEnv_osc (s : State) (e : Env) : (s.setEnv e).osc = s.osc := rfl
@[simp] theorem State.setEnv_env (s : State) (e : Env) : (s.setEnv e).env = e := rfl
@[simp] theorem State.setEnv_filt (s : State) (e : Env) : (s.setEnv e).filt = s.filt := rfl
@[simp] theorem State.setEnv_lfo (s : State) (e : Env) : (s.setEnv e).lfo = s.lfo := rfl
@[simp] theorem State.setEnv_ve (s : State) (e : Env) : (s.setEnv e).ve = s.ve := rfl
@[simp] theorem State.setEnv_ps (s : State) (e : Env) : (s.setEnv e).ps = s.ps := rfl
@[simp] theorem State.setEnv_cfg (s : State) (e : Env) : (s.setEnv e).cfg = s.cfg := rfl
@[simp] theorem State.setEnv_out (s : State) (e : Env) : (s.setEnv e).out = s.out := rfl
@[simp] theorem State.setEnv_draws (s : State) (e : Env) : (s.setEnv e).draws = s.draws := rfl
@[simp] theorem State.setEnv_loads (s : State) (e : Env) : (s.setEnv e).loads = s.loads := rfl
@[simp] theorem State.setEnv_inbox (s : State) (e : Env) : (s.setEnv e).inbox = s.inbox := rfl

/-! ### setFilt -/

@[simp] theorem State.setFilt_osc (s : State) (f : Filt) : (s.setFilt f).osc = s.osc := rfl
@[simp] theorem State.setFilt_env (s : State) (f : Filt) : (s.setFilt f).env = s.env := rfl
@[simp] theorem State.setFilt_filt (s : State) (f : Filt) : (s.setFilt f).filt = f := rfl
@[simp] theorem State.setFilt_lfo (s : State) (f : Filt) : (s.setFilt f).lfo = s.lfo := rfl
@[simp] theorem State.setFilt_ve (s : State) (f : Filt) : (s.setFilt f).ve = s.ve := rfl
@[simp] theorem State.setFilt_ps (s : State) (f : Filt) : (s.setFilt f).ps = s.ps := rfl
@[simp] theorem State.setFilt_cfg (s : State) (f : Filt) : (s.setFilt f).cfg = s.cfg := rfl
@[simp] theorem State.setFilt_out (s : State) (f : Filt) : (s.setFilt f).out = s.out := rfl
@[simp] theorem State.setFilt_draws (s : State) (f : Filt) : (s.setFilt f).draws = s.draws := rfl
@[simp] theorem State.setFilt_loads (s : State) (f : Filt) : (s.setFilt f).loads = s.loads := rfl
@[simp] theorem State.setFilt_inbox (s : State) (f : Filt) : (s.setFilt f).inbox = s.inbox := rfl

/-! ### setLfo -/

@[simp] theorem State.setLfo_osc (s : State) (l : Lfo) : (s.setLfo l).osc = s.osc := rfl
@[simp] theorem State.setLfo_env (s : State) (l : Lfo) : (s.setLfo l).env = s.env := rfl
@[simp] theorem State.setLfo_filt (s : State) (l : Lfo) : (s.setLfo l).filt = s.filt := rfl
@[simp] theorem State.setLfo_lfo (s : State) (l : Lfo) : (s.setLfo l).lfo = l := rfl
@[simp] theorem State.setLfo_ve (s : State) (l : Lfo) : (s.setLfo l).ve = s.ve := rfl
@[simp] theorem State.setLfo_ps (s : State) (l : Lfo) : (s.setLfo l).ps = s.ps := rfl
@[simp] theorem State.setLfo_cfg (s : State) (l : Lfo) : (s.setLfo l).cfg = s.cfg := rfl
@[simp] theorem State.setLfo_out (s : State) (l : Lfo) : (s.setLfo l).out = s.out := rfl
@[simp] theorem State.setLfo_draws (s : State) (l : Lfo) : (s.setLfo l).draws = s.draws := rfl
@[simp] theorem State.setLfo_loads (s : State) (l : Lfo) : (s.setLfo l).loads = s.loads := rfl
@[simp] theorem State.setLfo_inbox (s : State) (l : Lfo) : (s.setLfo l).inbox = s.inbox := rfl

/-! ### setVe -/

@[simp] theorem State.setVe_osc (s : State) (v : Ve) : (s.setVe v).osc = s.osc := rfl
@[simp] theorem State.setVe_env (s : State) (v : Ve) : (s.setVe v).env = s.env := rfl
@[simp] theorem State.setVe_filt (s : State) (v : Ve) : (s.setVe v).filt = s.filt := rfl
@[simp] theorem State.setVe_lfo (s : State) (v : Ve) : (s.setVe v).lfo = s.lfo := rfl
@[simp] theorem State.setVe_ve (s : State) (v : Ve) : (s.setVe v).ve = v := rfl
@[simp] theorem State.setVe_ps (s : State) (v : Ve) : (s.setVe v).ps = s.ps := rfl
@[simp] theorem State.setVe_cfg (s : State) (v : Ve) : (s.setVe v).cfg = s.cfg := rfl
@[simp] theorem State.setVe_out (s : State) (v : Ve) : (s.setVe v).out = s.out := rfl
@[simp] theorem State.setVe_draws (s : State) (v : Ve) : (s.setVe v).draws = s.draws := rfl
@[simp] theorem State.setVe_loads (s : State) (v : Ve) : (s.setVe v).loads = s.loads := rfl
@[simp] theorem State.setVe_inbox (s : State) (v : Ve) : (s.setVe v).inbox = s.inbox := rfl

/-! ### setPar -/

@[simp] theorem State.setPar_osc (s : State) (i : Fin 6) (l : ParLoc) : (s.setPar i l).osc = s.osc := rfl
@[simp] theorem State.setPar_env (s : State) (i : Fin 6) (l : ParLoc) : (s.setPar i l).env = s.env := rfl
@[simp] theorem State.setPar_filt (s : State) (i : Fin 6) (l : ParLoc) : (s.setPar i l).filt = s.filt := rfl
@[simp] theorem State.setPar_lfo (s : State) (i : Fin 6) (l : ParLoc) : (s.setPar i l).lfo = s.lfo := rfl
@[simp] theorem State.setPar_ve (s : State) (i : Fin 6) (l : ParLoc) : (s.setPar i l).ve = s.ve := rfl
@[simp] theorem State.setPar_ps (s : State) (i : Fin 6) (l : ParLoc) : (s.setPar i l).ps = s.ps.set i l := rfl
@[simp] theorem State.setPar_cfg (s : State) (i : Fin 6) (l : ParLoc) : (s.setPar i l).cfg = s.cfg := rfl
@[simp] theorem State.setPar_out (s : State) (i : Fin 6) (l : ParLoc) : (s.setPar i l).out = s.out := rfl
@[simp] theorem State.setPar_draws (s : State) (i : Fin 6) (l : ParLoc) : (s.setPar i l).draws = s.draws := rfl
@[simp] theorem State.setPar_loads (s : State) (i : Fin 6) (l : ParLoc) : (s.setPar i l).loads = s.loads := rfl
@[simp] theorem State.setPar_inbox (s : State) (i : Fin 6) (l : ParLoc) : (s.setPar i l).inbox = s.inbox := rfl

/-! ### quiet -/

@[simp] theorem State.quiet_osc (s : State) : (s.quiet).osc = s.osc := rfl
@[simp] theorem State.quiet_env (s : State) : (s.quiet).env = s.env := rfl
@[simp] theorem State.quiet_filt (s : State) : (s.quiet).filt = s.filt := rfl
@[simp] theorem State.quiet_lfo (s : State) : (s.quiet).lfo = s.lfo := rfl
@[simp] theorem State.quiet_ve (s : State) : (s.quiet).ve = s.ve := rfl
@[simp] theorem State.quiet_ps (s : State) : (s.quiet).ps = s.ps := rfl
@[simp] theorem State.quiet_cfg (s : State) : (s.quiet).cfg = s.cfg := rfl
@[simp] theorem State.quiet_out (s : State) : (s.quiet).out = Ports.none := rfl
@[simp] theorem State.quiet_draws (s : State) : (s.quiet).draws = s.draws := rfl
@[simp] theorem State.quiet_loads (s : State) : (s.quiet).loads = s.loads := rfl
@[simp] theorem State.quiet_inbox (s : State) : (s.quiet).inbox = s.inbox := rfl

/-! ### audWrite -/

@[simp] theorem State.audWrite_osc (s : State) (v : Num) : (s.audWrite v).osc = s.osc := rfl
@[simp] theorem State.audWrite_env (s : State) (v : Num) : (s.audWrite v).env = s.env := rfl
@[simp] theorem State.audWrite_filt (s : State) (v : Num) : (s.audWrite v).filt = s.filt := rfl
@[simp] theorem State.audWrite_lfo (s : State) (v : Num) : (s.audWrite v).lfo = s.lfo := rfl
@[simp] theorem State.audWrite_ve (s : State) (v : Num) : (s.audWrite v).ve = s.ve := rfl
@[simp] theorem State.audWrite_ps (s : State) (v : Num) : (s.audWrite v).ps = s.ps := rfl
@[simp] theorem State.audWrite_cfg (s : State) (v : Num) : (s.audWrite v).cfg = s.cfg := rfl
@[simp] theorem State.audWrite_out (s : State) (v : Num) : (s.audWrite v).out = { s.out with aud := some (List.replicate s.cfg.nch v) } := rfl
@[simp] theorem State.audWrite_draws (s : State) (v : Num) : (s.audWrite v).draws = s.draws := rfl
@[simp] theorem State.audWrite_loads (s : State) (v : Num) : (s.audWrite v).loads = s.loads := rfl
@[simp] theorem State.audWrite_inbox (s : State) (v : Num) : (s.audWrite v).inbox = s.inbox := rfl

/-! ### result -/

@[simp] theorem State.result_osc (s : State) (v : Num) : (s.result v).osc = s.osc := rfl
@[simp] theorem State.result_env (s : State) (v : Num) : (s.result v).env = s.env := rfl
@[simp] theorem State.result_filt (s : State) (v : Num) : (s.result v).filt = s.filt := rfl
@[simp] theorem State.result_lfo (s : State) (v : Num) : (s.result v).lfo = s.lfo := rfl
@[simp] theorem State.result_ve (s : State) (v : Num) : (s.result v).ve = s.ve := rfl
@[simp] theorem State.result_ps (s : State) (v : Num) : (s.result v).ps = s.ps := rfl
@[simp] theorem State.result_cfg (s : State) (v : Num) : (s.result v).cfg = s.cfg := rfl
@[simp] theorem State.result_out (s : State) (v : Num) : (s.result v).out = { s.out with rw := some v } := rfl
@[simp] theorem State.result_draws (s : State) (v : Num) : (s.result v).draws = s.draws := rfl
@[simp] theorem State.result_loads (s : State) (v : Num) : (s.result v).loads = s.loads := rfl
@[simp] theorem State.result_inbox (s : State) (v : Num) : (s.result v).inbox = s.inbox := rfl

/-! ### parWrite -/

@[simp] theorem State.parWrite_osc (s : State) (i : Fin 6) (v : Num) : (s.parWrite i v).osc = s.osc := rfl
@[simp] theorem State.parWrite_env (s : State) (i : Fin 6) (v : Num) : (s.parWrite i v).env = s.env := rfl
@[simp] theorem State.parWrite_filt (s : State) (i : Fin 6) (v : Num) : (s.parWrite i v).filt = s.filt := rfl
@[simp] theorem State.parWrite_lfo (s : State) (i : Fin 6) (v : Num) : (s.parWrite i v).lfo = s.lfo := rfl
@[simp] theorem State.parWrite_ve (s : State) (i : Fin 6) (v : Num) : (s.parWrite i v).ve = s.ve := rfl
@[simp] theorem State.parWrite_ps (s : State) (i : Fin 6) (v : Num) : (s.parWrite i v).ps = s.ps.set i (s.ps[i].store v) := rfl
@[simp] theorem State.parWrite_cfg (s : State) (i : Fin 6) (v : Num) : (s.parWrite i v).cfg = s.cfg := rfl
@[simp] theorem State.parWrite_out (s : State) (i : Fin 6) (v : Num) : (s.parWrite i v).out = s.out := rfl
@[simp] theorem State.parWrite_draws (s : State) (i : Fin 6) (v : Num) : (s.parWrite i v).draws = s.draws := rfl
@[simp] theorem State.parWrite_loads (s : State) (i : Fin 6) (v : Num) : (s.parWrite i v).loads = s.loads := rfl
@[simp] theorem State.parWrite_inbox (s : State) (i : Fin 6) (v : Num) : (s.parWrite i v).inbox = s.inbox := rfl

/-! ### parLoad -/

@[simp] theorem State.parLoad_osc (s : State) (i : Fin 6) : ((s.parLoad i).2).osc = s.osc := rfl
@[simp] theorem State.parLoad_env (s : State) (i : Fin 6) : ((s.parLoad i).2).env = s.env := rfl
@[simp] theorem State.parLoad_filt (s : State) (i : Fin 6) : ((s.parLoad i).2).filt = s.filt := rfl
@[simp] theorem State.parLoad_lfo (s : State) (i : Fin 6) : ((s.parLoad i).2).lfo = s.lfo := rfl
@[simp] theorem State.parLoad_ve (s : State) (i : Fin 6) : ((s.parLoad i).2).ve = s.ve := rfl
@[simp] theorem State.parLoad_ps (s : State) (i : Fin 6) : ((s.parLoad i).2).ps = s.ps.set i (s.ps[i].observe (Config.loadChoice s.loads)) := rfl
@[simp] theorem State.parLoad_cfg (s : State) (i : Fin 6) : ((s.parLoad i).2).cfg = s.cfg := rfl
@[simp] theorem State.parLoad_out (s : State) (i : Fin 6) : ((s.parLoad i).2).out = s.out := rfl
@[simp] theorem State.parLoad_draws (s : State) (i : Fin 6) : ((s.parLoad i).2).draws = s.draws := rfl
@[simp] theorem State.parLoad_loads (s : State) (i : Fin 6) : ((s.parLoad i).2).loads = s.loads + 1 := rfl
@[simp] theorem State.parLoad_inbox (s : State) (i : Fin 6) : ((s.parLoad i).2).inbox = s.inbox := rfl

/-! ### drawNoise -/

@[simp] theorem State.drawNoise_osc (s : State) : (s.drawNoise.2).osc = s.osc := rfl
@[simp] theorem State.drawNoise_env (s : State) : (s.drawNoise.2).env = s.env := rfl
@[simp] theorem State.drawNoise_filt (s : State) : (s.drawNoise.2).filt = s.filt := rfl
@[simp] theorem State.drawNoise_lfo (s : State) : (s.drawNoise.2).lfo = s.lfo := rfl
@[simp] theorem State.drawNoise_ve (s : State) : (s.drawNoise.2).ve = s.ve := rfl
@[simp] theorem State.drawNoise_ps (s : State) : (s.drawNoise.2).ps = s.ps := rfl
@[simp] theorem State.drawNoise_cfg (s : State) : (s.drawNoise.2).cfg = s.cfg := rfl
@[simp] theorem State.drawNoise_out (s : State) : (s.drawNoise.2).out = s.out := rfl
@[simp] theorem State.drawNoise_draws (s : State) : (s.drawNoise.2).draws = s.draws + 1 := rfl
@[simp] theorem State.drawNoise_loads (s : State) : (s.drawNoise.2).loads = s.loads := rfl
@[simp] theorem State.drawNoise_inbox (s : State) : (s.drawNoise.2).inbox = s.inbox := rfl

/-! ### returning -/

@[simp] theorem State.returning_osc (r : Num × State) : (State.returning r).osc = r.2.osc := rfl
@[simp] theorem State.returning_env (r : Num × State) : (State.returning r).env = r.2.env := rfl
@[simp] theorem State.returning_filt (r : Num × State) : (State.returning r).filt = r.2.filt := rfl
@[simp] theorem State.returning_lfo (r : Num × State) : (State.returning r).lfo = r.2.lfo := rfl
@[simp] theorem State.returning_ve (r : Num × State) : (State.returning r).ve = r.2.ve := rfl
@[simp] theorem State.returning_ps (r : Num × State) : (State.returning r).ps = r.2.ps := rfl
@[simp] theorem State.returning_cfg (r : Num × State) : (State.returning r).cfg = r.2.cfg := rfl
@[simp] theorem State.returning_out (r : Num × State) : (State.returning r).out = { r.2.out with ret := some r.1 } := rfl
@[simp] theorem State.returning_draws (r : Num × State) : (State.returning r).draws = r.2.draws := rfl
@[simp] theorem State.returning_loads (r : Num × State) : (State.returning r).loads = r.2.loads := rfl
@[simp] theorem State.returning_inbox (r : Num × State) : (State.returning r).inbox = r.2.inbox := rfl

/-! ### resetInput and resetWith -/

@[simp] theorem State.resetInput_osc (s : State) (c : Cfg) : (s.resetInput c).osc = (State.resetWith c).osc := rfl
@[simp] theorem State.resetInput_env (s : State) (c : Cfg) : (s.resetInput c).env = (State.resetWith c).env := rfl
@[simp] theorem State.resetInput_filt (s : State) (c : Cfg) : (s.resetInput c).filt = (State.resetWith c).filt := rfl
@[simp] theorem State.resetInput_lfo (s : State) (c : Cfg) : (s.resetInput c).lfo = (State.resetWith c).lfo := rfl
@[simp] theorem State.resetInput_ve (s : State) (c : Cfg) : (s.resetInput c).ve = (State.resetWith c).ve := rfl
@[simp] theorem State.resetInput_ps (s : State) (c : Cfg) : (s.resetInput c).ps = (State.resetWith c).ps := rfl
@[simp] theorem State.resetInput_cfg (s : State) (c : Cfg) : (s.resetInput c).cfg = (State.resetWith c).cfg := rfl
@[simp] theorem State.resetInput_out (s : State) (c : Cfg) : (s.resetInput c).out = (State.resetWith c).out := rfl
@[simp] theorem State.resetInput_draws (s : State) (c : Cfg) : (s.resetInput c).draws = s.draws := rfl
@[simp] theorem State.resetInput_loads (s : State) (c : Cfg) : (s.resetInput c).loads = s.loads := rfl
@[simp] theorem State.resetInput_inbox (s : State) (c : Cfg) : (s.resetInput c).inbox = s.inbox := rfl

@[simp] theorem State.resetWith_osc (c : Cfg) :
    (State.resetWith c).osc =
      Vector.ofFn fun i => { ph := c.num.record.lit 0, freq := c.num.record.lit 440, wave := c.wave0[i] } := rfl
@[simp] theorem State.resetWith_env (c : Cfg) :
    (State.resetWith c).env =
      { att := c.att0, dec := c.dec0, sus := c.sus0, rel := c.rel0, stage := .idle, level := c.num.record.lit 0
        sr := c.sr } := rfl
@[simp] theorem State.resetWith_filt (c : Cfg) :
    (State.resetWith c).filt =
      { cutoff := clamp c.num.record c.p0[2] (c.num.record.lit 20) (c.num.record.lit 20000), res := c.p0[3]
        y1 := c.num.record.lit 0, y2 := c.num.record.lit 0 } := rfl
@[simp] theorem State.resetWith_lfo (c : Cfg) :
    (State.resetWith c).lfo = { ph := c.num.record.lit 0, freq := c.p0[4] } := rfl
@[simp] theorem State.resetWith_ve (c : Cfg) : (State.resetWith c).ve = { note := 0, gate := false } := rfl
@[simp] theorem State.resetWith_ps (c : Cfg) :
    (State.resetWith c).ps = Vector.ofFn fun i => ParLoc.reset c.p0[i] := rfl
@[simp] theorem State.resetWith_cfg (c : Cfg) : (State.resetWith c).cfg = c := rfl
@[simp] theorem State.resetWith_out (c : Cfg) : (State.resetWith c).out = Ports.none := rfl
@[simp] theorem State.resetWith_draws (c : Cfg) : (State.resetWith c).draws = 0 := rfl
@[simp] theorem State.resetWith_loads (c : Cfg) : (State.resetWith c).loads = 0 := rfl
@[simp] theorem State.resetWith_inbox (c : Cfg) : (State.resetWith c).inbox = [] := rfl

/-! ### The numerics record: no update but RESET changes it -/

@[simp] theorem State.setOsc_num (s : State) (i : Fin 5) (o : Osc) : (s.setOsc i o).num = s.num := rfl
@[simp] theorem State.setEnv_num (s : State) (e : Env) : (s.setEnv e).num = s.num := rfl
@[simp] theorem State.setFilt_num (s : State) (f : Filt) : (s.setFilt f).num = s.num := rfl
@[simp] theorem State.setLfo_num (s : State) (l : Lfo) : (s.setLfo l).num = s.num := rfl
@[simp] theorem State.setVe_num (s : State) (v : Ve) : (s.setVe v).num = s.num := rfl
@[simp] theorem State.setPar_num (s : State) (i : Fin 6) (l : ParLoc) : (s.setPar i l).num = s.num := rfl
@[simp] theorem State.quiet_num (s : State) : (s.quiet).num = s.num := rfl
@[simp] theorem State.audWrite_num (s : State) (v : Num) : (s.audWrite v).num = s.num := rfl
@[simp] theorem State.result_num (s : State) (v : Num) : (s.result v).num = s.num := rfl
@[simp] theorem State.parWrite_num (s : State) (i : Fin 6) (v : Num) : (s.parWrite i v).num = s.num := rfl
@[simp] theorem State.returning_num (r : Num × State) : (State.returning r).num = r.2.num := rfl
@[simp] theorem State.parLoad_num (s : State) (i : Fin 6) : (s.parLoad i).2.num = s.num := rfl
@[simp] theorem State.drawNoise_num (s : State) : s.drawNoise.2.num = s.num := rfl
@[simp] theorem State.resetWith_num (c : Cfg) : (State.resetWith c).num = c.num.record := rfl

/-! ### The returned values -/

@[simp] theorem State.parLoad_fst (s : State) (i : Fin 6) :
    (s.parLoad i).1 = (s.ps[i].observe (Config.loadChoice s.loads)).seen := rfl
@[simp] theorem State.drawNoise_fst (s : State) : s.drawNoise.1 = noiseDraw s.num s.draws := rfl

/-! ### The two register banks -/

/-- An oscillator write seen at any oscillator: the five register sets are independent (10_state.md R24). -/
theorem State.setOsc_get (s : State) (i j : Fin 5) (o : Osc) :
    (s.setOsc i o).osc[j] = if i = j then o else s.osc[j] := by
  simp [Vector.getElem_set, Fin.ext_iff]

/-- A store-location write seen at any location. -/
theorem State.setPar_get (s : State) (i j : Fin 6) (l : ParLoc) :
    (s.setPar i l).ps[j] = if i = j then l else s.ps[j] := by
  simp [Vector.getElem_set, Fin.ext_iff]

/-- Two states with equal fields are equal. -/
theorem State.eq_of_fields {s t : State} (osc : s.osc = t.osc) (env : s.env = t.env) (filt : s.filt = t.filt)
    (lfo : s.lfo = t.lfo) (ve : s.ve = t.ve) (ps : s.ps = t.ps) (cfg : s.cfg = t.cfg) (out : s.out = t.out)
    (draws : s.draws = t.draws) (loads : s.loads = t.loads) (inbox : s.inbox = t.inbox) : s = t := by
  cases s; cases t; simp_all

end Sys2Proof.Machine
end

