-- ==== Sys2Proof/Laws/Store.lean ====
section
/-! SUPPORT. One location of the parameter store under 20_memory.md R70: what a store, a load and a read of it do to
the values later loads may return. -/

namespace Sys2Proof.Machine

set_option Elab.async false -- one theorem at a time: each would take a thread of its own

@[simp] theorem ParLoc.values_reset (v : Num) : (ParLoc.reset v).values = [v] := rfl

@[simp] theorem ParLoc.newest_reset (v : Num) : (ParLoc.reset v).newest = v := rfl

theorem ParLoc.seen_mem_values (l : ParLoc) : l.seen ∈ l.values := by simp [ParLoc.values]

theorem ParLoc.newest_mem_values (l : ParLoc) : l.newest ∈ l.values := List.getLast_mem _

/-- A store comes after every store before it (R70 point 1). -/
@[simp] theorem ParLoc.values_store (l : ParLoc) (v : Num) : (l.store v).values = l.values ++ [v] := rfl

@[simp] theorem ParLoc.seen_store (l : ParLoc) (v : Num) : (l.store v).seen = l.seen := rfl

/-- The register holds the value of the newest store. -/
@[simp] theorem ParLoc.newest_store (l : ParLoc) (v : Num) : (l.store v).newest = v := by
  simp [ParLoc.newest, ParLoc.store]

/-- A load drops the values before the one it returns (R70 point 2). -/
theorem ParLoc.values_observe (l : ParLoc) (k : Nat) :
    (l.observe k).values = l.values.drop (k % (l.later.length + 1)) := by
  have hlt : k % (l.later.length + 1) < l.later.length + 1 := Nat.mod_lt _ (Nat.succ_pos _)
  unfold ParLoc.observe
  split
  · rename_i h; simp [h, Nat.mod_one]
  · split
    · rename_i h
      have := congrArg List.length h
      simp at this; omega
    · rename_i v rest h
      exact h.symm

/-- A load returns one of the values it may return. -/
theorem ParLoc.seen_observe_mem (l : ParLoc) (k : Nat) : (l.observe k).seen ∈ l.values :=
  List.mem_of_mem_drop (ParLoc.values_observe l k ▸ (l.observe k).seen_mem_values)

/-- A load does not change the register's value. -/
@[simp] theorem ParLoc.newest_observe (l : ParLoc) (k : Nat) : (l.observe k).newest = l.newest := by
  have hlt : k % (l.later.length + 1) < l.later.length + 1 := Nat.mod_lt _ (Nat.succ_pos _)
  have h := ParLoc.values_observe l k
  have h1 : (l.observe k).newest = (l.observe k).values.getLast (List.cons_ne_nil _ _) := rfl
  have h2 : l.newest = l.values.getLast (List.cons_ne_nil _ _) := rfl
  rw [h1, h2]
  simp only [h]
  exact List.getLast_drop _

/-- A location with no store the R agent has not observed: a load returns the register's value and changes nothing. -/
theorem ParLoc.observe_of_settled {l : ParLoc} (h : l.later = []) (k : Nat) : l.observe k = l := by
  simp [ParLoc.observe, h]

/-- Every value a load may return is the one it returns for some choice (R70 point 4). -/
theorem ParLoc.observe_reaches (l : ParLoc) (v : Num) (h : v ∈ l.values) : ∃ k, (l.observe k).seen = v := by
  obtain ⟨k, hk, rfl⟩ := List.getElem_of_mem h
  have hk' : k < l.later.length + 1 := by simpa [ParLoc.values] using hk
  refine ⟨k, ?_⟩
  have hv := ParLoc.values_observe l k
  rw [Nat.mod_eq_of_lt hk', List.drop_eq_getElem_cons hk] at hv
  exact (List.cons.inj hv).1

theorem State.par_eq (s : State) (i : Fin 6) : s.par i = s.ps[i].newest := rfl

/-- The store of one location leaves the other five alone. -/
theorem State.par_parWrite (s : State) (i j : Fin 6) (v : Num) :
    (s.parWrite i v).par j = if i = j then v else s.par j := by
  rw [State.par_eq, State.parWrite, State.setPar_get]
  split_ifs with h
  · subst h; simp
  · rfl

/-- A load changes no register's value (20_memory.md R67). -/
theorem State.par_parLoad (s : State) (i j : Fin 6) : (s.parLoad i).2.par j = s.par j := by
  show ((s.setPar i (s.ps[i].observe (Config.loadChoice s.loads))).ps[j]).newest = s.ps[j].newest
  rw [State.setPar_get]
  split_ifs with h
  · subst h; simp
  · rfl

end Sys2Proof.Machine
end

