-- ==== Sys2Proof/Laws/Tick.lean ====
section
/-! SUPPORT. What each part of a gated TICK does to each component of the state (44_voice_engine.md R196 to R203): one
lemma per part and component, and at the end one per component for the render as a whole. -/

namespace Sys2Proof.Machine

set_option Elab.async false -- one theorem at a time: each would take a thread of its own

/-! ### OSC.ADVANCE and OSC.GEN -/

@[simp] theorem oscAdvance_env (i : Fin 5) (s : State) : (oscAdvance i s).env = s.env := rfl
@[simp] theorem oscAdvance_filt (i : Fin 5) (s : State) : (oscAdvance i s).filt = s.filt := rfl
@[simp] theorem oscAdvance_lfo (i : Fin 5) (s : State) : (oscAdvance i s).lfo = s.lfo := rfl
@[simp] theorem oscAdvance_ve (i : Fin 5) (s : State) : (oscAdvance i s).ve = s.ve := rfl
@[simp] theorem oscAdvance_ps (i : Fin 5) (s : State) : (oscAdvance i s).ps = s.ps := rfl
@[simp] theorem oscAdvance_cfg (i : Fin 5) (s : State) : (oscAdvance i s).cfg = s.cfg := rfl
@[simp] theorem oscAdvance_out (i : Fin 5) (s : State) : (oscAdvance i s).out = s.out := rfl
@[simp] theorem oscAdvance_draws (i : Fin 5) (s : State) : (oscAdvance i s).draws = s.draws := rfl
@[simp] theorem oscAdvance_loads (i : Fin 5) (s : State) : (oscAdvance i s).loads = s.loads := rfl
@[simp] theorem oscAdvance_inbox (i : Fin 5) (s : State) : (oscAdvance i s).inbox = s.inbox := rfl

@[simp] theorem Osc.advance_ph (N : Numerics) (o : Osc) (sr : Num) :
    (o.advance N sr).ph = advancePhase N o.ph o.freq sr := rfl
@[simp] theorem Osc.advance_freq (N : Numerics) (o : Osc) (sr : Num) : (o.advance N sr).freq = o.freq := rfl
@[simp] theorem Osc.advance_wave (N : Numerics) (o : Osc) (sr : Num) : (o.advance N sr).wave = o.wave := rfl

theorem oscAdvance_get (i j : Fin 5) (s : State) :
    (oscAdvance i s).osc[j] = if i = j then s.osc[j].advance s.num s.cfg.sr else s.osc[j] := by
  rw [oscAdvance, State.setOsc_get]
  split_ifs with h
  · subst h; rfl
  · rfl

/-- A waveform's sample takes at most one draw and changes nothing else. -/
theorem waveSample_state (w : Waveform) (p : Num) (s : State) :
    (waveSample w p s).2 = { s with draws := s.draws + drawsOf w } := by
  cases w <;> rfl

theorem waveSample_value (w : Waveform) (p : Num) (s : State) :
    (waveSample w p s).1 = sampleAt s.num w p s.draws := by cases w <;> rfl

theorem oscGen_value (i : Fin 5) (s : State) :
    (oscGen i s).1 = sampleAt s.num s.osc[i].wave s.osc[i].ph s.draws := waveSample_value _ _ _

/-- OSC.GEN(i) writes `OSC[i].PH` and nothing else but the draw count (R129). -/
theorem oscGen_state (i : Fin 5) (s : State) :
    (oscGen i s).2 =
      { s with
        osc := s.osc.set i (s.osc[i].advance s.num s.cfg.sr)
        draws := s.draws + drawsOf s.osc[i].wave } := by
  show oscAdvance i (waveSample s.osc[i].wave s.osc[i].ph s).2 = _
  rw [waveSample_state]
  rfl

/-! ### The mix (R198) -/

theorem vector5_eta {α : Type} (v : Vector α 5) : v = #v[v[0], v[1], v[2], v[3], v[4]] := by
  ext i hi
  interval_cases i <;> rfl

/-- The state after step 2: every phase advanced once, the draws of the Noise oscillators taken. -/
theorem mixBank_state (s : State) :
    (mixBank s).2 =
      { s with
        osc := s.osc.map fun o => o.advance s.num s.cfg.sr
        draws := s.draws + drawsBefore s.osc 5 } := by
  obtain ⟨a, b, c, d, e, h⟩ : ∃ a b c d e, s.osc = #v[a, b, c, d, e] := ⟨_, _, _, _, _, vector5_eta _⟩
  cases s
  simp only at h
  subst h
  simp [mixBank, sumBank, addOsc, State.num, oscGen_state, drawsBefore, Nat.add_assoc]

/-- The mix of step 2: the five samples of the phases before the advance, in index order, scaled by 0.5. -/
theorem mixBank_value (s : State) :
    (mixBank s).1 = mixOf s.num s.osc s.draws := by
  obtain ⟨a, b, c, d, e, h⟩ : ∃ a b c d e, s.osc = #v[a, b, c, d, e] := ⟨_, _, _, _, _, vector5_eta _⟩
  cases s
  simp only at h
  subst h
  simp [mixOf, mixBank, sumBank, addOsc, State.num, oscGen_state, oscGen_value, drawsBefore, Nat.add_assoc]

/-! ### Step 4 (R200, R201) -/

/-- The value the n-th load of a TICK (from 0) returns if it is of location `i` and no other load of the TICK is. -/
def State.loaded (s : State) (i : Fin 6) (n : Nat) : Num :=
  (s.ps[i].observe (Config.loadChoice (s.loads + n))).seen

theorem State.loaded_mem (s : State) (i : Fin 6) (n : Nat) : s.loaded i n ∈ s.ps[i].values :=
  ParLoc.seen_observe_mem _ _

/-- The store after the four loads of a TICK: the locations 2 to 5 each observed once (20_memory.md R68). -/
def State.storeLoaded (s : State) : Vector ParLoc 6 :=
  (((s.ps.set 4 (s.ps[4].observe (Config.loadChoice s.loads))).set 3
    (s.ps[3].observe (Config.loadChoice (s.loads + 1)))).set 2
    (s.ps[2].observe (Config.loadChoice (s.loads + 2)))).set 5
    (s.ps[5].observe (Config.loadChoice (s.loads + 3)))

/-- Step 4 whole: the latches from parameters 4 and 3, the LFO's advance at the latched rate, the cutoff from the LFO's
value before that advance and parameters 2 and 5; and the four loads. -/
theorem stepFour_eq (s : State) :
    stepFour s =
      { s with
        lfo := { ph := advancePhase s.num s.lfo.ph (s.loaded 4 0) s.cfg.sr, freq := s.loaded 4 0 }
        filt :=
          { s.filt with
            res := s.loaded 3 1
            cutoff := modulatedCutoff s.num (s.loaded 2 2) (sinTwoPi s.num s.lfo.ph) (s.loaded 5 3) }
        ps := s.storeLoaded
        loads := s.loads + 4 } := by
  cases s
  simp [stepFour, modulate, latchRes, latchLfoFreq, lfoProcess, State.num, State.parLoad, State.setLfo, State.setFilt,
    State.setPar, State.loaded, State.storeLoaded]

/-! ### The render -/

/-- The registers of the filter after a gated TICK's step 4. -/
def State.filtAfterFour (s : State) : Filt :=
  { s.filt with
    res := s.loaded 3 1
    cutoff := modulatedCutoff s.num (s.loaded 2 2) (sinTwoPi s.num s.lfo.ph) (s.loaded 5 3) }

/-- The amplitude-scaled mix of a gated TICK (R198, R199). -/
def State.scaledMix (s : State) : Num := s.num.mul (mixOf s.num s.osc s.draws) (s.env.process s.num).level

theorem beforeFilter_value (s : State) : (beforeFilter s).1 = s.scaledMix := by
  simp only [beforeFilter, envProcess, State.envReturning, mixBank_state, mixBank_value]
  rfl

/-- The state after steps 2 to 4: everything but the filter's run. -/
theorem beforeFilter_state (s : State) :
    (beforeFilter s).2 =
      { s with
        osc := s.osc.map fun o => o.advance s.num s.cfg.sr
        env := s.env.process s.num
        lfo := { ph := advancePhase s.num s.lfo.ph (s.loaded 4 0) s.cfg.sr, freq := s.loaded 4 0 }
        filt := s.filtAfterFour
        ps := s.storeLoaded
        draws := s.draws + drawsBefore s.osc 5
        loads := s.loads + 4 } := by
  simp only [beforeFilter, envProcess, State.envReturning, mixBank_state, stepFour_eq]
  rfl

/-- The numbers a gated TICK divides by, from the state before it. -/
theorem renderDivisors_eq (s : State) :
    renderDivisors s = s.cfg.sr :: s.env.divisorsOf s.num s.env.stage ++ s.filtAfterFour.divisors s.num s.cfg.sr := by
  rw [renderDivisors, beforeFilter_state]

/-- A gated TICK, component by component (R196): the state after it, from the state before it. -/
theorem render_eq (s : State) :
    render s =
      { s with
        osc := s.osc.map fun o => o.advance s.num s.cfg.sr
        env := s.env.process s.num
        lfo := { ph := advancePhase s.num s.lfo.ph (s.loaded 4 0) s.cfg.sr, freq := s.loaded 4 0 }
        filt := s.filtAfterFour.process s.num s.scaledMix s.cfg.sr
        ps := s.storeLoaded
        out :=
          { s.out with
            aud := some (List.replicate s.cfg.nch (s.filtAfterFour.process s.num s.scaledMix s.cfg.sr).y2) }
        draws := s.draws + drawsBefore s.osc 5
        loads := s.loads + 4 } := by
  simp only [render, beforeFilter_value, beforeFilter_state, lpfProcess]
  rfl

/-- Every location after a TICK's loads keeps its register's value (20_memory.md R67). -/
theorem State.storeLoaded_newest (s : State) (i : Fin 6) : s.storeLoaded[i].newest = s.ps[i].newest := by
  fin_cases i <;> simp [State.storeLoaded]

/-- A TICK's loads only drop values from the front of a location's list (20_memory.md R70 point 2). -/
theorem State.storeLoaded_suffix (s : State) (i : Fin 6) : s.storeLoaded[i].values <:+ s.ps[i].values := by
  have key : ∀ (l : ParLoc) (k : Nat), (l.observe k).values <:+ l.values := fun l k =>
    ParLoc.values_observe l k ▸ List.drop_suffix _ _
  fin_cases i <;> simp [State.storeLoaded, key]

/-- The values still to be loaded after a TICK were to be loaded before it. -/
theorem State.storeLoaded_values (s : State) (i : Fin 6) {v : Num} (h : v ∈ s.storeLoaded[i].values) :
    v ∈ s.ps[i].values := by
  have key : ∀ (l : ParLoc) (k : Nat), v ∈ (l.observe k).values → v ∈ l.values := fun l k hv =>
    List.mem_of_mem_drop (ParLoc.values_observe l k ▸ hv)
  fin_cases i <;> simp [State.storeLoaded] at h ⊢ <;> first | exact h | exact key _ _ h

end Sys2Proof.Machine
end

