-- ==== Sys2Proof/Laws/Exec.lean ====
section
/-! SUPPORT. The next state of every instruction, and what one step can do: the lemmas a proof about `exec` or `step`
cites instead of unfolding them. -/

namespace Sys2Proof.Machine

set_option Elab.async false -- one theorem at a time: each would take a thread of its own

/-- The state every instruction leaves where it divides by no 0 (44_voice_engine.md R206). -/
def after : Instr → State → State
  | .tick, s => if s.ve.gate then render s.quiet else s.quiet.audWrite (s.num.lit 0)
  | .noteOff data1 _, s => if data1 = s.ve.note then s.quiet.setEnv s.env.release else s.quiet
  | .noteOn data1 _, s =>
    { s with
      osc := (s.osc.set 0 { s.osc[0] with freq := pitchToFreq s.num data1 }).set 1
        { s.osc[1] with freq := s.num.mul (pitchToFreq s.num data1) (s.num.lit (101 / 100)) }
      env := s.env.trigger s.num
      ve := { note := data1, gate := true }
      out := Ports.none }
  | .evtIgnored _ _ _, s | .psetRsvd _ _, s | .rsvd _ _, s => s.quiet
  | .envsetA v, s => s.quiet.setEnv { s.env with att := v }
  | .envsetD v, s => s.quiet.setEnv { s.env with dec := v }
  | .envsetS v, s => s.quiet.setEnv { s.env with sus := v }
  | .envsetR v, s => s.quiet.setEnv { s.env with rel := v }
  | .pset0 x, s => s.pset 0 x
  | .pset1 x, s => s.pset 1 x
  | .pset2 x, s => s.pset 2 x
  | .pset3 x, s => s.pset 3 x
  | .pset4 x, s => s.pset 4 x
  | .pset5 x, s => s.pset 5 x
  | .pget0, s => s.pget 0
  | .pget1, s => s.pget 1
  | .pget2, s => s.pget 2
  | .pget3, s => s.pget 3
  | .pget4, s => s.pget 4
  | .pget5, s => s.pget 5
  | .pgetRsvd _, s => s.quiet.result (s.num.lit 0)
  | .oscGenSine p, s => State.returning (waveSample .sine p s.quiet)
  | .oscGenSaw p, s => State.returning (waveSample .saw p s.quiet)
  | .oscGenSquare p, s => State.returning (waveSample .square p s.quiet)
  | .oscGenTriangle p, s => State.returning (waveSample .triangle p s.quiet)
  | .oscGenNoise, s => State.returning s.quiet.drawNoise
  | .envProcessIdle, s => State.returning (s.quiet.envReturning (s.env.idleArm s.num))
  | .envProcessAttack, s => State.returning (s.quiet.envReturning (s.env.attackArm s.num))
  | .envProcessDecay, s => State.returning (s.quiet.envReturning (s.env.decayArm s.num))
  | .envProcessSustain, s => State.returning (s.quiet.envReturning s.env)
  | .envProcessRelease, s => State.returning (s.quiet.envReturning (s.env.releaseArm s.num))
  | .oscGen i, s => State.returning (oscGen i s.quiet)
  | .oscAdvance i, s => oscAdvance i s.quiet
  | .envProcess, s => State.returning (envProcess s.quiet)
  | .envTrigger, s => s.quiet.setEnv (s.env.trigger s.num)
  | .envRelease, s => s.quiet.setEnv s.env.release
  | .lpfProcess x, s => State.returning (lpfProcess x s.quiet)
  | .lfoProcess, s => State.returning (lfoProcess s.quiet)

/-- What every instruction answers: its next state, or the refusal of a division by 0 in the ideal instantiation. -/
theorem exec_eq (i : Instr) (s : State) : exec i s = s.dividing (divisors i s) (after i s) := by
  cases i
  case tick =>
    show execTick s = _
    unfold execTick
    simp only [divisors, after]
    split_ifs <;> rfl
  all_goals rfl

theorem State.dividing_next {s t u : State} {l : List Num} (h : s.dividing l t = .next u) : u = t := by
  unfold State.dividing at h
  split_ifs at h
  cases h; rfl

/-- A division by numbers that are not 0 goes on. -/
theorem State.dividing_of_divides {s : State} {l : List Num} (t : State) (h : s.Ideal → ∀ d ∈ l, d.val ≠ 0) :
    s.dividing l t = .next t :=
  if_pos (List.all_eq_true.2 fun d hd => NumSystem.divides_of_val fun hi => h hi d hd)

theorem State.dividing_iff {s t u : State} {l : List Num} :
    s.dividing l t = .next u ↔ u = t ∧ (s.Ideal → ∀ d ∈ l, d.val ≠ 0) := by
  refine ⟨fun h => ⟨State.dividing_next h, fun hi d hd => ?_⟩, fun ⟨h, hd⟩ => h ▸ State.dividing_of_divides t hd⟩
  unfold State.dividing at h
  split_ifs at h with ha
  exact NumSystem.divides_iff.1 (List.all_eq_true.1 ha d hd) hi

/-- A division by 0 in the ideal instantiation is refused (00_scope.md R11). -/
theorem State.dividing_zero {s : State} {l : List Num} (t : State) (hi : s.Ideal) (h : ∃ d ∈ l, d.val = 0) :
    s.dividing l t = .refused .divisionByZero := by
  obtain ⟨d, hd, hz⟩ := h
  refine if_neg fun ha => ?_
  exact NumSystem.divides_iff.1 (List.all_eq_true.1 ha d hd) hi hz

/-- An instruction completes where it divides by no 0. -/
theorem exec_of_divides {i : Instr} {s : State} (h : Divides i s) : exec i s = .next (after i s) := by
  rw [exec_eq]; exact State.dividing_of_divides _ h

/-- An instruction that divides by nothing completes. -/
theorem exec_of_no_divisor {i : Instr} {s : State} (h : divisors i s = []) : exec i s = .next (after i s) :=
  exec_of_divides fun _ d hd => by rw [h] at hd; cases hd

theorem exec_next {i : Instr} {s t : State} (h : exec i s = .next t) : t = after i s := by
  rw [exec_eq] at h; exact State.dividing_next h

theorem exec_next_iff (i : Instr) (s t : State) : exec i s = .next t ↔ t = after i s ∧ Divides i s := by
  rw [exec_eq]; exact State.dividing_iff

/-! ### The next state, instruction by instruction -/

theorem after_tick (s : State) :
    after .tick s = if s.ve.gate then render s.quiet else s.quiet.audWrite (s.num.lit 0) := rfl

theorem after_noteOff (d1 d2 : Byte) (s : State) :
    after (.noteOff d1 d2) s = if d1 = s.ve.note then s.quiet.setEnv s.env.release else s.quiet := rfl

theorem after_noteOn (d1 d2 : Byte) (s : State) :
    after (.noteOn d1 d2) s =
      { s with
        osc := (s.osc.set 0 { s.osc[0] with freq := pitchToFreq s.num d1 }).set 1
          { s.osc[1] with freq := s.num.mul (pitchToFreq s.num d1) (s.num.lit (101 / 100)) }
        env := s.env.trigger s.num
        ve := { note := d1, gate := true }
        out := Ports.none } := rfl

/-- The parameter a PSET of index 0 to 5 stores to, and its operand. -/
def Instr.psetOperand : Instr → Option (Fin 6 × Num)
  | .pset0 x => some (0, x)
  | .pset1 x => some (1, x)
  | .pset2 x => some (2, x)
  | .pset3 x => some (3, x)
  | .pset4 x => some (4, x)
  | .pset5 x => some (5, x)
  | _ => none

theorem after_pset {i : Instr} {k : Fin 6} {x : Num} (h : Instr.psetOperand i = some (k, x)) (s : State) :
    after i s = s.pset k x := by
  cases i <;> simp [Instr.psetOperand] at h <;> obtain ⟨rfl, rfl⟩ := h <;> rfl

/-! ### What a component of the state can become -/

/-- The oscillator bank: advanced by a gated TICK, one oscillator advanced by OSC.GEN or OSC.ADVANCE, retuned by
NOTE_ON, else unchanged. -/
theorem after_osc (i : Instr) (s : State) :
    (after i s).osc = s.osc ∨
    (i = .tick ∧ s.ve.gate = true ∧ (after i s).osc = s.osc.map fun o => o.advance s.num s.cfg.sr) ∨
    (∃ n : Fin 5, (i = .oscGen n ∨ i = .oscAdvance n) ∧
      (after i s).osc = s.osc.set n (s.osc[n].advance s.num s.cfg.sr)) ∨
    (∃ d1 d2, i = .noteOn d1 d2 ∧
      (after i s).osc = (s.osc.set 0 { s.osc[0] with freq := pitchToFreq s.num d1 }).set 1
        { s.osc[1] with freq := s.num.mul (pitchToFreq s.num d1) (s.num.lit (101 / 100)) }) := by
  cases i
  case tick =>
    rw [after_tick]
    split_ifs with h
    · right; left; exact ⟨rfl, h, by rw [render_eq]; rfl⟩
    · left; rfl
  case noteOff d1 d2 => rw [after_noteOff]; split_ifs <;> exact .inl rfl
  case noteOn d1 d2 => exact .inr (.inr (.inr ⟨d1, d2, rfl, rfl⟩))
  case oscGen n =>
    refine .inr (.inr (.inl ⟨n, .inl rfl, ?_⟩))
    show (State.returning (oscGen n s.quiet)).osc = _
    rw [State.returning_osc, oscGen_state]; rfl
  case oscAdvance n => exact .inr (.inr (.inl ⟨n, .inr rfl, rfl⟩))
  all_goals exact .inl rfl

/-- One oscillator: advanced, retuned by NOTE_ON (numbers 0 and 1 only), else unchanged. -/
theorem after_osc_get (i : Instr) (s : State) (j : Fin 5) :
    (after i s).osc[j] = s.osc[j] ∨
    (((i = .tick ∧ s.ve.gate = true) ∨ i = .oscGen j ∨ i = .oscAdvance j) ∧
      (after i s).osc[j] = s.osc[j].advance s.num s.cfg.sr) ∨
    (j.val < 2 ∧ (∃ d1 d2, i = .noteOn d1 d2) ∧ ∃ f, (after i s).osc[j] = { s.osc[j] with freq := f }) := by
  rcases after_osc i s with e | ⟨h, g, e⟩ | ⟨n, h, e⟩ | ⟨d1, d2, h, e⟩
  · exact .inl (by rw [e])
  · exact .inr (.inl ⟨.inl ⟨h, g⟩, by rw [e]; simp⟩)
  · have := State.setOsc_get s n j (s.osc[n].advance s.num s.cfg.sr)
    rw [State.setOsc_osc, ← e] at this
    split_ifs at this with hk
    · subst hk; exact .inr (.inl ⟨.inr h, this⟩)
    · exact .inl this
  · by_cases hj : j.val < 2
    · refine .inr (.inr ⟨hj, ⟨d1, d2, h⟩, ?_⟩)
      rw [e]
      obtain ⟨j, hj'⟩ := j
      interval_cases j
      · exact ⟨pitchToFreq s.num d1, by simp⟩
      · exact ⟨s.num.mul (pitchToFreq s.num d1) (s.num.lit (101 / 100)), by simp⟩
    · left
      rw [e]
      simp only [Fin.getElem_fin, Vector.getElem_set]
      rw [if_neg (by omega), if_neg (by omega)]

/-- The gate and the note: written by NOTE_ON only (10_state.md R34, R35). -/
theorem after_ve (i : Instr) (s : State) :
    (after i s).ve = s.ve ∨ ∃ d1 d2, i = .noteOn d1 d2 ∧ (after i s).ve = { note := d1, gate := true } := by
  cases i
  case tick => rw [after_tick]; split_ifs <;> left; · rw [render_eq]; rfl
               · rfl
  case noteOff d1 d2 => rw [after_noteOff]; split_ifs <;> exact .inl rfl
  case noteOn d1 d2 => exact .inr ⟨d1, d2, rfl, rfl⟩
  case oscGen n =>
    left; show (State.returning (oscGen n s.quiet)).ve = _
    rw [State.returning_ve, oscGen_state]; rfl
  all_goals exact .inl rfl

/-- The envelope: what each instruction makes of its registers. -/
theorem after_env (i : Instr) (s : State) :
    (after i s).env = s.env ∨ (after i s).env = s.env.idleArm s.num ∨ (after i s).env = s.env.attackArm s.num ∨
    (after i s).env = s.env.decayArm s.num ∨ (after i s).env = s.env.releaseArm s.num ∨
    (after i s).env = s.env.process s.num ∨ (after i s).env = s.env.trigger s.num ∨ (after i s).env = s.env.release ∨
    (∃ v, i = .envsetA v ∧ (after i s).env = { s.env with att := v }) ∨
    (∃ v, i = .envsetD v ∧ (after i s).env = { s.env with dec := v }) ∨
    (∃ v, i = .envsetS v ∧ (after i s).env = { s.env with sus := v }) ∨
    (∃ v, i = .envsetR v ∧ (after i s).env = { s.env with rel := v }) := by
  cases i
  case tick =>
    rw [after_tick]
    split_ifs
    · rw [render_eq]; simp
    · simp
  case noteOff d1 d2 => rw [after_noteOff]; split_ifs <;> simp
  case noteOn d1 d2 => rw [after_noteOn]; simp
  case oscGen n =>
    left; show (State.returning (oscGen n s.quiet)).env = _
    rw [State.returning_env, oscGen_state]; rfl
  case envProcessIdle => exact .inr (.inl rfl)
  case envProcessAttack => exact .inr (.inr (.inl rfl))
  case envProcessDecay => exact .inr (.inr (.inr (.inl rfl)))
  case envProcessRelease => exact .inr (.inr (.inr (.inr (.inl rfl))))
  case envProcess => exact .inr (.inr (.inr (.inr (.inr (.inl rfl)))))
  case envTrigger => exact .inr (.inr (.inr (.inr (.inr (.inr (.inl rfl))))))
  case envRelease => exact .inr (.inr (.inr (.inr (.inr (.inr (.inr (.inl rfl)))))))
  case envsetA v => exact .inr (.inr (.inr (.inr (.inr (.inr (.inr (.inr (.inl ⟨v, rfl, rfl⟩))))))))
  case envsetD v => exact .inr (.inr (.inr (.inr (.inr (.inr (.inr (.inr (.inr (.inl ⟨v, rfl, rfl⟩)))))))))
  case envsetS v =>
    exact .inr (.inr (.inr (.inr (.inr (.inr (.inr (.inr (.inr (.inr (.inl ⟨v, rfl, rfl⟩))))))))))
  case envsetR v =>
    exact .inr (.inr (.inr (.inr (.inr (.inr (.inr (.inr (.inr (.inr (.inr ⟨v, rfl, rfl⟩))))))))))
  all_goals exact .inl rfl

/-- The filter and the LFO: written by a gated TICK and by the micro-operation of each, else unchanged. -/
theorem after_filt_lfo (i : Instr) (s : State) :
    ((after i s).filt = s.filt ∧ (after i s).lfo = s.lfo) ∨
    (i = .tick ∧ s.ve.gate = true ∧
      (∃ x, (after i s).filt = (s.filtAfterFour).process s.num x s.cfg.sr) ∧
      (after i s).lfo = { ph := advancePhase s.num s.lfo.ph (s.loaded 4 0) s.cfg.sr, freq := s.loaded 4 0 }) ∨
    (∃ x, i = .lpfProcess x ∧ (after i s).filt = s.filt.process s.num x s.cfg.sr ∧ (after i s).lfo = s.lfo) ∨
    (i = .lfoProcess ∧ (after i s).filt = s.filt ∧
      (after i s).lfo = { s.lfo with ph := advancePhase s.num s.lfo.ph s.lfo.freq s.cfg.sr }) := by
  cases i
  case tick =>
    rw [after_tick]
    split_ifs with h
    · right; left; rw [render_eq]; exact ⟨rfl, h, ⟨_, rfl⟩, rfl⟩
    · left; exact ⟨rfl, rfl⟩
  case noteOff d1 d2 => rw [after_noteOff]; split_ifs <;> exact .inl ⟨rfl, rfl⟩
  case lpfProcess x => exact .inr (.inr (.inl ⟨x, rfl, rfl, rfl⟩))
  case lfoProcess => exact .inr (.inr (.inr ⟨rfl, rfl, rfl⟩))
  case oscGen n =>
    left; show (State.returning (oscGen n s.quiet)).filt = _ ∧ (State.returning (oscGen n s.quiet)).lfo = _
    rw [State.returning_filt, State.returning_lfo, oscGen_state]; exact ⟨rfl, rfl⟩
  all_goals exact .inl ⟨rfl, rfl⟩

/-- The parameter store: written by PSET.0 to PSET.5, observed by a gated TICK, else unchanged. -/
theorem after_ps (i : Instr) (s : State) :
    (after i s).ps = s.ps ∨ (i = .tick ∧ s.ve.gate = true ∧ (after i s).ps = s.storeLoaded) ∨
    ∃ k x, Instr.psetOperand i = some (k, x) ∧ (after i s).ps = s.ps.set k (s.ps[k].store (unitOf s.num k x)) := by
  cases i
  case tick =>
    rw [after_tick]
    split_ifs with h
    · right; left; rw [render_eq]; exact ⟨rfl, h, rfl⟩
    · left; rfl
  case noteOff d1 d2 => rw [after_noteOff]; split_ifs <;> exact .inl rfl
  case oscGen n =>
    left; show (State.returning (oscGen n s.quiet)).ps = _
    rw [State.returning_ps, oscGen_state]; rfl
  case pset0 x => exact .inr (.inr ⟨0, x, rfl, rfl⟩)
  case pset1 x => exact .inr (.inr ⟨1, x, rfl, rfl⟩)
  case pset2 x => exact .inr (.inr ⟨2, x, rfl, rfl⟩)
  case pset3 x => exact .inr (.inr ⟨3, x, rfl, rfl⟩)
  case pset4 x => exact .inr (.inr ⟨4, x, rfl, rfl⟩)
  case pset5 x => exact .inr (.inr ⟨5, x, rfl, rfl⟩)
  all_goals exact .inl rfl

/-- The instruction a parameter's PSET is. -/
theorem psetOperand_eq {i : Instr} {j : Fin 6} {x : Num} (h : Instr.psetOperand i = some (j, x)) :
    (j = 0 ∧ i = .pset0 x) ∨ (j = 1 ∧ i = .pset1 x) ∨ (j = 2 ∧ i = .pset2 x) ∨ (j = 3 ∧ i = .pset3 x) ∨
    (j = 4 ∧ i = .pset4 x) ∨ (j = 5 ∧ i = .pset5 x) := by
  cases i <;> simp [Instr.psetOperand] at h
  all_goals obtain ⟨rfl, rfl⟩ := h
  all_goals simp

/-- A parameter's register: written by its own PSET only (10_state.md R37). -/
theorem after_par (i : Instr) (s : State) (j : Fin 6) :
    (after i s).par j = s.par j ∨ ∃ x, Instr.psetOperand i = some (j, x) ∧ (after i s).par j = unitOf s.num j x := by
  rcases after_ps i s with e | ⟨_, _, e⟩ | ⟨k, x, h, e⟩
  · exact .inl (by rw [State.par_eq, e]; rfl)
  · exact .inl (by rw [State.par_eq, e, State.storeLoaded_newest]; rfl)
  · have := State.par_parWrite s k j (unitOf s.num k x)
    rw [State.par_eq, State.parWrite_ps, ← e] at this
    split_ifs at this with hk
    · subst hk; exact .inr ⟨x, h, this⟩
    · exact .inl this

/-- No instruction changes the configuration or the inputs still to come. -/
theorem after_cfg_inbox (i : Instr) (s : State) : (after i s).cfg = s.cfg ∧ (after i s).inbox = s.inbox := by
  cases i
  case tick => rw [after_tick]; split_ifs; · rw [render_eq]; exact ⟨rfl, rfl⟩
               · exact ⟨rfl, rfl⟩
  case noteOff d1 d2 => rw [after_noteOff]; split_ifs <;> exact ⟨rfl, rfl⟩
  case oscGen n =>
    show (State.returning (oscGen n s.quiet)).cfg = _ ∧ (State.returning (oscGen n s.quiet)).inbox = _
    rw [State.returning_cfg, State.returning_inbox, oscGen_state]; exact ⟨rfl, rfl⟩
  all_goals exact ⟨rfl, rfl⟩

/-! ### One step -/

/-- What a step can do: wait, run a command, or take a RESET. -/
theorem step_cases {s t : State} (h : step s = .next t) :
    (s.inbox = [] ∧ t = s.quiet) ∨
    (∃ c rest, s.inbox = .command c :: rest ∧ t = after (decode c) { s with inbox := rest }) ∨
    (∃ cfg rest, s.inbox = .reset cfg :: rest ∧ t = State.resetInput { s with inbox := rest } cfg) := by
  unfold step State.takeInput at h
  split at h
  · rename_i hn
    split at hn <;> cases h
    · rename_i hi; exact .inl ⟨hi, rfl⟩
    · cases hn
  · rename_i c u hn
    split at hn
    · cases hn
    · rename_i x rest hi
      simp only [Option.some.injEq, Prod.mk.injEq] at hn
      obtain ⟨rfl, rfl⟩ := hn
      exact .inr (.inl ⟨c, rest, hi, exec_next h⟩)
  · rename_i cfg u hn
    split at hn
    · cases hn
    · rename_i x rest hi
      simp only [Option.some.injEq, Prod.mk.injEq] at hn
      obtain ⟨rfl, rfl⟩ := hn
      cases h
      exact .inr (.inr ⟨cfg, rest, hi, rfl⟩)

end Sys2Proof.Machine
end

