-- ==== Sys2Proof/Laws/Component.lean ====
section
/-! SUPPORT. The envelope's arms, the phase accumulator, the filter, repeated instructions and runs: one lemma per case of
each, so that no proof unfolds them; and what each is as real numbers in the ideal instantiation (00_scope.md R8). -/

namespace Sys2Proof.Machine

set_option Elab.async false -- one theorem at a time: each would take a thread of its own

/-- In the ideal instantiation the record is the ideal one. -/
theorem State.Ideal.num {s : State} (h : s.Ideal) : s.num = Numerics.ideal := by
  rw [State.num, h]; rfl

/-! ### The ends of the envelope's stages (41_envelope.md R142, R143, R145) -/

theorem Env.afterAttack_done {N : Numerics} {e : Env} {l : Num} (h : N.ge l (N.lit 1) = true) :
    e.afterAttack N l = { e with level := N.lit 1, stage := .decay } := if_pos h

theorem Env.afterAttack_on {N : Numerics} {e : Env} {l : Num} (h : N.ge l (N.lit 1) = false) :
    e.afterAttack N l = { e with level := l } := by rw [Env.afterAttack, h]; rfl

theorem Env.afterDecay_done {N : Numerics} {e : Env} {l : Num} (h : N.le l e.sus = true) :
    e.afterDecay N l = { e with level := e.sus, stage := .sustain } := if_pos h

theorem Env.afterDecay_on {N : Numerics} {e : Env} {l : Num} (h : N.le l e.sus = false) :
    e.afterDecay N l = { e with level := l } := by rw [Env.afterDecay, h]; rfl

theorem Env.afterRelease_done {N : Numerics} {e : Env} {l : Num} (h : N.le l (N.lit (1 / 1000)) = true) :
    e.afterRelease N l = { e with level := N.lit 0, stage := .idle } := if_pos h

theorem Env.afterRelease_on {N : Numerics} {e : Env} {l : Num} (h : N.le l (N.lit (1 / 1000)) = false) :
    e.afterRelease N l = { e with level := l } := by rw [Env.afterRelease, h]; rfl

/-! ### ENV.PROCESS by stage (R140) -/

theorem Env.process_of_idle {N : Numerics} {e : Env} (h : e.stage = .idle) : e.process N = e.idleArm N := by
  simp [Env.process, h]
theorem Env.process_of_attack {N : Numerics} {e : Env} (h : e.stage = .attack) : e.process N = e.attackArm N := by
  simp [Env.process, h]
theorem Env.process_of_decay {N : Numerics} {e : Env} (h : e.stage = .decay) : e.process N = e.decayArm N := by
  simp [Env.process, h]
theorem Env.process_of_sustain {N : Numerics} {e : Env} (h : e.stage = .sustain) : e.process N = e := by
  simp [Env.process, h, Env.sustainArm]
theorem Env.process_of_release {N : Numerics} {e : Env} (h : e.stage = .release) : e.process N = e.releaseArm N := by
  simp [Env.process, h]

@[simp] theorem after_envProcess_env (s : State) : (after .envProcess s).env = s.env.process s.num := rfl

@[simp] theorem after_envProcess_cfg (s : State) : (after .envProcess s).cfg = s.cfg := rfl

/-- No arm writes a setting (R141 to R145). -/
theorem Env.arm_settings (N : Numerics) (e : Env) :
    ∀ f ∈ [e.idleArm N, e.attackArm N, e.decayArm N, e.sustainArm, e.releaseArm N, e.process N, e.trigger N, e.release],
      f.att = e.att ∧ f.dec = e.dec ∧ f.sus = e.sus ∧ f.rel = e.rel ∧ f.sr = e.sr := by
  have ha : ∀ l, (e.afterAttack N l).att = e.att ∧ (e.afterAttack N l).dec = e.dec ∧
      (e.afterAttack N l).sus = e.sus ∧ (e.afterAttack N l).rel = e.rel ∧ (e.afterAttack N l).sr = e.sr := by
    intro l; unfold Env.afterAttack; split_ifs <;> simp
  have hd : ∀ l, (e.afterDecay N l).att = e.att ∧ (e.afterDecay N l).dec = e.dec ∧
      (e.afterDecay N l).sus = e.sus ∧ (e.afterDecay N l).rel = e.rel ∧ (e.afterDecay N l).sr = e.sr := by
    intro l; unfold Env.afterDecay; split_ifs <;> simp
  have hr : ∀ l, (e.afterRelease N l).att = e.att ∧ (e.afterRelease N l).dec = e.dec ∧
      (e.afterRelease N l).sus = e.sus ∧ (e.afterRelease N l).rel = e.rel ∧ (e.afterRelease N l).sr = e.sr := by
    intro l; unfold Env.afterRelease; split_ifs <;> simp
  simp only [List.forall_mem_cons, List.not_mem_nil, false_imp_iff, implies_true, and_true]
  refine ⟨by simp [Env.idleArm], ha _, hd _, by simp [Env.sustainArm], hr _, ?_, by simp [Env.trigger],
    by simp [Env.release]⟩
  unfold Env.process
  split
  · simp [Env.idleArm]
  · exact ha _
  · exact hd _
  · simp [Env.sustainArm]
  · exact hr _

theorem Env.process_settings (N : Numerics) (e : Env) :
    (e.process N).att = e.att ∧ (e.process N).dec = e.dec ∧ (e.process N).sus = e.sus ∧ (e.process N).rel = e.rel ∧
      (e.process N).sr = e.sr := e.arm_settings N _ (by simp)

/-- `ENV.SR` is written by no instruction (10_state.md R28). -/
theorem after_env_sr (i : Instr) (s : State) : (after i s).env.sr = s.env.sr := by
  have h := s.env.arm_settings s.num
  rcases after_env i s with e | e | e | e | e | e | e | e | ⟨_, _, e⟩ | ⟨_, _, e⟩ | ⟨_, _, e⟩ | ⟨_, _, e⟩ <;> rw [e]
  all_goals exact (h _ (by simp)).2.2.2.2

/-- A stage ends with the level it ends at, or stays (R153). -/
theorem Env.process_stage (N : Numerics) (e : Env) : (e.process N).stage = e.stage ∨
    (e.stage = .attack ∧ (e.process N).stage = .decay ∧ (e.process N).level = N.lit 1) ∨
    (e.stage = .decay ∧ (e.process N).stage = .sustain ∧ (e.process N).level = e.sus) ∨
    (e.stage = .release ∧ (e.process N).stage = .idle ∧ (e.process N).level = N.lit 0) := by
  unfold Env.process
  split <;> rename_i h
  · left; simp [Env.idleArm]
  · simp only [Env.attackArm, Env.afterAttack]; split_ifs <;> simp [h]
  · simp only [Env.decayArm, Env.afterDecay]; split_ifs <;> simp [h]
  · left; simp [Env.sustainArm]
  · simp only [Env.releaseArm, Env.afterRelease]; split_ifs <;> simp [h]

/-! ### The arms as real numbers -/

/-- Attack ends when the updated level reaches 1 (R142). -/
theorem Env.attackArm_done {e : Env} (h : 1 ≤ e.level.val + 1 / (e.att.val * e.sr.val)) :
    e.attackArm Numerics.ideal = { e with level := .rat 1, stage := .decay } :=
  Env.afterAttack_done (by simpa using h)

theorem Env.attackArm_on {e : Env} (h : e.level.val + 1 / (e.att.val * e.sr.val) < 1) :
    ∃ l : Num, l.val = e.level.val + 1 / (e.att.val * e.sr.val) ∧
      e.attackArm Numerics.ideal = { e with level := l } :=
  ⟨_, by simp, Env.afterAttack_on (by rw [← Bool.not_eq_true, Numerics.ideal_ge]; simpa using h)⟩

/-- Decay ends when the updated level reaches the sustain level (R143). -/
theorem Env.decayArm_done {e : Env} (h : e.level.val - (1 - e.sus.val) / (e.dec.val * e.sr.val) ≤ e.sus.val) :
    e.decayArm Numerics.ideal = { e with level := e.sus, stage := .sustain } :=
  Env.afterDecay_done (by simpa using h)

theorem Env.decayArm_on {e : Env} (h : e.sus.val < e.level.val - (1 - e.sus.val) / (e.dec.val * e.sr.val)) :
    ∃ l : Num, l.val = e.level.val - (1 - e.sus.val) / (e.dec.val * e.sr.val) ∧
      e.decayArm Numerics.ideal = { e with level := l } :=
  ⟨_, by simp, Env.afterDecay_on (by rw [← Bool.not_eq_true, Numerics.ideal_le, not_le]; simp; linarith)⟩

/-- Release ends when the updated level is at or below 0.001 (R145). -/
theorem Env.releaseArm_done {e : Env} (h : e.level.val - e.level.val / (e.rel.val * e.sr.val) ≤ 1 / 1000) :
    e.releaseArm Numerics.ideal = { e with level := .rat 0, stage := .idle } :=
  Env.afterRelease_done (by simpa using h)

theorem Env.releaseArm_on {e : Env} (h : 1 / 1000 < e.level.val - e.level.val / (e.rel.val * e.sr.val)) :
    ∃ l : Num, l.val = e.level.val - e.level.val / (e.rel.val * e.sr.val) ∧
      e.releaseArm Numerics.ideal = { e with level := l } :=
  ⟨_, by simp, Env.afterRelease_on (by rw [← Bool.not_eq_true, Numerics.ideal_le, not_le]; simp; linarith)⟩

/-- Well-formed settings keep the level in [0,1] (R154). -/
theorem Env.arms_unit {e : Env} (hw : e.WellSet) (hl : e.LevelInUnit) :
    ∀ f ∈ [e.idleArm Numerics.ideal, e.attackArm Numerics.ideal, e.decayArm Numerics.ideal, e.sustainArm,
      e.releaseArm Numerics.ideal, e.process Numerics.ideal, e.trigger Numerics.ideal, e.release], f.LevelInUnit := by
  obtain ⟨a, d, sr, s0, s1, r⟩ := hw
  have hl' := hl
  obtain ⟨l0, l1⟩ := hl
  have ha : 0 < e.att.val * e.sr.val := mul_pos a sr
  have hd : 0 < e.dec.val * e.sr.val := mul_pos d sr
  have hr : 0 < e.rel.val * e.sr.val := by linarith
  have hI : (e.idleArm Numerics.ideal).LevelInUnit := by simp [Env.idleArm, Env.LevelInUnit]
  have hA : (e.attackArm Numerics.ideal).LevelInUnit := by
    have h0 : 0 ≤ 1 / (e.att.val * e.sr.val) := by positivity
    rcases le_or_gt 1 (e.level.val + 1 / (e.att.val * e.sr.val)) with h | h
    · rw [Env.attackArm_done h]; simp [Env.LevelInUnit]
    · obtain ⟨l, hl, he⟩ := Env.attackArm_on h
      rw [he]; exact ⟨by show 0 ≤ l.val; linarith, by show l.val ≤ 1; linarith⟩
  have hD : (e.decayArm Numerics.ideal).LevelInUnit := by
    have h0 : 0 ≤ (1 - e.sus.val) / (e.dec.val * e.sr.val) := div_nonneg (by linarith) hd.le
    rcases le_or_gt (e.level.val - (1 - e.sus.val) / (e.dec.val * e.sr.val)) e.sus.val with h | h
    · rw [Env.decayArm_done h]; exact ⟨s0, s1⟩
    · obtain ⟨l, hl, he⟩ := Env.decayArm_on h
      rw [he]; exact ⟨by show 0 ≤ l.val; linarith, by show l.val ≤ 1; linarith⟩
  have hR : (e.releaseArm Numerics.ideal).LevelInUnit := by
    have h1 : e.level.val / (e.rel.val * e.sr.val) ≤ e.level.val := div_le_self l0 r
    have h2 : 0 ≤ e.level.val / (e.rel.val * e.sr.val) := by positivity
    rcases le_or_gt (e.level.val - e.level.val / (e.rel.val * e.sr.val)) (1 / 1000) with h | h
    · rw [Env.releaseArm_done h]; simp [Env.LevelInUnit]
    · obtain ⟨l, hl, he⟩ := Env.releaseArm_on h
      rw [he]; exact ⟨by show 0 ≤ l.val; linarith, by show l.val ≤ 1; linarith⟩
  simp only [List.forall_mem_cons, List.not_mem_nil, false_imp_iff, implies_true, and_true]
  refine ⟨hI, hA, hD, hl', hR, ?_, by simp [Env.trigger, Env.LevelInUnit], hl'⟩
  unfold Env.process
  split
  · exact hI
  · exact hA
  · exact hD
  · exact hl'
  · exact hR

/-! ### The phase accumulator (40_oscillator.md R126, R128) -/

/-- One advance of a phase: one comparison and at most one subtraction of 1 (R126). -/
theorem advancePhase_val (ph f sr : Num) :
    (advancePhase Numerics.ideal ph f sr).val =
      if 1 ≤ ph.val + f.val / sr.val then ph.val + f.val / sr.val - 1 else ph.val + f.val / sr.val := by
  simp only [advancePhase, wrapOnce, Numerics.ideal_ge, Numerics.ideal_lit, Numerics.ideal_add, Numerics.ideal_div,
    Rat.cast_one]
  split_ifs <;> simp

/-- A phase in its turn stays in it, at a frequency below the sample rate. -/
theorem advancePhase_inTurn {p f sr : Num} (hp : InTurn p) (hr : RateOk f sr) :
    InTurn (advancePhase Numerics.ideal p f sr) := by
  obtain ⟨r0, r1, r2⟩ := hr
  obtain ⟨a, b⟩ := hp
  have hd0 : 0 ≤ f.val / sr.val := div_nonneg r1 r0.le
  have hd1 : f.val / sr.val < 1 := by rwa [div_lt_one r0]
  rw [InTurn, advancePhase_val]
  split_ifs with h <;> constructor <;> linarith

/-- The fractional part moves on by one advance (R131). -/
theorem advancePhase_fract {p f sr : Num} {x : ℝ} (hp : p.val = Int.fract x) (hr : RateOk f sr) :
    (advancePhase Numerics.ideal p f sr).val = Int.fract (x + f.val / sr.val) := by
  obtain ⟨r0, r1, r2⟩ := hr
  have hd0 : 0 ≤ f.val / sr.val := div_nonneg r1 r0.le
  have hd1 : f.val / sr.val < 1 := by rwa [div_lt_one r0]
  have f0 := Int.fract_nonneg x
  have f1 := Int.fract_lt_one x
  have hx : x = ⌊x⌋ + Int.fract x := (Int.floor_add_fract x).symm
  rw [advancePhase_val, hp]
  split_ifs with h <;> symm <;> rw [Int.fract_eq_iff]
  · refine ⟨by linarith, by linarith, ⌊x⌋ + 1, ?_⟩; push_cast; linarith
  · refine ⟨by linarith, by linarith, ⌊x⌋, ?_⟩; linarith

/-- Every waveform's sample lies in [−1, 1] at a phase in its turn (R132). -/
theorem sampleAt_mem (w : Waveform) (p : Num) (n : Nat) (h : InTurn p) :
    -1 ≤ (sampleAt Numerics.ideal w p n).val ∧ (sampleAt Numerics.ideal w p n).val ≤ 1 := by
  obtain ⟨a, b⟩ := h
  cases w
  · simp only [sampleAt, sineWave, sinTwoPi_val]
    exact ⟨Real.neg_one_le_sin _, Real.sin_le_one _⟩
  · simp only [sampleAt, sawWave]; constructor <;> simp <;> linarith
  · simp only [sampleAt, squareWave]; split_ifs <;> simp
  · simp only [sampleAt, triangleWave, Numerics.ideal_lt, Numerics.ideal_lit]
    push_cast
    split_ifs <;> constructor <;> simp <;> linarith
  · exact ⟨(noiseDraw_mem n).1, (noiseDraw_mem n).2.le⟩

/-! ### The filter (42_filter.md R170, R175) -/

theorem normalizedCutoff_val (cutoff sr : Num) :
    (normalizedCutoff Numerics.ideal cutoff sr).val = 2 * Real.pi * cutoff.val / sr.val := by
  simp [normalizedCutoff]

theorem onePole_val (c : Num) : (onePole Numerics.ideal c).val = c.val / (1 + c.val) := by
  simp [onePole, onePlus]

theorem smooth_val (k x y : Num) :
    (smooth Numerics.ideal k x y).val = x.val * k.val + y.val * (1 - k.val) := by
  simp [smooth]

/-- With a positive rate and cutoff the filter divides by no 0 (R175). -/
theorem Filt.divisors_ne_zero {f : Filt} {sr : Num} (hs : 0 < sr.val) (hc : 0 < f.cutoff.val) :
    ∀ d ∈ f.divisors Numerics.ideal sr, d.val ≠ 0 := by
  have h : 0 < 2 * Real.pi * f.cutoff.val / sr.val := by have := Real.pi_pos; positivity
  simp only [Filt.divisors, List.forall_mem_cons, List.not_mem_nil, false_imp_iff, implies_true, and_true]
  refine ⟨hs.ne', ?_⟩
  simp only [onePlus, Numerics.ideal_add, Numerics.ideal_lit, normalizedCutoff_val, Rat.cast_one]
  linarith

/-! ### Where an instruction divides by no 0 -/

theorem divides_sampleRate {i : Instr} {s : State} (h : divisors i s = [s.cfg.sr]) :
    Divides i s ↔ (s.Ideal → s.cfg.sr.val ≠ 0) := by simp [Divides, h]

theorem divides_attack {s : State} :
    Divides .envProcessAttack s ↔ (s.Ideal → s.env.att.val * s.env.sr.val ≠ 0) :=
  forall_congr' fun h => by simp [divisors, Env.divisorsOf, h.num]

theorem divides_decay {s : State} :
    Divides .envProcessDecay s ↔ (s.Ideal → s.env.dec.val * s.env.sr.val ≠ 0) :=
  forall_congr' fun h => by simp [divisors, Env.divisorsOf, h.num]

theorem divides_release {s : State} :
    Divides .envProcessRelease s ↔ (s.Ideal → s.env.rel.val * s.env.sr.val ≠ 0) :=
  forall_congr' fun h => by simp [divisors, Env.divisorsOf, h.num]

theorem Env.armDivides_iff (e : Env) :
    (∀ d ∈ e.divisorsOf Numerics.ideal e.stage, d.val ≠ 0) ↔ e.ArmDivides := by
  unfold Env.ArmDivides
  cases h : e.stage <;> simp [Env.divisorsOf]

theorem divides_envProcess {s : State} : Divides .envProcess s ↔ (s.Ideal → s.env.ArmDivides) :=
  forall_congr' fun h => by rw [← Env.armDivides_iff, ← h.num]; rfl

/-- The filter's two divisors (R170). -/
theorem Filt.divisors_iff (f : Filt) (sr : Num) :
    (∀ d ∈ f.divisors Numerics.ideal sr, d.val ≠ 0) ↔
      sr.val ≠ 0 ∧ 1 + 2 * Real.pi * f.cutoff.val / sr.val ≠ 0 := by
  simp [Filt.divisors, onePlus, normalizedCutoff]

theorem divides_lpfProcess {x : Num} {s : State} : Divides (.lpfProcess x) s ↔
    (s.Ideal → s.cfg.sr.val ≠ 0 ∧ 1 + 2 * Real.pi * s.filt.cutoff.val / s.cfg.sr.val ≠ 0) :=
  forall_congr' fun h => by rw [← Filt.divisors_iff, ← h.num]; rfl

/-- A gated TICK divides by the sample rate, the product of its envelope's stage and the filter's two divisors. -/
theorem divides_tick {s : State} (hg : s.ve.gate = true) : Divides .tick s ↔
    (s.Ideal → s.cfg.sr.val ≠ 0 ∧ s.env.ArmDivides ∧
      1 + 2 * Real.pi * s.filtAfterFour.cutoff.val / s.cfg.sr.val ≠ 0) := by
  refine forall_congr' fun h => ?_
  have e : divisors .tick s =
      s.cfg.sr :: s.env.divisorsOf s.num s.env.stage ++ s.filtAfterFour.divisors s.num s.cfg.sr := by
    rw [divisors, if_pos hg, renderDivisors_eq]; rfl
  have ha := s.env.armDivides_iff
  have hf := s.filtAfterFour.divisors_iff s.cfg.sr
  rw [← h.num] at ha hf
  simp only [e, List.cons_append, List.forall_mem_cons, List.forall_mem_append, ha, hf]
  tauto

/-- The cutoff a gated TICK leaves is within the clamp's bounds (44_voice_engine.md R201). -/
theorem filtAfterFour_cutoff {s : State} (h : s.Ideal) :
    20 ≤ s.filtAfterFour.cutoff.val ∧ s.filtAfterFour.cutoff.val ≤ 20000 := by
  have e : s.filtAfterFour.cutoff = modulatedCutoff s.num (s.loaded 2 2) (sinTwoPi s.num s.lfo.ph) (s.loaded 5 3) := rfl
  have c := clamp_mem (lo := Numerics.ideal.lit 20) (hi := Numerics.ideal.lit 20000)
    (v := Numerics.ideal.mul (s.loaded 2 2)
      (Numerics.ideal.add (Numerics.ideal.lit 1) (Numerics.ideal.mul (sinTwoPi Numerics.ideal s.lfo.ph) (s.loaded 5 3))))
    (by simp; norm_num)
  rw [e, h.num]
  simpa [modulatedCutoff] using c

/-- So with a positive sample rate it divides where its envelope's arm does. -/
theorem divides_tick_of_pos {s : State} (hg : s.ve.gate = true)
    (h : s.Ideal → 0 < s.cfg.sr.val ∧ s.env.ArmDivides) : Divides .tick s := by
  refine (divides_tick hg).2 fun hi => ⟨(h hi).1.ne', (h hi).2, ?_⟩
  have c := filtAfterFour_cutoff hi
  have r := (h hi).1
  have p := Real.pi_pos
  have : 0 < 2 * Real.pi * s.filtAfterFour.cutoff.val / s.cfg.sr.val := by
    have : 0 < s.filtAfterFour.cutoff.val := by linarith
    positivity
  linarith

/-! ### Repeated instructions -/

/-- One run more is the instruction on the state the runs before it left. -/
theorem execTimes_last {i : Instr} {n : Nat} {s t : State} (h : execTimes i n s = .next t) :
    execTimes i (n + 1) s = exec i t := by
  induction n generalizing s with
  | zero =>
    obtain rfl : s = t := by injection h
    show (match exec i s with
      | .next t => execTimes i 0 t
      | .fault r => .fault r
      | .refused r => .refused r) = _
    cases exec i s <;> rfl
  | succ n ih =>
    have e : ∀ m, execTimes i (m + 1) s = match exec i s with
      | .next t => execTimes i m t
      | .fault r => .fault r
      | .refused r => .refused r := fun _ => rfl
    rw [e] at h ⊢
    cases hx : exec i s with
    | next u => rw [hx] at h; exact ih h
    | fault r => rw [hx] at h; cases h
    | refused r => rw [hx] at h; cases h

/-- One run more, where it divides by no 0. -/
theorem execTimes_step {i : Instr} {n : Nat} {s t : State} (h : execTimes i n s = .next t) (hd : Divides i t) :
    execTimes i (n + 1) s = .next (after i t) := by rw [execTimes_last h, exec_of_divides hd]

/-- An instruction does not read the inputs still to come. -/
theorem after_setInbox (i : Instr) (s : State) (l : List Input) :
    after i { s with inbox := l } = { after i s with inbox := l } := by
  cases i
  case tick =>
    rw [after_tick, after_tick]
    split_ifs
    · rw [render_eq, render_eq]; rfl
    · rfl
  case noteOff d1 d2 => rw [after_noteOff, after_noteOff]; split_ifs <;> rfl
  case oscGen n =>
    show State.returning (oscGen n _) = { State.returning (oscGen n s.quiet) with inbox := l }
    simp only [State.returning, oscGen_state, oscGen_value]
    rfl
  all_goals rfl

theorem divisors_setInbox (i : Instr) (s : State) (l : List Input) :
    divisors i { s with inbox := l } = divisors i s := by
  cases i
  case tick =>
    simp only [divisors]
    split_ifs
    · rw [renderDivisors_eq, renderDivisors_eq]; rfl
    · rfl
  all_goals rfl

/-- So it answers alike, whatever is still to come. -/
theorem exec_setInbox (i : Instr) (s : State) (l : List Input) :
    exec i { s with inbox := l } = match exec i s with
      | .next t => .next { t with inbox := l }
      | .fault r => .fault r
      | .refused r => .refused r := by
  rw [exec_eq, exec_eq, divisors_setInbox, after_setInbox]
  unfold State.dividing
  simp only
  split_ifs <;> rfl

/-! ### Runs of the core -/

/-- Commands handed to the block run one after another. -/
theorem core_run_commands : ∀ (cs : List Command) (s : State) (rest : List Input),
    Sys2Proof.core.run cs.length { s with inbox := cs.map .command ++ rest } =
      execAll (cs.map decode) { s with inbox := rest } := by
  intro cs
  induction cs with
  | nil => intro s rest; rfl
  | cons c cs ih =>
    intro s rest
    have h0 : Sys2Proof.core.step { s with inbox := (c :: cs).map .command ++ rest } =
        exec (decode c) { s with inbox := cs.map .command ++ rest } := rfl
    have h1 : execAll ((c :: cs).map decode) { s with inbox := rest } =
        match exec (decode c) { s with inbox := rest } with
        | .next t => execAll (cs.map decode) t
        | .fault r => .fault r
        | .refused r => .refused r := rfl
    simp only [List.length_cons, Host.Core.run, h0, h1]
    rw [exec_setInbox (decode c) s (cs.map Input.command ++ rest), exec_setInbox (decode c) s rest]
    cases exec (decode c) s with
    | next t => exact ih t rest
    | fault r => rfl
    | refused r => rfl

end Sys2Proof.Machine
end

