-- ==== Sys2Proof/Laws/Decode.lean ====
section
/-! SUPPORT. The fields of an encoded command word as numbers, and the fields read back. -/

namespace Sys2Proof

set_option Elab.async false -- one theorem at a time: each would take a thread of its own

theorem toNat_append' {n m : Nat} (x : BitVec n) (y : BitVec m) :
    (x ++ y).toNat = x.toNat * 2 ^ m + y.toNat := by
  rw [BitVec.toNat_append, ← Nat.shiftLeft_add_eq_or_of_lt y.isLt, Nat.shiftLeft_eq]

theorem word_toNat (cls : BitVec 4) (low : BitVec 24) : (word cls low).toNat = cls.toNat * 2 ^ 28 + low.toNat := by
  have h : (word cls low).toNat = (cls ++ (0#4 ++ low)).toNat := rfl
  rw [h, toNat_append', toNat_append']
  simp

theorem eventBits_toNat (status data1 data2 : Byte) :
    (eventBits status data1 data2).toNat = status.toNat * 2 ^ 16 + data1.toNat * 2 ^ 8 + data2.toNat := by
  have h : (eventBits status data1 data2).toNat = (status ++ (data1 ++ data2)).toNat := rfl
  rw [h, toNat_append', toNat_append']
  omega

theorem field_toNat {n : Nat} (w : BitVec n) (start len : Nat) :
    (w.extractLsb' start len).toNat = w.toNat / 2 ^ start % 2 ^ len := by
  rw [BitVec.extractLsb'_toNat, Nat.shiftRight_eq_div_pow]

@[simp] theorem cls_word (cls : BitVec 4) (low : BitVec 24) : Command.cls (word cls low) = cls := by
  apply BitVec.eq_of_toNat_eq
  rw [Command.cls, field_toNat, word_toNat]
  have := low.isLt; have := cls.isLt
  omega

@[simp] theorem status_event (cls : BitVec 4) (status data1 data2 : Byte) :
    Command.status (word cls (eventBits status data1 data2)) = status := by
  apply BitVec.eq_of_toNat_eq
  rw [Command.status, field_toNat, word_toNat, eventBits_toNat]
  have := status.isLt; have := data1.isLt; have := data2.isLt
  omega

@[simp] theorem data1_event (cls : BitVec 4) (status data1 data2 : Byte) :
    Command.data1 (word cls (eventBits status data1 data2)) = data1 := by
  apply BitVec.eq_of_toNat_eq
  rw [Command.data1, field_toNat, word_toNat, eventBits_toNat]
  have := status.isLt; have := data1.isLt; have := data2.isLt
  omega

@[simp] theorem data2_event (cls : BitVec 4) (status data1 data2 : Byte) :
    Command.data2 (word cls (eventBits status data1 data2)) = data2 := by
  apply BitVec.eq_of_toNat_eq
  rw [Command.data2, field_toNat, word_toNat, eventBits_toNat]
  have := status.isLt; have := data1.isLt; have := data2.isLt
  omega

@[simp] theorem sel_word (cls : BitVec 4) (sel : BitVec 2) : Command.sel (word cls (sel.setWidth 24)) = sel := by
  apply BitVec.eq_of_toNat_eq
  rw [Command.sel, field_toNat, word_toNat, BitVec.toNat_setWidth]
  have := sel.isLt
  omega

@[simp] theorem idx_word (cls : BitVec 4) (idx : BitVec 3) : Command.idx (word cls (idx.setWidth 24)) = idx := by
  apply BitVec.eq_of_toNat_eq
  rw [Command.idx, field_toNat, word_toNat, BitVec.toNat_setWidth]
  have := idx.isLt
  omega

/-! ### What an issued command decodes to -/

@[simp] theorem decode_event (status data1 data2 : Byte) :
    decode (eventCommand status data1 data2) = decodeEvent status data1 data2 := by
  simp [decode, eventCommand, Port.accepts]

@[simp] theorem decode_envset (sel : BitVec 2) (v : Num) : decode (envsetCommand sel v) = decodeEnvset sel v := by
  simp [decode, envsetCommand, Port.accepts]

@[simp] theorem decode_pset (idx : BitVec 3) (x : Num) : decode (psetCommand idx x) = decodePset idx x := by
  simp [decode, psetCommand, Port.accepts]

@[simp] theorem decode_pget (idx : BitVec 3) : decode (pgetCommand idx) = decodePget idx := by
  simp [decode, pgetCommand, Port.accepts]

@[simp] theorem decode_tick : decode tickCommand = .tick := by
  simp [decode, tickCommand, Port.accepts]

/-- A class its port does not accept is RSVD (30_encoding.md R97). -/
theorem decode_rsvd {c : Command} (h : c.port.accepts (Command.cls c.cw) = false) :
    decode c = .rsvd c.port (Command.cls c.cw) := by simp [decode, h]

/-! ### Whose command an instruction is (60_exceptions.md R258) -/

/-- The agent that issues a command; none for a micro-operation. -/
def Instr.agent : Instr → Option Port
  | .tick | .noteOff _ _ | .noteOn _ _ | .evtIgnored _ _ _ => some .r
  | .envsetA _ | .envsetD _ | .envsetS _ | .envsetR _ => some .r
  | .pset0 _ | .pset1 _ | .pset2 _ | .pset3 _ | .pset4 _ | .pset5 _ | .psetRsvd _ _ => some .c
  | .pget0 | .pget1 | .pget2 | .pget3 | .pget4 | .pget5 | .pgetRsvd _ => some .c
  | .rsvd p _ => some p
  | .oscGenSine _ | .oscGenSaw _ | .oscGenSquare _ | .oscGenTriangle _ | .oscGenNoise => none
  | .envProcessIdle | .envProcessAttack | .envProcessDecay | .envProcessSustain | .envProcessRelease => none
  | .oscGen _ | .oscAdvance _ | .envProcess | .envTrigger | .envRelease | .lpfProcess _ | .lfoProcess => none

/-- A command's agent is the port it was handed to. -/
theorem decode_agent (c : Command) : Instr.agent (decode c) = some c.port := by
  unfold decode
  split
  · rename_i h
    have hr : (Command.cls c.cw).toNat ≤ 2 → c.port = .r := by
      intro hl; cases hp : c.port
      · rfl
      · simp [hp, Port.accepts] at h; omega
    split
    · rename_i e; rw [hr (by omega)]; rfl
    · rename_i e; rw [hr (by omega)]; unfold decodeEvent; split_ifs <;> rfl
    · rename_i e; rw [hr (by omega)]; unfold decodeEnvset; split <;> rfl
    · rename_i e
      have : c.port = .c := by
        cases hp : c.port
        · simp [hp, Port.accepts] at h; omega
        · rfl
      rw [this]; unfold decodePset; split <;> rfl
    · rename_i e1 e2 e3 e4
      have : c.port = .c := by
        cases hp : c.port
        · simp [hp, Port.accepts] at h
          obtain e | e | e :
            (Command.cls c.cw).toNat = 0 ∨ (Command.cls c.cw).toNat = 1 ∨ (Command.cls c.cw).toNat = 2 := by omega
          · exact absurd e e1
          · exact absurd e e2
          · exact absurd e e3
        · rfl
      rw [this]; unfold decodePget; split <;> rfl
  · rfl

end Sys2Proof
end

