-- ==== Sys2Proof/Laws/PerInstr.lean ====
section
/-! SUPPORT. The per-instruction family IssueRoundTrip: a well-formed instruction that has a command word decodes, on
the port it is issued on, to itself (30_encoding.md R93, R109). -/

namespace Sys2Proof.Laws.IssueRoundTrip

set_option Elab.async false -- one theorem at a time: each would take a thread of its own

/-- If the instruction is well formed and is issued as the command `c`, then `c` decodes to it. -/
def Statement (i : Instr) : Prop := i.wellFormed = true → ∀ c, encode i = some c → decode c = i

theorem tick : Statement .tick := fun _ c h => by
  simp only [encode, Option.some.injEq] at h
  subst h
  exact decode_tick

theorem noteOff (data1 data2 : Byte) : Statement (.noteOff data1 data2) := fun _ c h => by
  simp only [encode, Option.some.injEq] at h
  subst h
  simp [decodeEvent]

theorem noteOn (data1 data2 : Byte) : Statement (.noteOn data1 data2) := fun _ c h => by
  simp only [encode, Option.some.injEq] at h
  subst h
  simp [decodeEvent]

theorem evtIgnored (status data1 data2 : Byte) : Statement (.evtIgnored status data1 data2) := fun hw c h => by
  simp [Instr.wellFormed] at hw
  simp only [encode, Option.some.injEq] at h
  subst h
  simp [decodeEvent, hw]

theorem envsetA (v : Num) : Statement (.envsetA v) := fun _ c h => by
  simp only [encode, Option.some.injEq] at h
  subst h
  simp [decodeEnvset]

theorem envsetD (v : Num) : Statement (.envsetD v) := fun _ c h => by
  simp only [encode, Option.some.injEq] at h
  subst h
  simp [decodeEnvset]

theorem envsetS (v : Num) : Statement (.envsetS v) := fun _ c h => by
  simp only [encode, Option.some.injEq] at h
  subst h
  simp [decodeEnvset]

theorem envsetR (v : Num) : Statement (.envsetR v) := fun _ c h => by
  simp only [encode, Option.some.injEq] at h
  subst h
  simp [decodeEnvset]

theorem pset0 (x : Num) : Statement (.pset0 x) := fun _ c h => by
  simp only [encode, Option.some.injEq] at h
  subst h
  simp [decodePset]

theorem pset1 (x : Num) : Statement (.pset1 x) := fun _ c h => by
  simp only [encode, Option.some.injEq] at h
  subst h
  simp [decodePset]

theorem pset2 (x : Num) : Statement (.pset2 x) := fun _ c h => by
  simp only [encode, Option.some.injEq] at h
  subst h
  simp [decodePset]

theorem pset3 (x : Num) : Statement (.pset3 x) := fun _ c h => by
  simp only [encode, Option.some.injEq] at h
  subst h
  simp [decodePset]

theorem pset4 (x : Num) : Statement (.pset4 x) := fun _ c h => by
  simp only [encode, Option.some.injEq] at h
  subst h
  simp [decodePset]

theorem pset5 (x : Num) : Statement (.pset5 x) := fun _ c h => by
  simp only [encode, Option.some.injEq] at h
  subst h
  simp [decodePset]

theorem psetRsvd (idx : BitVec 3) (x : Num) : Statement (.psetRsvd idx x) := fun hw c h => by
  simp only [encode, Option.some.injEq] at h
  subst h
  revert hw
  simp only [Instr.wellFormed, decode_pset]
  have h6 : idx.toNat = 6 ∨ idx.toNat = 7 ∨ idx.toNat < 6 := by have := idx.isLt; omega
  intro hw
  have hw' := of_decide_eq_true hw
  rcases h6 with h6 | h6 | h6
  · simp [decodePset, h6]
  · simp [decodePset, h6]
  · omega

theorem pget0 : Statement .pget0 := fun _ c h => by
  simp only [encode, Option.some.injEq] at h
  subst h
  simp [decodePget]

theorem pget1 : Statement .pget1 := fun _ c h => by
  simp only [encode, Option.some.injEq] at h
  subst h
  simp [decodePget]

theorem pget2 : Statement .pget2 := fun _ c h => by
  simp only [encode, Option.some.injEq] at h
  subst h
  simp [decodePget]

theorem pget3 : Statement .pget3 := fun _ c h => by
  simp only [encode, Option.some.injEq] at h
  subst h
  simp [decodePget]

theorem pget4 : Statement .pget4 := fun _ c h => by
  simp only [encode, Option.some.injEq] at h
  subst h
  simp [decodePget]

theorem pget5 : Statement .pget5 := fun _ c h => by
  simp only [encode, Option.some.injEq] at h
  subst h
  simp [decodePget]

theorem pgetRsvd (idx : BitVec 3) : Statement (.pgetRsvd idx) := fun hw c h => by
  simp only [encode, Option.some.injEq] at h
  subst h
  revert hw
  simp only [Instr.wellFormed, decode_pget]
  have h6 : idx.toNat = 6 ∨ idx.toNat = 7 ∨ idx.toNat < 6 := by have := idx.isLt; omega
  intro hw
  have hw' := of_decide_eq_true hw
  rcases h6 with h6 | h6 | h6
  · simp [decodePget, h6]
  · simp [decodePget, h6]
  · omega

theorem rsvd (port : Port) (cls : BitVec 4) : Statement (.rsvd port cls) := fun hw c h => by
  simp [Instr.wellFormed] at hw
  simp only [encode, Option.some.injEq] at h
  subst h
  rw [decode_rsvd] <;> simp [hw]

theorem oscGenSine (p : Num) : Statement (.oscGenSine p) := fun _ _ h => by simp [encode] at h

theorem oscGenSaw (p : Num) : Statement (.oscGenSaw p) := fun _ _ h => by simp [encode] at h

theorem oscGenSquare (p : Num) : Statement (.oscGenSquare p) := fun _ _ h => by simp [encode] at h

theorem oscGenTriangle (p : Num) : Statement (.oscGenTriangle p) := fun _ _ h => by simp [encode] at h

theorem oscGenNoise : Statement .oscGenNoise := fun _ _ h => by simp [encode] at h

theorem envProcessIdle : Statement .envProcessIdle := fun _ _ h => by simp [encode] at h

theorem envProcessAttack : Statement .envProcessAttack := fun _ _ h => by simp [encode] at h

theorem envProcessDecay : Statement .envProcessDecay := fun _ _ h => by simp [encode] at h

theorem envProcessSustain : Statement .envProcessSustain := fun _ _ h => by simp [encode] at h

theorem envProcessRelease : Statement .envProcessRelease := fun _ _ h => by simp [encode] at h

theorem oscGen (i : Fin 5) : Statement (.oscGen i) := fun _ _ h => by simp [encode] at h

theorem oscAdvance (i : Fin 5) : Statement (.oscAdvance i) := fun _ _ h => by simp [encode] at h

theorem envProcess : Statement .envProcess := fun _ _ h => by simp [encode] at h

theorem envTrigger : Statement .envTrigger := fun _ _ h => by simp [encode] at h

theorem envRelease : Statement .envRelease := fun _ _ h => by simp [encode] at h

theorem lpfProcess (x : Num) : Statement (.lpfProcess x) := fun _ _ h => by simp [encode] at h

theorem lfoProcess : Statement .lfoProcess := fun _ _ h => by simp [encode] at h

end Sys2Proof.Laws.IssueRoundTrip
end

