-- ==== Sys2Proof/Tests/Slice0.lean ====
section
/-! SUPPORT. Tests: the checks of WellFormed refuse ill-formed terms; every row's word, written out from
30_encoding.md, decodes to its instruction; single steps with the expected results of 95_test_vectors.md; and for every
statement with hypotheses a concrete state and operands that meet them. -/

namespace Sys2Proof.Tests

set_option Elab.async false -- one theorem at a time: each would take a thread of its own

open Sys2Proof Sys2Proof.Machine

/-! ### Helpers -/

/-- The configuration of program P2 (95_test_vectors.md section 3) with this sample rate and waveform, and with its
`PSET 2, 1/2` taken as the reset value of parameter 2. -/
def cfgAt (sr : ℚ) (w : Waveform) : Cfg where
  num := .ideal
  sr := .rat sr
  nch := 2
  wave0 := Vector.replicate 5 w
  att0 := .rat (4 / 8192)
  dec0 := .rat (4 / 8192)
  sus0 := .rat (1 / 2)
  rel0 := .rat (2 / 8192)
  p0 := #v[.rat 0, .rat 0, .rat 10000, .rat 0, .rat 0, .rat 0]

/-- Program P2's machine after reset. -/
def s0 : State := State.resetWith (cfgAt 8192 .square)

/-- The machine after reset at 44100 Hz. -/
def s44 : State := State.resetWith (cfgAt 44100 .square)

/-- `s0` in this stage at this level. -/
def sEnv (st : Stage) (l : ℚ) : State := s0.setEnv { s0.env with stage := st, level := .rat l }

/-- `s0` with the gate on. -/
def sOn : State := s0.setVe { note := 69, gate := true }

/-- `sOn` at the start of a note. -/
def sRun : State := sOn.setEnv { sOn.env with stage := .attack, level := .rat 0 }

/-- `s0` with every time constant 0. -/
def sZero : State := s0.setEnv { s0.env with att := .rat 0, dec := .rat 0, rel := .rat 0 }

/-- What a next state shows; none of a fault or a refusal. -/
def look {α : Type} (f : State → α) : Host.Outcome State Fault Refusal → Option α
  | .next t => some (f t)
  | .fault _ => none
  | .refused _ => none

/-- The reason of a refusal. -/
def reason : Host.Outcome State Fault Refusal → Option Refusal
  | .next _ => none
  | .fault _ => none
  | .refused r => some r

/-- Is the number strictly between the two bounds? -/
def between (lo hi : ℚ) (a : Num) : Bool := Numerics.ideal.lt (.rat lo) a && Numerics.ideal.lt a (.rat hi)

theorem tick_on {s : State} (h : s.ve.gate = true) : after .tick s = render s.quiet := by rw [after_tick, if_pos h]

/-! ### WellFormed refuses -/

theorem test_wf_evtIgnored_noteOff : (Instr.evtIgnored 128 0 0).wellFormed = false := by decide
theorem test_wf_evtIgnored_noteOn : (Instr.evtIgnored 144 0 0).wellFormed = false := by decide
theorem test_wf_evtIgnored_neighbours :
    (Instr.evtIgnored 127 0 0).wellFormed && (Instr.evtIgnored 129 0 0).wellFormed &&
      (Instr.evtIgnored 143 0 0).wellFormed && (Instr.evtIgnored 145 0 0).wellFormed = true := by decide
theorem test_wf_psetRsvd : (Instr.psetRsvd 5 (.rat 0)).wellFormed = false ∧ (Instr.psetRsvd 6 (.rat 0)).wellFormed = true := by decide
theorem test_wf_pgetRsvd : (Instr.pgetRsvd 5).wellFormed = false ∧ (Instr.pgetRsvd 6).wellFormed = true := by decide
theorem test_wf_rsvd_r : (Instr.rsvd .r 2).wellFormed = false ∧ (Instr.rsvd .r 3).wellFormed = true := by decide
theorem test_wf_rsvd_c : (Instr.rsvd .c 3).wellFormed = false ∧ (Instr.rsvd .c 4).wellFormed = false ∧
    (Instr.rsvd .c 2).wellFormed = true ∧ (Instr.rsvd .c 5).wellFormed = true := by decide

/-! ### Decoding: one word for every row, from the encoding tables of 30_encoding.md (R93 to R99) -/

/-- R93 and V-X1: cls 1, status 0x90, data1 0x45, data2 0x64, bit by bit. -/
theorem test_decode_noteOn :
    decode { port := .r, cw := 0b0001_0000_10010000_01000101_01100100, dw := .rat 0 } = .noteOn 69 100 := by decide
theorem test_decode_noteOff :
    decode { port := .r, cw := 0b0001_0000_10000000_00111100_00000000, dw := .rat 0 } = .noteOff 60 0 := by decide
/-- V-N2: controller 7. -/
theorem test_decode_evtIgnored :
    decode { port := .r, cw := 0b0001_0000_10110000_00000111_01100100, dw := .rat 0 } = .evtIgnored 176 7 100 := by decide
theorem test_decode_tick : decode { port := .r, cw := 0, dw := .rat 0 } = .tick := by decide
theorem test_decode_envset :
    decode { port := .r, cw := 0b0010_0000000000000000000000000000, dw := .rat 5 } = .envsetA (.rat 5) ∧
    decode { port := .r, cw := 0b0010_0000000000000000000000000001, dw := .rat 5 } = .envsetD (.rat 5) ∧
    decode { port := .r, cw := 0b0010_0000000000000000000000000010, dw := .rat 5 } = .envsetS (.rat 5) ∧
    decode { port := .r, cw := 0b0010_0000000000000000000000000011, dw := .rat 5 } = .envsetR (.rat 5) := by decide +kernel
theorem test_decode_pset :
    decode { port := .c, cw := 0b0011_0000000000000000000000000_000, dw := .rat 7 } = .pset0 (.rat 7) ∧
    decode { port := .c, cw := 0b0011_0000000000000000000000000_001, dw := .rat 7 } = .pset1 (.rat 7) ∧
    decode { port := .c, cw := 0b0011_0000000000000000000000000_010, dw := .rat 7 } = .pset2 (.rat 7) ∧
    decode { port := .c, cw := 0b0011_0000000000000000000000000_011, dw := .rat 7 } = .pset3 (.rat 7) ∧
    decode { port := .c, cw := 0b0011_0000000000000000000000000_100, dw := .rat 7 } = .pset4 (.rat 7) ∧
    decode { port := .c, cw := 0b0011_0000000000000000000000000_101, dw := .rat 7 } = .pset5 (.rat 7) := by decide +kernel
theorem test_decode_pset_rsvd :
    decode { port := .c, cw := 0b0011_0000000000000000000000000_110, dw := .rat 7 } = .psetRsvd 6 (.rat 7) ∧
    decode { port := .c, cw := 0b0011_0000000000000000000000000_111, dw := .rat 7 } = .psetRsvd 7 (.rat 7) := by decide +kernel
theorem test_decode_pget :
    decode { port := .c, cw := 0b0100_0000000000000000000000000_000, dw := .rat 0 } = .pget0 ∧
    decode { port := .c, cw := 0b0100_0000000000000000000000000_001, dw := .rat 0 } = .pget1 ∧
    decode { port := .c, cw := 0b0100_0000000000000000000000000_010, dw := .rat 0 } = .pget2 ∧
    decode { port := .c, cw := 0b0100_0000000000000000000000000_011, dw := .rat 0 } = .pget3 ∧
    decode { port := .c, cw := 0b0100_0000000000000000000000000_100, dw := .rat 0 } = .pget4 ∧
    decode { port := .c, cw := 0b0100_0000000000000000000000000_101, dw := .rat 0 } = .pget5 := by decide +kernel
theorem test_decode_pget_rsvd :
    decode { port := .c, cw := 0b0100_0000000000000000000000000_110, dw := .rat 0 } = .pgetRsvd 6 ∧
    decode { port := .c, cw := 0b0100_0000000000000000000000000_111, dw := .rat 0 } = .pgetRsvd 7 := by decide +kernel
/-- V-X4: a reserved class on either port. -/
theorem test_decode_rsvd_class :
    decode { port := .r, cw := 0x50000000, dw := .rat 0 } = .rsvd .r 5 ∧
    decode { port := .c, cw := 0xFFFFFFFF, dw := .rat 0 } = .rsvd .c 15 := by decide +kernel
/-- V-X5: a class on the wrong port. -/
theorem test_decode_rsvd_port :
    decode { port := .r, cw := 0x30000002, dw := .rat 0 } = .rsvd .r 3 ∧
    decode { port := .c, cw := 0x00000000, dw := .rat 0 } = .rsvd .c 0 := by decide +kernel
/-- V-X3: the reserved bits are ignored. -/
theorem test_decode_reserved_bits :
    decode { port := .r, cw := 0x0FFFFFFF, dw := .rat 0 } = .tick ∧
    decode { port := .r, cw := 0x1F904564, dw := .rat 0 } = .noteOn 69 100 := by decide +kernel
/-- R98, R99: the codes of the waveform and stage registers, and the micro-operation each selects. -/
theorem test_decode_wave3 :
    Waveform.ofCode 0 = .ok .sine ∧ Waveform.ofCode 1 = .ok .saw ∧ Waveform.ofCode 2 = .ok .square ∧
    Waveform.ofCode 3 = .ok .triangle ∧ Waveform.ofCode 4 = .ok .noise ∧
    Waveform.ofCode 5 = .error (.reservedWave 5) ∧ Waveform.ofCode 7 = .error (.reservedWave 7) := by decide
theorem test_decode_stage3 :
    Stage.ofCode 0 = .ok .idle ∧ Stage.ofCode 1 = .ok .attack ∧ Stage.ofCode 2 = .ok .decay ∧
    Stage.ofCode 3 = .ok .sustain ∧ Stage.ofCode 4 = .ok .release ∧
    Stage.ofCode 5 = .error (.reservedStage 5) ∧ Stage.ofCode 7 = .error (.reservedStage 7) := by decide
theorem test_decode_micro :
    Waveform.instr (.rat 3) .saw = .oscGenSaw (.rat 3) ∧ Waveform.instr (.rat 3) .noise = .oscGenNoise ∧
    Stage.instr .attack = .envProcessAttack ∧ Stage.instr .release = .envProcessRelease := by decide +kernel
/-- V-S6 and V-X2: the words the assembler makes. -/
theorem test_encode_words :
    (encode (.noteOn 69 100)).map (·.cw) = some 0x10904564 ∧ (encode (.envsetS (.rat 1))).map (·.cw) = some 0x20000002 ∧
    (encode (.pset4 (.rat 1))).map (·.cw) = some 0x30000004 ∧ (encode .pget5).map (·.cw) = some 0x40000005 := by
  decide +kernel
/-- The opcode table's numbering: the row's word is the command word. -/
theorem test_table_word :
    decodeTableWord 32 0x10904564 = some (.noteOn 69 100) ∧ decodeTableWord 32 0x40000003 = some .pget3 ∧
    decodeTableWord 8 0 = none := by decide +kernel
/-- R107: a block is its events and then its ticks; a NOTE_ON or NOTE_OFF with one operand has `data2` = 0. -/
theorem test_asm_block :
    (Asm.block 1 [.noteOn 69 (some 100), .noteOn 69 none, .noteOff 60 none, .evt 176 7 100]).inputs =
      [.command { port := .r, cw := 0x10904564, dw := .rat 0 }, .command { port := .r, cw := 0x10904500, dw := .rat 0 },
       .command { port := .r, cw := 0x10803C00, dw := .rat 0 }, .command { port := .r, cw := 0x10B00764, dw := .rat 0 },
       .command { port := .r, cw := 0, dw := .rat 0 }] := by decide +kernel
theorem test_asm_one_operand : (Asm.event (.noteOn 69 none)).inputs =
    [.command { port := .r, cw := 0x10904500, dw := .rat 0 }] := by decide +kernel
/-- R106: a line with the agent written before it. -/
theorem test_asm_on_port :
    Asm.inputsOn .c .tick = [.command { port := .c, cw := 0, dw := .rat 0 }] := by decide +kernel

/-! ### The ideal record (V-O1, V-N1, V-F1): irrational values, to the digits the spec gives -/

theorem test_sine_eighth :
    between (707106781186547 / 10 ^ 15) (707106781186549 / 10 ^ 15) (sineWave Numerics.ideal (.rat (1 / 8))) &&
      between (-587785252292474 / 10 ^ 15) (-587785252292472 / 10 ^ 15) (sineWave Numerics.ideal (.rat (-1 / 10))) =
      true := by decide +kernel
theorem test_sine_quarters :
    [0, 1 / 4, 1 / 2, 3 / 4, 3 / 2].map (fun p : ℚ => sineWave Numerics.ideal (.rat p)) =
      [.rat 0, .rat 1, .rat 0, .rat (-1), .rat 0] := by decide +kernel
theorem test_pitch :
    between (26162556530059862 / 10 ^ 14) (26162556530059864 / 10 ^ 14) (pitchToFreq Numerics.ideal 60) &&
      between (20390018005210294 / 10 ^ 9) (20390018005210296 / 10 ^ 9) (pitchToFreq Numerics.ideal 255) = true := by
  decide +kernel
/-- The octaves, exact. -/
theorem test_pitch_octaves :
    [21, 57, 69, 81].map (fun d : Byte => pitchToFreq Numerics.ideal d) =
      [.rat (55 / 2), .rat 220, .rat 440, .rat 880] := by decide +kernel
theorem test_filter_coefficient :
    between (12470798082478986 / 10 ^ 17) (12470798082478988 / 10 ^ 17)
        (onePole Numerics.ideal (normalizedCutoff Numerics.ideal (.rat 1000) (.rat 44100))) &&
      between (31415926535897931 / 10 ^ 16) (31415926535897933 / 10 ^ 16)
        (normalizedCutoff Numerics.ideal (.rat 22050) (.rat 44100)) = true := by decide +kernel
/-- U1: the ideal instantiation divides by no 0; and may divide by 1 + c, a number that is not rational. -/
theorem test_divides :
    NumSystem.ideal.divides (.rat 0) = false ∧ (NumSystem.other 3).divides (.rat 0) = true ∧
      NumSystem.ideal.divides (onePlus Numerics.ideal (normalizedCutoff Numerics.ideal (.rat 20) (.rat 80))) = true := by
  decide +kernel

/-! ### Oscillators (V-O1, V-O2) -/

theorem test_saw : [0, 7 / 8, 3 / 2, -1 / 10].map (fun p : ℚ => sawWave Numerics.ideal (.rat p)) =
    [.rat 1, .rat (-3 / 4), .rat (-2), .rat (6 / 5)] := by decide +kernel
theorem test_square : [0, 1 / 2, 1023 / 1024].map (fun p : ℚ => squareWave Numerics.ideal (.rat p)) =
    [.rat 1, .rat (-1), .rat (-1)] := by decide +kernel
theorem test_triangle :
    [0, 3 / 8, 1 / 2, 7 / 8, 3 / 2, -1 / 10].map (fun p : ℚ => triangleWave Numerics.ideal (.rat p)) =
      [.rat (-1), .rat (1 / 2), .rat 1, .rat (-1 / 2), .rat (-3), .rat (-7 / 5)] := by decide +kernel
theorem test_osc_gen_square_op :
    look (·.out.ret) (exec (.oscGenSquare (.rat (1 / 2))) s0) = some (some (.rat (-1))) := by decide +kernel
/-- V-O2 rows 1 to 4, 6, 9. -/
theorem test_advance :
    [(0, 440), (99 / 100, 4410), (9 / 10, 4410), (0, 110250), (0, -4410), (1 / 2, 2222 / 5)].map
      (fun r : ℚ × ℚ => advancePhase Numerics.ideal (.rat r.1) (.rat r.2) (.rat 44100)) =
      [.rat (22 / 2205), .rat (9 / 100), .rat 0, .rat (3 / 2), .rat (-1 / 10), .rat (28118 / 55125)] := by
  decide +kernel
theorem test_osc_advance_one :
    look (fun t => (t.osc[3].ph, t.osc[2].ph)) (exec (.oscAdvance 3) s44) = some (.rat (22 / 2205), .rat 0) := by
  decide +kernel
/-- R120: the value is that of the phase before the advance (V-O1 at 0, V-O3). -/
theorem test_osc_gen :
    look (fun t => (t.out.ret, t.osc[1].ph)) (exec (.oscGen 1) s44) = some (some (.rat 1), .rat (22 / 2205)) := by
  decide +kernel
theorem test_osc_gen_noise_counts : look (·.draws) (exec .oscGenNoise s0) = some 1 := by decide +kernel

/-! ### Envelope (V-E2, V-E4, V-E5) -/

theorem test_idle : look (fun t => (t.env.level, t.out.ret)) (exec .envProcessIdle (sEnv .idle (7 / 10))) =
    some (.rat 0, some (.rat 0)) := by decide +kernel
theorem test_attack_step :
    look (fun t => (t.env.level, t.env.stage)) (exec .envProcess (sEnv .attack 0)) = some (.rat (1 / 4), .attack) := by
  decide +kernel
/-- ATT × SR = 5/2: from 4/5 the overshoot 6/5 is clamped to 1. -/
theorem test_attack_overshoot :
    look (fun t => (t.env.level, t.env.stage))
      (exec .envProcessAttack (s0.setEnv
        { s0.env with att := .rat (5 / 16384), stage := .attack, level := .rat (4 / 5) })) =
      some (.rat 1, .decay) := by decide +kernel
/-- Program P2, sample 5: one decrement of (1 − 1/2)/4. -/
theorem test_decay_step :
    look (fun t => (t.env.level, t.env.stage)) (exec .envProcess (sEnv .decay 1)) = some (.rat (7 / 8), .decay) := by
  decide +kernel
/-- Program P2, sample 8: Sustain is entered on equality. -/
theorem test_decay_end :
    look (fun t => (t.env.level, t.env.stage)) (exec .envProcessDecay (sEnv .decay (5 / 8))) =
      some (.rat (1 / 2), .sustain) := by decide +kernel
theorem test_sustain_holds :
    look (fun t => (t.env.level, t.out.ret)) (exec .envProcessSustain (sEnv .sustain (3 / 10))) =
      some (.rat (3 / 10), some (.rat (3 / 10))) := by decide +kernel
/-- REL × SR = 2: 1/512 halves to below 0.001, so the level is 0 and the stage Idle. -/
theorem test_release_end :
    look (fun t => (t.env.level, t.env.stage)) (exec .envProcess (sEnv .release (1 / 512))) = some (.rat 0, .idle) := by
  decide +kernel
theorem test_release_step :
    look (fun t => (t.env.level, t.env.stage)) (exec .envProcessRelease (sEnv .release 1)) =
      some (.rat (1 / 2), .release) := by decide +kernel
/-- V-E5. -/
theorem test_trigger : look (fun t => (t.env.level, t.env.stage)) (exec .envTrigger (sEnv .attack (9 / 10))) =
    some (.rat 0, .attack) := by decide +kernel
theorem test_release : look (fun t => (t.env.level, t.env.stage)) (exec .envRelease (sEnv .attack (9 / 10))) =
    some (.rat (9 / 10), .release) := by decide +kernel
/-- V-E4, and the decay, sustain and release settings. -/
theorem test_envset :
    look (·.env.att) (exec (.envsetA (.rat (1 / 50))) s0) = some (.rat (1 / 50)) ∧
    look (·.env.dec) (exec (.envsetD (.rat 3)) s0) = some (.rat 3) ∧
    look (·.env.sus) (exec (.envsetS (.rat (1 / 4))) s0) = some (.rat (1 / 4)) ∧
    look (·.env.rel) (exec (.envsetR (.rat (-1))) s0) = some (.rat (-1)) := by decide +kernel
/-- R155: a zero time constant is refused when its arm runs, and only then. -/
theorem test_zero_divisor_refused :
    reason (exec .envProcessAttack sZero) = some .divisionByZero ∧
    reason (exec .envProcessRelease sZero) = some .divisionByZero ∧ look (·.env.level) (exec .envProcess sZero) = some (.rat 0) := by decide +kernel

/-! ### Filter and LFO (V-F2, V-L2) -/

/-- V-F2, first call: the output, and the two registers. -/
theorem test_filter_step :
    look (fun t => (t.out.ret.map (between (12470798082478 / 10 ^ 14) (12470798082480 / 10 ^ 14)),
        between (155520804813961 / 10 ^ 16) (155520804813963 / 10 ^ 16) t.filt.y1))
      (exec (.lpfProcess (.rat 1)) (s44.setFilt { s44.filt with cutoff := .rat 1000 })) =
      some (some true, true) := by decide +kernel
/-- At 20 Hz and 80 samples a second the LFO returns 0, 1, 0, −1. -/
theorem test_lfo :
    look (fun t => (t.out.ret, t.lfo.ph))
      (exec .lfoProcess ((State.resetWith (cfgAt 80 .square)).setLfo { ph := .rat (1 / 4), freq := .rat 20 })) =
      some (some (.rat 1), .rat (1 / 2)) := by decide +kernel
theorem test_lfo_wrap :
    look (fun t => (t.out.ret, t.lfo.ph))
      (exec .lfoProcess ((State.resetWith (cfgAt 80 .square)).setLfo { ph := .rat (3 / 4), freq := .rat 20 })) =
      some (some (.rat (-1)), .rat 0) := by decide +kernel

/-! ### Note events (V-S6, V-N2, V-N4) -/

theorem test_noteOn :
    look (fun t => (t.osc[0].freq, t.osc[1].freq, t.osc[2].freq)) (exec (.noteOn 69 100) s0) =
      some (.rat 440, .rat (2222 / 5), .rat 440) := by decide +kernel
theorem test_noteOn_voice :
    look (fun t => (t.ve, t.env.stage, t.env.level)) (exec (.noteOn 69 0) (sEnv .sustain (1 / 2))) =
      some ({ note := 69, gate := true }, .attack, .rat 0) := by decide +kernel
/-- V-N4: after reset the note is 0, so NOTE_OFF 0 matches. -/
theorem test_noteOff_match :
    look (fun t => (t.env.stage, t.ve.gate)) (exec (.noteOff 0 0) s0) = some (.release, false) := by decide +kernel
theorem test_noteOff_other : look (·.env.stage) (exec (.noteOff 5 0) s0) = some .idle := by decide +kernel
theorem test_evtIgnored : look State.registers (exec (.evtIgnored 145 69 100) s0) = some s0.registers := by
  decide +kernel
theorem test_rsvd : look (fun t => (t.registers, t.out)) (exec (.rsvd .r 5) s0) = some (s0.registers, Ports.none) := by
  decide +kernel

/-! ### Parameters (V-S9, V-P1, V-P2, V-P3) -/

theorem test_pset_scales :
    look (·.par 0) (exec (.pset0 (.rat (11 / 500))) s0) = some (.rat 440) ∧
    look (·.par 1) (exec (.pset1 (.rat (1 / 2))) s0) = some (.rat 10000) ∧
    look (·.par 2) (exec (.pset2 (.rat (3 / 2))) s0) = some (.rat 20000) ∧
    look (·.par 3) (exec (.pset3 (.rat (3 / 10))) s0) = some (.rat (3 / 10)) ∧
    look (·.par 4) (exec (.pset4 (.rat (1 / 4))) s0) = some (.rat 5) ∧
    look (·.par 5) (exec (.pset5 (.rat 2)) s0) = some (.rat 2) := by decide +kernel
/-- V-P1 and V-P3: below 0 is 0, and the cutoff register keeps its value. -/
theorem test_pset_clamp :
    look (fun t => (t.par 2, t.filt.cutoff)) (exec (.pset2 (.rat (-1))) s0) = some (.rat 0, .rat 10000) := by
  decide +kernel
theorem test_pget_scales :
    look (·.out.rw) (exec .pget0 (s0.parWrite 0 (.rat 440))) = some (some (.rat (11 / 500))) ∧
    look (·.out.rw) (exec .pget1 (s0.parWrite 1 (.rat 10000))) = some (some (.rat (1 / 2))) ∧
    look (·.out.rw) (exec .pget2 (s0.parWrite 2 (.rat 5000))) = some (some (.rat (1 / 4))) ∧
    look (·.out.rw) (exec .pget3 (s0.parWrite 3 (.rat (3 / 10)))) = some (some (.rat (3 / 10))) ∧
    look (·.out.rw) (exec .pget4 (s0.parWrite 4 (.rat 20))) = some (some (.rat 2)) ∧
    look (·.out.rw) (exec .pget5 (s0.parWrite 5 (.rat 1))) = some (some (.rat (1 / 2))) := by decide +kernel
theorem test_reserved_index :
    look State.registers (exec (.psetRsvd 6 (.rat (1 / 2))) s0) = some s0.registers ∧
    look (·.out.rw) (exec (.pgetRsvd 7) s0) = some (some (.rat 0)) := by decide +kernel
/-- V-M2: of a location with 1000 loaded and 10000 stored after it a load returns either, and not the first again after
the second. -/
theorem test_store_order :
    let l : ParLoc := { seen := .rat 1000, later := [.rat 10000] }
    (l.observe 0).seen = .rat 1000 ∧ (l.observe 1).seen = .rat 10000 ∧
      ((l.observe 1).observe 0).seen = .rat 10000 ∧ ((l.observe 0).observe 1).seen = .rat 10000 := by decide +kernel

/-! ### TICK and the step (V-T1, V-T2, program P2) -/

theorem test_tick_gate_off :
    look (fun t => (t.out.aud, t.registers)) (exec .tick s0) = some (some [.rat 0, .rat 0], s0.registers) := by
  decide +kernel
/-- Program P2, sample 1: the output on both channels, to the digits the spec gives, and the registers. -/
theorem test_tick_gated :
    look (fun t => (t.out.aud.map (·.map (between (5529115426921 / 10 ^ 13) (5529115426923 / 10 ^ 13))),
        between (4891378784676 / 10 ^ 13) (4891378784678 / 10 ^ 13) t.filt.y1))
      (exec .tick sRun) = some (some [true, true], true) := by decide +kernel
theorem test_tick_registers :
    look (fun t => [t.env.level, t.osc[0].ph, t.filt.cutoff, t.lfo.ph, t.lfo.freq]) (exec .tick sRun) =
      some [.rat (1 / 4), .rat (55 / 1024), .rat 10000, .rat 0, .rat 0] := by decide +kernel
/-- V-T2. -/
theorem test_cutoff :
    [(10000, 1, 2), (10000, -1, 2), (10000, 0, 2), (0, 1, 1), (20000, 1, 0)].map
      (fun r : ℚ × ℚ × ℚ => modulatedCutoff Numerics.ideal (.rat r.1) (.rat r.2.1) (.rat r.2.2)) =
      [.rat 20000, .rat 20, .rat 10000, .rat 20, .rat 20000] := by decide +kernel
theorem test_step_waits : look State.registers (step s0) = some s0.registers := by decide +kernel
theorem test_step_command :
    look (fun t => (t.ve.note, t.inbox)) (step (s0.withFetchWord 32 0x10904564)) = some (69, []) := by decide +kernel
/-- R281: RESET gives the gate and the frequencies back, in the configuration it carries. -/
theorem test_step_reset :
    look (fun t => (t.ve.gate, t.env.sr, t.inbox))
      (step { sOn with inbox := [.reset (cfgAt 44100 .saw), .command tickCommand] }) =
      some (false, .rat 44100, [.command tickCommand]) := by decide +kernel

/-! ### Witnesses: for every statement with hypotheses, values that meet them all, at the ends of their ranges -/

/-- Every statement about the ideal instantiation: `s0` and what is built on it are in it; another state is not. -/
theorem test_witness_ideal : s0.Ideal ∧ sRun.Ideal ∧
    ¬ (State.resetWith { cfgAt 8192 .square with num := .other 0 }).Ideal := by decide +kernel

/-- InvariantAtReset, ResetValuesOfTheSource, ResetValuesOfTheSpec: a legal configuration, at the ends of its ranges, in
the ideal instantiation. -/
theorem test_witness_legal : (cfgAt 8192 .square).Legal ∧
    ({ cfgAt 1 .noise with
       nch := 1, sus0 := .rat 1
       p0 := #v[.rat 20000, .rat 0, .rat 20000, .rat 1, .rat 20, .rat 2] } : Cfg).Legal ∧
    (cfgAt 8192 .square).num = .ideal := by decide +kernel

/-- IdealRecordIsExact: a divisor that is not 0. -/
theorem test_witness_divisor : (Num.rat 2).val ≠ 0 := by simp

/-- ResetInputAndWaiting. -/
theorem test_witness_reset_input : ({ s0 with inbox := [.reset (cfgAt 1 .saw)] } : State).inbox =
    .reset (cfgAt 1 .saw) :: [] := rfl

/-- StepRunsTheDecodedCommand. -/
theorem test_witness_command : ({ s0 with inbox := [.command tickCommand] } : State).inbox =
    .command tickCommand :: [] := rfl

/-- ResetInputAndWaiting, StoreOrderIsKeptByEveryStep. -/
theorem test_witness_empty_inbox : s0.inbox = [] := rfl

/-- DecodeOfEncodeIsTheInstruction: the four checked rows at their limits, a micro-operation, and the reserved codes. -/
theorem test_witness_encodable :
    (Instr.evtIgnored 255 255 255).wellFormed ∧ (Instr.evtIgnored 0 0 0).isCommand ∧
    (Instr.psetRsvd 6 (.rat 0)).wellFormed ∧ (Instr.pgetRsvd 7).wellFormed ∧ (Instr.rsvd .r 15).wellFormed ∧
    (Instr.rsvd .c 2).wellFormed ∧ Instr.tick.isCommand ∧ (Instr.lpfProcess (.rat 0)).wellFormed ∧
    (Instr.lpfProcess (.rat 0)).isCommand = false ∧ 5 ≤ (5 : BitVec 3).toNat ∧ 5 ≤ (7 : BitVec 3).toNat := by decide

/-- UnnamedBitsAreIgnored: two words of each class that differ in every bit their class does not name. -/
theorem test_witness_unnamed_bits :
    let e (a b : BitVec 32) (n : Nat) : Bool := a ≠ b && a.extractLsb' 28 4 = b.extractLsb' 28 4 &&
      a.extractLsb' 0 n = b.extractLsb' 0 n
    e 0x00000000 0x0FFFFFFF 0 && e 0x10904564 0x1F904564 24 && e 0x20000001 0x2FFFFFFD 2 &&
      e 0x30000002 0x3FFFFFFA 3 && e 0x40000007 0x4FFFFFFF 3 && e 0xF0000000 0xFFFFFFFF 0 = true := by decide

/-- UnacceptedClassIsNoOperation: the classes next to each port's range. -/
theorem test_witness_unaccepted :
    Port.accepts .r 3 = false ∧ Port.accepts .r 15 = false ∧ Port.accepts .c 2 = false ∧ Port.accepts .c 5 = false := by
  decide

/-- EventDecodedByStatus: class 1, with each kind of status and its neighbours. -/
theorem test_witness_event_status :
    [0x10800000, 0x10900000, 0x107F0000, 0x10810000, 0x108F0000, 0x1F91FFFF].all
      (fun cw : BitVec 32 => cw.extractLsb' 28 4 = 1) = true := by decide

/-- DecodingOfACommandWord: classes and selects of every kind. -/
theorem test_witness_select :
    [(0x20000003 : BitVec 32), 0x30000007, 0x40000007].all (fun w =>
      w.extractLsb' 28 4 = 2 ∧ w.extractLsb' 0 2 = 3 ∨ w.extractLsb' 28 4 = 3 ∧ w.extractLsb' 0 3 = 7 ∨
        w.extractLsb' 28 4 = 4 ∧ w.extractLsb' 0 3 = 7) = true := by decide

/-- NoteOffEffect: the current note, and another. -/
theorem test_witness_noteOff : sOn.ve.note = 69 ∧ (68 : Byte) ≠ sOn.ve.note := by decide

/-- LastNoteWins. -/
theorem test_witness_two_notes : (60 : Byte) ≠ 64 := by decide

/-- PitchMapping: the lowest, the middle and the highest octave of A. -/
theorem test_witness_octaves :
    ((9 : Byte).toNat : ℤ) = 69 + 12 * (-5) ∧ ((69 : Byte).toNat : ℤ) = 69 + 12 * 0 ∧
      ((249 : Byte).toNat : ℤ) = 69 + 12 * 15 := by decide

/-- SawSquareTriangleFormulas, SineWave: phases in a turn, the quarters, and a phase one turn on. -/
theorem test_witness_inTurn : InTurn (.rat 0) ∧ InTurn (.rat (1 / 4)) ∧ InTurn (.rat (1 / 2)) ∧
    InTurn (.rat (1023 / 1024)) ∧ (Num.rat (1 / 4)).val = 1 / 4 ∧ (Num.rat (3 / 4)).val = 3 / 4 ∧
    (Num.rat (5 / 4)).val = (Num.rat (1 / 4)).val + ((1 : ℤ) : ℝ) := by norm_num [InTurn]

/-- NoiseReturnsADraw: the ideal record puts 0 in [−1, 1). -/
theorem test_witness_noise : s0.num.le (s0.num.lit (-1)) (s0.num.lit 0) = true ∧
    s0.num.lt (s0.num.lit 0) (s0.num.lit 1) = true := by decide +kernel

/-- OscAdvanceWrapsOnce, OscGenSamplesThenAdvances, LfoProcessValueAndAdvance, LpfProcessCascade,
CoefficientRangeAndDcGain: divisors that are not 0, and delay states settled at the input 1. -/
theorem test_witness_filter : s0.Ideal ∧ 0 < s0.cfg.sr.val ∧ s0.cfg.sr.val ≠ 0 ∧ 0 < s0.filt.cutoff.val ∧
    1 + 2 * Real.pi * s0.filt.cutoff.val / s0.cfg.sr.val ≠ 0 ∧
    (s0.setFilt { s0.filt with y1 := .rat 1, y2 := .rat 1 }).filt.y1.val = (Num.rat 1).val := by
  have hs : s0.cfg.sr = .rat 8192 := rfl
  have hc : s0.filt.cutoff = .rat 10000 := by decide +kernel
  have := Real.pi_pos
  simp only [hs, hc, Num.val_rat]
  refine ⟨rfl, by norm_num, by norm_num, by norm_num, ?_, rfl⟩
  have : 0 < 2 * Real.pi * ((10000 : ℚ) : ℝ) / ((8192 : ℚ) : ℝ) := by push_cast; positivity
  linarith

/-- PhaseClosedForm, PhasesStayInTurn: every oscillator after a reset, and after a note. -/
theorem test_witness_phases : s0.PhasesInTurn ∧ (after (.noteOn 69 0) s0).PhasesInTurn := by
  have h : ∀ s : State, (∀ i : Fin 5, s.osc[i].ph = .rat 0 ∧ (s.osc[i].freq = .rat 440 ∨ s.osc[i].freq = .rat (2222 / 5))) →
      s.cfg.sr = .rat 8192 → s.PhasesInTurn := by
    intro s h hs i
    rw [(h i).1, hs]
    rcases (h i).2 with e | e <;> rw [e] <;> norm_num [InTurn, RateOk]
  exact ⟨h _ (by decide +kernel) rfl, h _ (by decide +kernel) rfl⟩

/-- PhasesStayInTurn, StageTransitionRelation, GateIsNeverCleared, FrameOfEveryInstruction, LevelStaysInUnit: an
instruction answers. -/
theorem test_witness_next : ∃ t, exec .oscGenNoise s0 = .next t := ⟨_, rfl⟩

/-- What the real values of `s0`'s envelope and rate are. -/
theorem s0_env : s0.env.att.val * s0.env.sr.val = 4 ∧ s0.env.dec.val * s0.env.sr.val = 4 ∧
    s0.env.rel.val * s0.env.sr.val = 2 ∧ s0.env.sus.val = 1 / 2 ∧ s0.env.sr.val = 8192 := by
  norm_num [s0, cfgAt, State.resetWith, Num.val]

/-- AttackArm: a product that is not 0; below 1, exactly 1 and above 1, with ATT × SR = 4. -/
theorem test_witness_attack :
    let l (e : ℚ) : Num := s0.num.add (.rat e) (s0.num.div (s0.num.lit 1) (s0.num.mul s0.env.att s0.env.sr))
    s0.env.att.val * s0.env.sr.val ≠ 0 ∧ s0.num.ge (l 0) (s0.num.lit 1) = false ∧ l (3 / 4) = .rat 1 ∧
      s0.num.ge (l 1) (s0.num.lit 1) = true := by
  exact ⟨by rw [s0_env.1]; norm_num, by decide +kernel, by decide +kernel, by decide +kernel⟩

/-- DecayArm: a product that is not 0; above the sustain level, on it and below it, with DEC × SR = 4. -/
theorem test_witness_decay :
    let l (e : ℚ) : Num :=
      s0.num.sub (.rat e) (s0.num.div (s0.num.sub (s0.num.lit 1) s0.env.sus) (s0.num.mul s0.env.dec s0.env.sr))
    s0.env.dec.val * s0.env.sr.val ≠ 0 ∧ s0.num.le (l 1) s0.env.sus = false ∧ l (5 / 8) = s0.env.sus ∧
      s0.num.le (l (1 / 2)) s0.env.sus = true := by
  exact ⟨by rw [s0_env.2.1]; norm_num, by decide +kernel, by decide +kernel, by decide +kernel⟩

/-- ReleaseArm: a product that is not 0; above 0.001, on it and below it, with REL × SR = 2. -/
theorem test_witness_release :
    let l (e : ℚ) : Num := s0.num.sub (.rat e) (s0.num.div (.rat e) (s0.num.mul s0.env.rel s0.env.sr))
    s0.env.rel.val * s0.env.sr.val ≠ 0 ∧ s0.num.le (l 1) (s0.num.lit (1 / 1000)) = false ∧
      l (1 / 500) = .rat (1 / 1000) ∧ s0.num.le (l 0) (s0.num.lit (1 / 1000)) = true := by
  exact ⟨by rw [s0_env.2.2.1]; norm_num, by decide +kernel, by decide +kernel, by decide +kernel⟩

/-- A state whose sample rate is −2π times its cutoff. -/
def sNeg : State :=
  { s0 with cfg := { s0.cfg with sr := .mul .twoPi (.rat (-1)) }, filt := { s0.filt with cutoff := .rat 1 } }

/-- ZeroDivisorIsRefused: each product 0 in its stage, a sample rate of 0, a gate that is on, a filter whose 1 + c is 0,
and another instantiation. -/
theorem test_witness_zero_divisor :
    (sZero.Ideal ∧ sZero.env.att.val * sZero.env.sr.val = 0 ∧ sZero.env.dec.val * sZero.env.sr.val = 0 ∧
      sZero.env.rel.val * sZero.env.sr.val = 0) ∧
    (sZero.setEnv { sZero.env with stage := .attack }).env.stage = .attack ∧
    (State.resetWith (cfgAt 0 .sine)).cfg.sr.val = 0 ∧ ((State.resetWith (cfgAt 0 .sine)).setVe sOn.ve).ve.gate = true ∧
    (∃ s : State, s.Ideal ∧ 1 + 2 * Real.pi * s.filt.cutoff.val / s.cfg.sr.val = 0) ∧
    ¬ (State.resetWith { cfgAt 8192 .square with num := .other 0 }).Ideal := by
  refine ⟨⟨rfl, ?_, ?_, ?_⟩, rfl, ?_, rfl, ⟨sNeg, rfl, ?_⟩,
    by decide⟩
  · show (Num.rat 0).val * _ = 0; simp
  · show (Num.rat 0).val * _ = 0; simp
  · show (Num.rat 0).val * _ = 0; simp
  · show (Num.rat 0).val = 0; simp
  · show 1 + 2 * Real.pi * (Num.rat 1).val / (Num.mul .twoPi (.rat (-1))).val = 0
    have := Real.pi_ne_zero
    simp only [Num.val]
    push_cast
    field_simp
    ring

/-- EnvProcessRunsOneArm, StageTransitionRelation, TickRendersOneFrame: every stage's product divides. -/
theorem test_witness_arm_divides : s0.env.ArmDivides ∧ (sEnv .attack 0).env.ArmDivides ∧
    (sEnv .decay 1).env.ArmDivides ∧ (sEnv .release 1).env.ArmDivides ∧ 0 < sRun.cfg.sr.val := by
  obtain ⟨a, d, r, _, sr⟩ := s0_env
  have h : ∀ st l, (sEnv st l).env.ArmDivides := fun st l =>
    ⟨fun _ => by show s0.env.att.val * s0.env.sr.val ≠ 0; rw [a]; norm_num,
     fun _ => by show s0.env.dec.val * s0.env.sr.val ≠ 0; rw [d]; norm_num,
     fun _ => by show s0.env.rel.val * s0.env.sr.val ≠ 0; rw [r]; norm_num⟩
  exact ⟨h .idle 0, h _ _, h _ _, h _ _, by show 0 < s0.env.sr.val; rw [sr]; norm_num⟩

/-- SetterTakesEffectAtTheNextCall: a stage, a level and an operand for each of its five clauses, the third at equality. -/
theorem test_witness_setters :
    let N := s0.num
    (s0.num.ge (N.add (.rat 0) (N.div (N.lit 1) (N.mul (.rat (1 / 100)) s0.env.sr))) (N.lit 1) = false ∧
      N.le (N.sub (.rat 1) (N.div (N.sub (N.lit 1) s0.env.sus) (N.mul (.rat (4 / 8192)) s0.env.sr))) s0.env.sus = false ∧
      N.le (N.sub (.rat 1) (N.div (N.sub (N.lit 1) (.rat 1)) (N.mul s0.env.dec s0.env.sr))) (.rat 1) = true ∧
      N.le (N.sub (.rat 1) (N.div (N.sub (N.lit 1) (.rat (1 / 2))) (N.mul s0.env.dec s0.env.sr))) (.rat (1 / 2)) = false ∧
      N.le (N.sub (.rat 1) (N.div (.rat 1) (N.mul (.rat (2 / 8192)) s0.env.sr))) (N.lit (1 / 1000)) = false) ∧
    (sEnv .attack 0).env.stage = .attack ∧ (sEnv .decay 1).env.stage = .decay ∧ (sEnv .release 1).env.stage = .release ∧
    (Num.rat (1 / 100)).val * s0.env.sr.val ≠ 0 := by
  refine ⟨by decide +kernel, rfl, rfl, rfl, ?_⟩
  rw [s0_env.2.2.2.2]; norm_num

/-- StageTransitionRelation: every row is taken by a command. -/
theorem test_witness_stage_rows :
    (after (.noteOn 69 0) s0).env.stage = .attack ∧ (after (.noteOff 69 0) sRun).env.stage = .release ∧
    (after .tick (sRun.setEnv { sRun.env with level := .rat (3 / 4) })).env.stage = .decay ∧
    (after .tick (sRun.setEnv { sRun.env with stage := .decay, level := .rat (5 / 8) })).env.stage = .sustain ∧
    (after .tick (sRun.setEnv { sRun.env with stage := .release })).env.stage = .idle := by decide +kernel

/-- LevelStaysInUnit: well-formed settings, REL × SR at its least, the level at both ends. -/
theorem test_witness_wellSet :
    ({ s0.env with rel := .rat (1 / 8192), sus := .rat 1 } : Env).WellSet ∧ (sEnv .attack 0).env.LevelInUnit ∧
      (sEnv .release 1).env.LevelInUnit := by
  norm_num [Env.WellSet, Env.LevelInUnit, sEnv, s0, cfgAt, State.resetWith, State.setEnv, Num.val]

/-- AttackLength and DecayLength, with N = 4: the last call before the end and the call that ends the stage. -/
theorem test_witness_attack_length :
    (sEnv .attack 0).env.stage = .attack ∧ (sEnv .attack 0).env.level.val = 0 ∧ 0 < s0.env.att.val * s0.env.sr.val ∧
      ((3 : ℕ) : ℝ) < s0.env.att.val * s0.env.sr.val ∧ s0.env.att.val * s0.env.sr.val ≤ ((3 : ℕ) : ℝ) + 1 := by
  rw [s0_env.1]; norm_num [sEnv, State.setEnv]
theorem test_witness_decay_length :
    (sEnv .decay 1).env.stage = .decay ∧ (sEnv .decay 1).env.level.val = 1 ∧ s0.env.sus.val < 1 ∧
      ((3 : ℕ) : ℝ) < s0.env.dec.val * s0.env.sr.val ∧ s0.env.dec.val * s0.env.sr.val ≤ ((3 : ℕ) : ℝ) + 1 := by
  rw [s0_env.2.1, s0_env.2.2.2.1]; norm_num [sEnv, State.setEnv]

/-- ReleaseLength, with N = 2: nine calls above 0.001, and the tenth ends the stage (V-E3). -/
theorem test_witness_release_length :
    (sEnv .release 1).env.stage = .release ∧ 1 < s0.env.rel.val * s0.env.sr.val ∧
      1 / 1000 < (sEnv .release 1).env.level.val * (1 - 1 / (s0.env.rel.val * s0.env.sr.val)) ^ 9 ∧
      (sEnv .release 1).env.level.val * (1 - 1 / (s0.env.rel.val * s0.env.sr.val)) ^ 10 ≤ 1 / 1000 := by
  rw [s0_env.2.2.1]; norm_num [sEnv, State.setEnv]

/-- ResonanceIsInert, OscFreqParametersAreInert: LPF.PROCESS and a gated TICK answer. -/
theorem test_witness_answers : (look (·.ve) (exec .tick sRun)).isSome = true ∧
    (look (·.ve) (exec (.lpfProcess (.rat 1)) sRun)).isSome = true := by decide +kernel

/-- The invariant at a state with a command and a RESET to come, and with a store not yet observed. -/
def sInv : State :=
  { (s0.parWrite 4 (.rat 20)) with
    inbox := [.command { port := .c, cw := 0x30000002, dw := .rat 9 }, .reset (cfgAt 1 .saw)] }

/-- StepKeepsTheInvariant, LfoPhaseStaysInTurn, StoreOrderIsKeptByEveryStep: the state before a PSET.2, and after it. -/
theorem test_witness_inv : sInv.Inv ∧ sInv.Ideal ∧ 20 < sInv.cfg.sr.val ∧ InTurn sInv.lfo.ph ∧
    (∃ t, step sInv = .next t ∧ t.Ideal) ∧
    ∃ rest, sInv.inbox = .command { port := .c, cw := 0x30000002, dw := .rat 9 } :: rest ∧
      decode { port := .c, cw := 0x30000002, dw := .rat 9 } = .pset2 (.rat 9) := by
  refine ⟨⟨⟨by decide +kernel, fun c h => ?_⟩, by unfold State.ConstantsHeld; decide +kernel, fun _ => ⟨?_, ?_, ?_⟩⟩, rfl,
    ?_, ?_, ⟨_, rfl, rfl⟩, _, rfl, by decide +kernel⟩
  · have h' : Input.reset c ∈ [Input.command { port := .c, cw := 0x30000002, dw := .rat 9 }, .reset (cfgAt 1 .saw)] := h
    simp at h'
    subst h'
    decide +kernel
  · have v : ∀ i : Fin 6, ∀ w ∈ sInv.ps[i].values, Numerics.ideal.upTo w (scale i) = true := by decide +kernel
    exact fun i w hw => (Numerics.upTo_ideal w (scale i)).1 (v i w hw)
  · have h : sInv.filt.cutoff = .rat 10000 := by decide +kernel
    norm_num [State.CutoffInRange, h]
  · have h : sInv.lfo.freq = .rat 0 ∧ sInv.filt.res = .rat 0 := by decide +kernel
    norm_num [State.LatchesInRange, h.1, h.2]
  · show 20 < (Num.rat 8192).val; norm_num
  · show InTurn (Num.rat 0); norm_num [InTurn]

/-- TickGateOffIsSilent and TickRendersOneFrame: both gates. -/
theorem test_witness_gates : s0.ve.gate = false ∧ sOn.ve.gate = true := by decide

/-- MixIsBounded: phases in their turns, the level at both ends, and the bound reached (V-S8). -/
theorem test_witness_mix : (∀ i : Fin 5, InTurn s0.osc[i].ph) ∧ (0 : ℝ) ≤ (Num.rat 0).val ∧ (Num.rat 1).val ≤ 1 ∧
    mixOf Numerics.ideal s0.osc 0 = .rat (5 / 2) := by
  refine ⟨fun i => ?_, by simp, by simp, by decide +kernel⟩
  rw [show s0.osc[i].ph = .rat 0 by revert i; decide +kernel]
  norm_num [InTurn]

/-- OscFreqParametersAreInert, ParameterRoundTrip: both parameters; operands at the ends of [0, 1]. -/
theorem test_witness_operands :
    ((0 : Fin 6) = 0 ∨ (0 : Fin 6) = 1) ∧ ((1 : Fin 6) = 0 ∨ (1 : Fin 6) = 1) ∧ 0 ≤ (Num.rat 0).val ∧
      (Num.rat 1).val ≤ 1 := by simp

/-- LocationIsCoherent: an old and a new value of one location. -/
theorem test_witness_location :
    Num.rat 1000 ∈ ({ seen := .rat 1000, later := [.rat 10000] } : ParLoc).values ∧
    Num.rat 10000 ∈ ({ seen := .rat 1000, later := [.rat 10000] } : ParLoc).values := by decide +kernel

/-- StoreOrderIsKeptByEveryStep: a TICK, and a command that is neither a TICK nor a PSET. -/
theorem test_witness_store_commands : decode tickCommand = .tick ∧
    decode { port := .c, cw := 0x40000002, dw := .rat 0 } = .pget2 := by decide +kernel

/-- OnlyAZeroDivisorStops: where an instruction divides by nothing, and where it divides by 0. -/
theorem test_witness_stops : Divides .envTrigger s0 ∧ ¬ Divides .envProcessAttack sZero ∧ divisors .lfoProcess s0 ≠ [] := by
  refine ⟨fun _ d h => (by cases h), fun h => ?_, by decide +kernel⟩
  exact divides_attack.1 h rfl test_witness_zero_divisor.1.2.1

/-- GateIsNeverCleared: the gate on, the gate off, and the instruction that turns it on. -/
theorem test_witness_gate : (after .tick s0).ve.gate = false ∧ (after (.noteOff 69 0) sOn).ve.gate = true ∧
    (after (.noteOn 1 1) s0).ve.gate = true := by decide +kernel

/-- AgentsKeepToTheirState: a command on each port. -/
theorem test_witness_agents :
    (∃ t, exec (decode { port := .c, cw := 0x30000002, dw := .rat 1 }) s0 = .next t) ∧
    ∃ t, exec (decode { port := .r, cw := 0x10904564, dw := .rat 1 }) s0 = .next t := ⟨⟨_, rfl⟩, _, rfl⟩

end Sys2Proof.Tests
end

section
/-! The state family (10_state.md): the reset values the source states (R44) and the life of the gate (R35). -/

namespace Sys2Proof.Machine

/-! ### The reset values (R44) -/

/-- Every oscillator is at 440 Hz after a reset into any configuration (R44). -/
theorem State.resetWith_osc_freq (c : Cfg) (i : Fin 5) :
    (State.resetWith c).osc[i].freq = c.num.record.lit 440 := by
  rw [State.resetWith_osc, Fin.getElem_fin, Vector.getElem_ofFn]

/-- In the ideal instantiation that frequency is the real number 440. -/
theorem State.resetWith_osc_freq_val {c : Cfg} (hc : c.num = .ideal) (i : Fin 5) :
    (State.resetWith c).osc[i].freq.val = 440 := by
  rw [State.resetWith_osc_freq, hc, NumSystem.record_ideal, Numerics.ideal_lit]
  norm_num

/-- The gate is off after a reset into any configuration (R44). -/
theorem State.resetWith_gate (c : Cfg) : (State.resetWith c).ve.gate = false := by rw [State.resetWith_ve]

/-- `State.reset` is the reset into the free legal configuration, so what holds of every reset holds of it. -/
theorem State.reset_eq_resetWith : State.reset = State.resetWith Config.cfg := rfl

/-- Settles O1: the reset values hold in every configuration, and so in that of `State.reset`. -/
theorem resetValuesOfTheSource : Obligations.ResetValuesOfTheSource := by
  unfold Obligations.ResetValuesOfTheSource
  rw [State.reset_eq_resetWith, State.resetWith_num]
  exact ⟨fun c => ⟨State.resetWith_osc_freq c, State.resetWith_osc_freq_val, State.resetWith_gate c⟩,
    State.resetWith_osc_freq _, State.resetWith_gate _⟩

/-! ### The gate (R35) -/

/-- With the gate off a TICK divides by nothing: it always completes, and only drives a frame of zeros
(44_voice_engine.md R197). -/
theorem exec_tick_of_gate_off {s : State} (hg : s.ve.gate = false) :
    exec .tick s = .next (s.quiet.audWrite (s.num.lit 0)) := by
  rw [exec_of_no_divisor (by simp [divisors, hg]), after_tick, if_neg (by simp [hg])]

/-- Driving the ports is no write of a register. -/
@[simp] theorem State.registers_quiet_audWrite (s : State) (v : Num) :
    (s.quiet.audWrite v).registers = s.registers := rfl

/-- A gated TICK processes the envelope once (44_voice_engine.md R196, R199). -/
theorem after_tick_env_of_gate_on {s : State} (hg : s.ve.gate = true) :
    (after .tick s).env = s.env.process s.num := by
  rw [after_tick, if_pos hg, render_eq, State.quiet_num, State.quiet_env]

/-- The gate after an instruction: no instruction but NOTE_ON writes it. -/
theorem after_gate (i : Instr) (s : State) :
    (after i s).ve.gate = s.ve.gate ∨ ∃ d1 d2, i = .noteOn d1 d2 ∧ (after i s).ve.gate = true := by
  rcases after_ve i s with hve | ⟨d1, d2, hi, hve⟩
  · exact .inl (by rw [hve])
  · exact .inr ⟨d1, d2, hi, by rw [hve]⟩

/-- NOTE_ON opens the gate, whatever it was (44_voice_engine.md R192). -/
theorem after_noteOn_gate (d1 d2 : Byte) (s : State) : (after (.noteOn d1 d2) s).ve.gate = true := by
  rw [after_noteOn]

/-- No instruction clears the gate. -/
theorem after_gate_of_gate_on (i : Instr) {s : State} (hg : s.ve.gate = true) : (after i s).ve.gate = true := by
  rcases after_gate i s with hsame | ⟨_, _, _, hon⟩
  · rw [hsame, hg]
  · exact hon

/-- An instruction that opens the gate is a NOTE_ON. -/
theorem noteOn_of_gate_opened {i : Instr} {s : State} (hoff : s.ve.gate = false)
    (hon : (after i s).ve.gate = true) : ∃ d1 d2, i = .noteOn d1 d2 := by
  rcases after_gate i s with hsame | ⟨d1, d2, hi, _⟩
  · rw [hsame, hoff] at hon; cases hon
  · exact ⟨d1, d2, hi⟩

/-- Settles O58: NOTE_ON is the one instruction that writes the gate (`after_gate`), TICK the one that reads it, and the
state after any instruction that completes is `after`. -/
theorem gateIsNeverCleared : Obligations.GateIsNeverCleared := by
  unfold Obligations.GateIsNeverCleared
  refine ⟨State.resetWith_gate, State.resetWith_gate _, fun s hoff => ?_, fun s t hon h => ?_, fun i s t h => ?_⟩
  · exact ⟨_, exec_tick_of_gate_off hoff, State.registers_quiet_audWrite s _⟩
  · rw [exec_next h, after_tick_env_of_gate_on hon]
  · obtain rfl : t = after i s := exec_next h
    refine ⟨after_gate_of_gate_on i, noteOn_of_gate_opened, ?_⟩
    rintro d1 d2 rfl
    exact after_noteOn_gate d1 d2 s

end Sys2Proof.Machine
end

section
/-! The oscillator family (40_oscillator.md): the closed forms of the waveforms (R121 to R124), the phase accumulator
(R126) and OSC.GEN (R120). -/

namespace Sys2Proof.Machine

/-! ### The micro-operation of a waveform -/

/-- A waveform's micro-operation always completes: it returns the sample at its phase, takes the waveform's draws and
writes no register. -/
theorem exec_waveform (w : Waveform) (p : Num) (s : State) :
    exec (w.instr p) s = .next
      { s with
        draws := s.draws + drawsOf w
        out := { aud := none, rw := none, ret := some (sampleAt s.num w p s.draws) } } := by
  have hafter : after (w.instr p) s = State.returning (waveSample w p s.quiet) := by cases w <;> rfl
  have hdiv : divisors (w.instr p) s = [] := by cases w <;> rfl
  rw [exec_of_no_divisor hdiv, hafter, State.returning, waveSample_state, waveSample_value]
  rfl

/-! ### The closed forms as real numbers (R122 to R124) -/

theorem sawWave_val (p : Num) : (sawWave Numerics.ideal p).val = 1 - 2 * p.val := by
  simp [sawWave]

theorem squareWave_val (p : Num) :
    (squareWave Numerics.ideal p).val = if p.val < 1 / 2 then 1 else -1 := by
  simp only [squareWave, Numerics.ideal_lt, Numerics.ideal_lit]
  push_cast
  split_ifs <;> simp

theorem triangleWave_val (p : Num) :
    (triangleWave Numerics.ideal p).val = if p.val < 1 / 2 then 4 * p.val - 1 else 3 - 4 * p.val := by
  simp only [triangleWave, Numerics.ideal_lt, Numerics.ideal_lit]
  push_cast
  split_ifs <;> simp

/-- Over a turn Saw falls from 1 and never reaches -1 (R122). -/
theorem sawWave_mem {p : Num} (hp : InTurn p) :
    -1 < (sawWave Numerics.ideal p).val ∧ (sawWave Numerics.ideal p).val ≤ 1 := by
  obtain ⟨h0, h1⟩ := hp
  rw [sawWave_val]
  constructor <;> linarith

/-- Square takes two values only (R123). -/
theorem squareWave_mem (p : Num) :
    (squareWave Numerics.ideal p).val = -1 ∨ (squareWave Numerics.ideal p).val = 1 := by
  rw [squareWave_val]
  split_ifs
  · exact .inr rfl
  · exact .inl rfl

/-- Settles O19: each micro-operation returns its waveform's sample (`exec_waveform`), whose real value is the closed
form. -/
theorem sawSquareTriangleFormulas : Obligations.SawSquareTriangleFormulas := by
  unfold Obligations.SawSquareTriangleFormulas
  intro s p N saw square triangle
  refine ⟨exec_waveform .saw p s, exec_waveform .square p s, exec_waveform .triangle p s, fun hi => ?_⟩
  have hsaw : saw = sawWave Numerics.ideal p := by rw [← hi.num]; rfl
  have hsquare : square = squareWave Numerics.ideal p := by rw [← hi.num]; rfl
  have htriangle : triangle = triangleWave Numerics.ideal p := by rw [← hi.num]; rfl
  rw [hsaw, hsquare, htriangle]
  exact ⟨sawWave_val p, squareWave_val p, triangleWave_val p, fun hp =>
    ⟨sawWave_mem hp, squareWave_mem p, sampleAt_mem .triangle p s.draws hp⟩⟩

/-! ### The sine (R121) -/

/-- The real sine of 2π times a phase, a quarter of the turn at a time: 0, 1, 0, -1. -/
theorem sin_two_pi_quarters :
    Real.sin (2 * Real.pi * 0) = 0 ∧ Real.sin (2 * Real.pi * (1 / 4)) = 1 ∧
      Real.sin (2 * Real.pi * (1 / 2)) = 0 ∧ Real.sin (2 * Real.pi * (3 / 4)) = -1 := by
  have h1 : 2 * Real.pi * (1 / 4) = Real.pi / 2 := by ring
  have h2 : 2 * Real.pi * (1 / 2) = Real.pi := by ring
  have h3 : 2 * Real.pi * (3 / 4) = Real.pi / 2 + Real.pi := by ring
  refine ⟨by simp, ?_, ?_, ?_⟩
  · rw [h1, Real.sin_pi_div_two]
  · rw [h2, Real.sin_pi]
  · rw [h3, Real.sin_add_pi, Real.sin_pi_div_two]

/-- Whole turns do not change the sine of a phase. -/
theorem sin_two_pi_add_int (x : ℝ) (k : ℤ) :
    Real.sin (2 * Real.pi * (x + k)) = Real.sin (2 * Real.pi * x) := by
  rw [← Real.sin_add_int_mul_two_pi (2 * Real.pi * x) k]
  congr 1
  ring

/-- Settles O20: the micro-operation returns the record's sine (`exec_waveform`), in the ideal instantiation the real
one. (`sineWave` is the model's function, so the theorem has another name.) -/
theorem sineWave_holds : Obligations.SineWave := by
  unfold Obligations.SineWave
  intro s p v
  refine ⟨exec_waveform .sine p s, fun hi => ?_⟩
  have hv (q : Num) : (v q).val = Real.sin (2 * Real.pi * q.val) := by
    rw [← sinTwoPi_val, ← hi.num]; rfl
  obtain ⟨at0, at1, at2, at3⟩ := sin_two_pi_quarters
  rw [hv p]
  refine ⟨rfl, Real.neg_one_le_sin _, Real.sin_le_one _, fun h => ?_, fun h => ?_, fun h => ?_, fun h => ?_,
    fun q k hq => ?_⟩
  · rw [h, at0]
  · rw [h, at1]
  · rw [h, at2]
  · rw [h, at3]
  · rw [hv q, hq, sin_two_pi_add_int]

/-! ### The phase accumulator and OSC.GEN (R120, R126) -/

/-- OSC.ADVANCE(i) completes where the sample rate divides. -/
theorem exec_oscAdvance {s : State} (i : Fin 5) (h : s.Ideal → s.cfg.sr.val ≠ 0) :
    exec (.oscAdvance i) s = .next (oscAdvance i s.quiet) :=
  exec_of_divides ((divides_sampleRate rfl).2 h)

/-- OSC.GEN(i) completes where the sample rate divides. -/
theorem exec_oscGen {s : State} (i : Fin 5) (h : s.Ideal → s.cfg.sr.val ≠ 0) :
    exec (.oscGen i) s = .next (State.returning (oscGen i s.quiet)) :=
  exec_of_divides ((divides_sampleRate rfl).2 h)

/-- Settles O22: OSC.ADVANCE(i) is the model's `oscAdvance`, and the ideal record's fields are exact. -/
theorem oscAdvanceWrapsOnce : Obligations.OscAdvanceWrapsOnce := by
  unfold Obligations.OscAdvanceWrapsOnce
  intro s i hsr N q
  refine ⟨exec_oscAdvance i hsr, fun hi => ?_⟩
  have hN : N = Numerics.ideal := hi.num
  simp [q, hN]

/-- Settles O23: the waveform's micro-operation leaves the registers and the configuration (`exec_waveform`), so the
advance after it is the one OSC.GEN(i) makes. -/
theorem oscGenSamplesThenAdvances : Obligations.OscGenSamplesThenAdvances := by
  unfold Obligations.OscGenSamplesThenAdvances
  intro s i hsr
  refine ⟨_, _, sampleAt s.num s.osc[i].wave s.osc[i].ph s.draws,
    advancePhase s.num s.osc[i].ph s.osc[i].freq s.cfg.sr, exec_waveform _ _ s, rfl, exec_oscAdvance i hsr, ?_, rfl⟩
  rw [exec_oscGen i hsr, State.returning, oscGen_state, oscGen_value]
  rfl

end Sys2Proof.Machine
end

section
/-! The envelope family (41_envelope.md): ENV.TRIGGER and ENV.RELEASE (R146, R147), the setters and the next call
(R152), the transition relation of the stage (R153). -/

namespace Sys2Proof.Machine

/-! ### ENV.TRIGGER and ENV.RELEASE (R146, R147) -/

theorem exec_envTrigger (s : State) : exec .envTrigger s = .next (s.quiet.setEnv (s.env.trigger s.num)) :=
  exec_of_no_divisor rfl

theorem exec_envRelease (s : State) : exec .envRelease s = .next (s.quiet.setEnv s.env.release) :=
  exec_of_no_divisor rfl

/-- Settles O32: both divide by nothing, and write the envelope as `Env.trigger` and `Env.release` say. -/
theorem triggerAndRelease : Obligations.TriggerAndRelease := by
  unfold Obligations.TriggerAndRelease
  exact fun s => ⟨exec_envTrigger s, exec_envRelease s⟩

/-! ### One call of ENV.PROCESS, by stage and by whether the stage ends (R142, R143, R145) -/

/-- The level Attack computes, before it is compared with 1 (R142). -/
def Env.attackLevel (N : Numerics) (e : Env) : Num := N.add e.level (N.div (N.lit 1) (N.mul e.att e.sr))

/-- The level Decay computes, before it is compared with the sustain level (R143). -/
def Env.decayLevel (N : Numerics) (e : Env) : Num :=
  N.sub e.level (N.div (N.sub (N.lit 1) e.sus) (N.mul e.dec e.sr))

/-- The level Release computes, before it is compared with 0.001 (R145). -/
def Env.releaseLevel (N : Numerics) (e : Env) : Num := N.sub e.level (N.div e.level (N.mul e.rel e.sr))

section
variable {N : Numerics} {e : Env}

theorem Env.process_attack_on (hst : e.stage = .attack) (h : N.ge (e.attackLevel N) (N.lit 1) = false) :
    e.process N = { e with level := e.attackLevel N } :=
  (Env.process_of_attack hst).trans (Env.afterAttack_on h)

theorem Env.process_attack_done (hst : e.stage = .attack) (h : N.ge (e.attackLevel N) (N.lit 1) = true) :
    e.process N = { e with level := N.lit 1, stage := .decay } :=
  (Env.process_of_attack hst).trans (Env.afterAttack_done h)

theorem Env.process_decay_on (hst : e.stage = .decay) (h : N.le (e.decayLevel N) e.sus = false) :
    e.process N = { e with level := e.decayLevel N } :=
  (Env.process_of_decay hst).trans (Env.afterDecay_on h)

theorem Env.process_decay_done (hst : e.stage = .decay) (h : N.le (e.decayLevel N) e.sus = true) :
    e.process N = { e with level := e.sus, stage := .sustain } :=
  (Env.process_of_decay hst).trans (Env.afterDecay_done h)

theorem Env.process_release_on (hst : e.stage = .release)
    (h : N.le (e.releaseLevel N) (N.lit (1 / 1000)) = false) :
    e.process N = { e with level := e.releaseLevel N } :=
  (Env.process_of_release hst).trans (Env.afterRelease_on h)

theorem Env.process_release_done (hst : e.stage = .release)
    (h : N.le (e.releaseLevel N) (N.lit (1 / 1000)) = true) :
    e.process N = { e with level := N.lit 0, stage := .idle } :=
  (Env.process_of_release hst).trans (Env.afterRelease_done h)

/-! ### The rows of ENV.PROCESS (R153), each under its condition -/

theorem Env.process_idle_row (hst : e.stage = .idle) :
    (e.process N).stage = .idle ∧ (e.process N).level = N.lit 0 := by
  rw [Env.process_of_idle hst]
  exact ⟨hst, rfl⟩

theorem Env.process_attack_row (hst : e.stage = .attack) :
    if N.ge (e.attackLevel N) (N.lit 1)
    then (e.process N).stage = .decay ∧ (e.process N).level = N.lit 1
    else (e.process N).stage = .attack := by
  split_ifs with h
  · rw [Env.process_attack_done hst h]
    exact ⟨rfl, rfl⟩
  · rw [Env.process_attack_on hst (Bool.eq_false_of_not_eq_true h)]
    exact hst

theorem Env.process_decay_row (hst : e.stage = .decay) :
    if N.le (e.decayLevel N) e.sus
    then (e.process N).stage = .sustain ∧ (e.process N).level = e.sus
    else (e.process N).stage = .decay := by
  split_ifs with h
  · rw [Env.process_decay_done hst h]
    exact ⟨rfl, rfl⟩
  · rw [Env.process_decay_on hst (Bool.eq_false_of_not_eq_true h)]
    exact hst

theorem Env.process_sustain_row (hst : e.stage = .sustain) : (e.process N).stage = .sustain := by
  rw [Env.process_of_sustain hst, hst]

theorem Env.process_release_row (hst : e.stage = .release) :
    if N.le (e.releaseLevel N) (N.lit (1 / 1000))
    then (e.process N).stage = .idle ∧ (e.process N).level = N.lit 0
    else (e.process N).stage = .release := by
  split_ifs with h
  · rw [Env.process_release_done hst h]
    exact ⟨rfl, rfl⟩
  · rw [Env.process_release_on hst (Bool.eq_false_of_not_eq_true h)]
    exact hst

end

/-! ### The product the current arm divides by (R155) -/

theorem Env.armDivides_of_attack {e : Env} (hst : e.stage = .attack) (h : e.att.val * e.sr.val ≠ 0) :
    e.ArmDivides := by simp [Env.ArmDivides, hst, h]

theorem Env.armDivides_of_decay {e : Env} (hst : e.stage = .decay) (h : e.dec.val * e.sr.val ≠ 0) :
    e.ArmDivides := by simp [Env.ArmDivides, hst, h]

theorem Env.armDivides_of_release {e : Env} (hst : e.stage = .release) (h : e.rel.val * e.sr.val ≠ 0) :
    e.ArmDivides := by simp [Env.ArmDivides, hst, h]

/-- ENV.PROCESS completes where the current arm's product divides. -/
theorem exec_envProcess {s : State} (h : s.Ideal → s.env.ArmDivides) :
    exec .envProcess s = .next (after .envProcess s) :=
  exec_of_divides (divides_envProcess.2 h)

/-! ### A setter and the next call (R152) -/

/-- An instruction that writes the envelope and nothing else, then ENV.PROCESS: the call is made on the registers just
written. -/
theorem setEnv_then_envProcess {i : Instr} {s : State} {e f : Env} (hset : exec i s = .next (s.quiet.setEnv e))
    (hdiv : s.Ideal → e.ArmDivides) (hcall : e.process s.num = f) :
    ∃ t u, exec i s = .next t ∧ exec .envProcess t = .next u ∧ u.env = f :=
  ⟨s.quiet.setEnv e, after .envProcess (s.quiet.setEnv e), hset, exec_envProcess hdiv, hcall⟩

/-- Settles O34: the setter divides by nothing and writes its register, and the call that follows runs the arm of the
stage on the registers so written (`setEnv_then_envProcess`). -/
theorem setterTakesEffectAtTheNextCall : Obligations.SetterTakesEffectAtTheNextCall := by
  unfold Obligations.SetterTakesEffectAtTheNextCall
  intro s v N attack decay toSus release
  refine ⟨fun hst hdiv hlt => ?_, fun hst hdiv hlt => ?_, fun hst hdiv hle => ?_, fun hst hdiv hlt => ?_,
    fun hst hdiv hlt => ?_⟩
  · obtain ⟨t, u, ht, hu, hf⟩ := setEnv_then_envProcess (i := .envsetA v) (e := { s.env with att := v })
      (exec_of_no_divisor rfl) (fun hi => Env.armDivides_of_attack hst (hdiv hi)) (Env.process_attack_on hst hlt)
    exact ⟨t, u, ht, hu, congrArg Env.level hf⟩
  · obtain ⟨t, u, ht, hu, hf⟩ := setEnv_then_envProcess (i := .envsetD v) (e := { s.env with dec := v })
      (exec_of_no_divisor rfl) (fun hi => Env.armDivides_of_decay hst (hdiv hi)) (Env.process_decay_on hst hlt)
    exact ⟨t, u, ht, hu, congrArg Env.level hf⟩
  · obtain ⟨t, u, ht, hu, hf⟩ := setEnv_then_envProcess (i := .envsetS v) (e := { s.env with sus := v })
      (exec_of_no_divisor rfl) (fun hi => Env.armDivides_of_decay hst (hdiv hi)) (Env.process_decay_done hst hle)
    exact ⟨t, u, ht, hu, congrArg Env.level hf, congrArg Env.stage hf⟩
  · obtain ⟨t, u, ht, hu, hf⟩ := setEnv_then_envProcess (i := .envsetS v) (e := { s.env with sus := v })
      (exec_of_no_divisor rfl) (fun hi => Env.armDivides_of_decay hst (hdiv hi)) (Env.process_decay_on hst hlt)
    exact ⟨t, u, ht, hu, congrArg Env.level hf⟩
  · obtain ⟨t, u, ht, hu, hf⟩ := setEnv_then_envProcess (i := .envsetR v) (e := { s.env with rel := v })
      (exec_of_no_divisor rfl) (fun hi => Env.armDivides_of_release hst (hdiv hi)) (Env.process_release_on hst hlt)
    exact ⟨t, u, ht, hu, congrArg Env.level hf⟩

/-! ### The transition relation (R153) -/

/-- What a command can do to the stage: NOTE_ON triggers the envelope, a matching NOTE_OFF releases it, a gated TICK
processes it, and no other command writes the stage. -/
theorem after_stage_of_command {i : Instr} (hc : i.isCommand = true) (s : State) :
    (after i s).env.stage = s.env.stage ∨
    (∃ d1 d2, i = .noteOn d1 d2 ∧ (after i s).env = s.env.trigger s.num) ∨
    (∃ d1 d2, i = .noteOff d1 d2 ∧ d1 = s.ve.note ∧ (after i s).env = s.env.release) ∨
    (i = .tick ∧ s.ve.gate = true ∧ (after i s).env = s.env.process s.num) := by
  cases i
  case noteOn d1 d2 => exact .inr (.inl ⟨d1, d2, rfl, rfl⟩)
  case noteOff d1 d2 =>
    rw [after_noteOff]
    split_ifs with hnote
    · exact .inr (.inr (.inl ⟨d1, d2, rfl, hnote, rfl⟩))
    · exact .inl rfl
  case tick =>
    by_cases hg : s.ve.gate = true
    · exact .inr (.inr (.inr ⟨rfl, hg, after_tick_env_of_gate_on hg⟩))
    · rw [after_tick, if_neg hg]
      exact .inl rfl
  case envsetA | envsetD | envsetS | envsetR | evtIgnored | rsvd => exact .inl rfl
  case pset0 | pset1 | pset2 | pset3 | pset4 | pset5 | psetRsvd => exact .inl rfl
  case pget0 | pget1 | pget2 | pget3 | pget4 | pget5 | pgetRsvd => exact .inl rfl
  all_goals cases hc -- a micro-operation is no command

/-- Settles O35: the rows of ENV.PROCESS stage by stage, the writes of ENV.TRIGGER and ENV.RELEASE, and the inversion
of what a command does to the stage (`after_stage_of_command`), where a gated TICK takes a row of ENV.PROCESS
(`Env.process_stage`). -/
theorem stageTransitionRelation : Obligations.StageTransitionRelation := by
  unfold Obligations.StageTransitionRelation
  refine ⟨fun s hdiv => ?_, fun s => ?_, fun i s t hc h => ?_⟩
  · exact ⟨_, exec_envProcess hdiv, Env.process_idle_row, Env.process_attack_row, Env.process_decay_row,
      Env.process_sustain_row, Env.process_release_row⟩
  · exact ⟨_, _, exec_envTrigger s, rfl, rfl, exec_envRelease s, rfl, rfl⟩
  · obtain rfl : t = after i s := exec_next h
    rcases after_stage_of_command hc s with hsame | ⟨d1, d2, hi, henv⟩ | ⟨d1, d2, hi, hnote, henv⟩ | ⟨hi, hg, henv⟩
    · exact .inl hsame
    · exact .inr (.inl ⟨d1, d2, hi, congrArg Env.stage henv, congrArg Env.level henv⟩)
    · exact .inr (.inr (.inl ⟨d1, d2, hi, hnote, congrArg Env.stage henv, by rw [henv]; rfl⟩))
    · rw [henv]
      rcases s.env.process_stage s.num with hstay | hrow
      · exact .inl hstay
      · exact .inr (.inr (.inr ⟨hi, hg, hrow⟩))

end Sys2Proof.Machine
end

section
/-! The filter family (42_filter.md): the two-stage cascade of LPF.PROCESS (R170). -/

namespace Sys2Proof.Machine

/-- LPF.PROCESS completes where the sample rate and 1 + c divide, and then writes the filter's two delay registers and
returns the new `FILT.Y2` (R170). -/
theorem exec_lpfProcess {s : State} (x : Num)
    (h : s.Ideal → s.cfg.sr.val ≠ 0 ∧ 1 + 2 * Real.pi * s.filt.cutoff.val / s.cfg.sr.val ≠ 0) :
    exec (.lpfProcess x) s = .next (State.returning (lpfProcess x s.quiet)) :=
  exec_of_divides (divides_lpfProcess.2 h)

/-- Settles O40: the state LPF.PROCESS answers is the cascade's (`exec_lpfProcess`), and in the ideal instantiation the
cutoff, the coefficient and each stage have their real values (`normalizedCutoff_val`, `onePole_val`, `smooth_val`). -/
theorem lpfProcessCascade : Obligations.LpfProcessCascade := by
  unfold Obligations.LpfProcessCascade
  intro s x N c k stage1 newY1
  refine ⟨exec_lpfProcess x, fun hi => ?_⟩
  have hN : N = Numerics.ideal := hi.num
  have hcutoff : c = normalizedCutoff Numerics.ideal s.filt.cutoff s.cfg.sr := by rw [← hN]; rfl
  have hpole : k = onePole Numerics.ideal c := by rw [← hN]; rfl
  have hstage1 : stage1 = smooth Numerics.ideal k x s.filt.y1 := by rw [← hN]; rfl
  have hnewY1 : newY1 = smooth Numerics.ideal k stage1 s.filt.y2 := by rw [← hN]; rfl
  exact ⟨by rw [hcutoff, normalizedCutoff_val], by rw [hpole, onePole_val], by rw [hstage1, smooth_val],
    by rw [hnewY1, smooth_val]⟩

end Sys2Proof.Machine
end

section
/-! The LFO family (43_lfo.md): the value LFO.PROCESS returns and its phase advance (R180). -/

namespace Sys2Proof.Machine

/-- LFO.PROCESS completes where the sample rate divides: it returns the sine of the phase before the advance, and the
phase advances by one `advancePhase` (R180). -/
theorem exec_lfoProcess {s : State} (h : s.Ideal → s.cfg.sr.val ≠ 0) :
    exec .lfoProcess s = .next
      { s with
        lfo := { s.lfo with ph := advancePhase s.num s.lfo.ph s.lfo.freq s.cfg.sr }
        out := { aud := none, rw := none, ret := some (sinTwoPi s.num s.lfo.ph) } } :=
  exec_of_divides ((divides_sampleRate rfl).2 h)

/-- Settles O43: the state LFO.PROCESS answers is `exec_lfoProcess`'s, and in the ideal instantiation the value is the
real sine (`sinTwoPi_val`) and the advance's fields are exact. -/
theorem lfoProcessValueAndAdvance : Obligations.LfoProcessValueAndAdvance := by
  unfold Obligations.LfoProcessValueAndAdvance
  intro s hsr N v q
  refine ⟨exec_lfoProcess hsr, fun hi => ?_⟩
  have hN : N = Numerics.ideal := hi.num
  have hv : v.val = Real.sin (2 * Real.pi * s.lfo.ph.val) := by
    rw [← sinTwoPi_val, ← hN]; rfl
  have hq : q.val = s.lfo.ph.val + s.lfo.freq.val / s.cfg.sr.val := by simp [q, hN]
  have hwrap : N.ge q (N.lit 1) = true ↔ 1 ≤ q.val := by simp [hN]
  have hsub : (N.sub q (N.lit 1)).val = q.val - 1 := by simp [hN]
  rw [hv]
  exact ⟨rfl, Real.neg_one_le_sin _, Real.sin_le_one _, hq, hwrap, hsub⟩

end Sys2Proof.Machine
end

section
/-! The voice-engine family (44_voice_engine.md): the decode of an event (R190), the meanings of the three events
(R191 to R193), the TICK with the gate off (R197). -/

namespace Sys2Proof.Machine

/-! ### The meanings of the events (R191 to R193) -/

/-- NOTE_ON's one division is by 12, never by a number of the state, so it completes in every state (R192, R194). -/
theorem exec_noteOn (data1 data2 : Byte) (s : State) :
    exec (.noteOn data1 data2) s = .next (after (.noteOn data1 data2) s) :=
  exec_of_no_divisor rfl

theorem exec_noteOff_of_current {s : State} {data1 : Byte} (data2 : Byte) (h : data1 = s.ve.note) :
    exec (.noteOff data1 data2) s = .next (s.quiet.setEnv s.env.release) := by
  rw [exec_of_no_divisor rfl, after_noteOff, if_pos h]

theorem exec_noteOff_of_other {s : State} {data1 : Byte} (data2 : Byte) (h : data1 ≠ s.ve.note) :
    exec (.noteOff data1 data2) s = .next s.quiet := by
  rw [exec_of_no_divisor rfl, after_noteOff, if_neg h]

theorem exec_evtIgnored (status data1 data2 : Byte) (s : State) :
    exec (.evtIgnored status data1 data2) s = .next s.quiet :=
  exec_of_no_divisor rfl

/-- The second tracking oscillator is 1.01 times the pitch in the ideal instantiation (R192). -/
theorem detunedPitch_val (data1 : Byte) :
    (Numerics.ideal.mul (pitchToFreq Numerics.ideal data1) (Numerics.ideal.lit (101 / 100))).val =
      440 * (2 : ℝ) ^ (((data1.toNat : ℝ) - 69) / 12) * (101 / 100) := by
  rw [Numerics.ideal_mul, pitchToFreq_val, Numerics.ideal_lit]
  norm_num

/-- Settles O14: NOTE_ON completes with its `after` state, and the two frequencies are the pitch mapping's real value
(`pitchToFreq_val`) and 1.01 times it (`detunedPitch_val`). -/
theorem noteOnEffect : Obligations.NoteOnEffect := by
  unfold Obligations.NoteOnEffect
  intro s data1 data2 N
  refine ⟨exec_noteOn data1 data2 s, fun hi => ?_⟩
  have hN : N = Numerics.ideal := hi.num
  rw [hN]
  exact ⟨pitchToFreq_val data1, detunedPitch_val data1⟩

/-- Settles O15: the comparison of the pitch with the current note decides between Release and no write. -/
theorem noteOffEffect : Obligations.NoteOffEffect := by
  unfold Obligations.NoteOffEffect
  exact fun _ _ data2 => ⟨exec_noteOff_of_current data2, exec_noteOff_of_other data2⟩

/-- Settles O16: the state EVT_IGNORED answers is the same state with its ports quiet. -/
theorem otherEventsAreIgnored : Obligations.OtherEventsAreIgnored := by
  unfold Obligations.OtherEventsAreIgnored
  exact fun s status data1 data2 => exec_evtIgnored status data1 data2 s

/-! ### The decode of an event (R190) -/

/-- The event decode compares the whole status byte (30_encoding.md R91). -/
theorem decodeEvent_eq (status data1 data2 : Byte) :
    decodeEvent status data1 data2 =
      if status = 128 then .noteOff data1 data2
      else if status = 144 then .noteOn data1 data2
      else .evtIgnored status data1 data2 := by
  simp [decodeEvent, BitVec.toNat_eq]

/-- Any word of class 1 on the R port is an event, its reserved bits ignored (30_encoding.md R109). -/
theorem decode_of_class_one {cw : BitVec 32} (dw : Num) (h : Command.cls cw = 1) :
    decode { port := .r, cw := cw, dw := dw } =
      decodeEvent (Command.status cw) (Command.data1 cw) (Command.data2 cw) := by
  simp [decode, Port.accepts, h]

/-- An event of any status completes, writes no frame, and neither changes nor loads a parameter (R190). -/
theorem exec_decodeEvent (status data1 data2 : Byte) (s : State) :
    ∃ t, exec (decodeEvent status data1 data2) s = .next t ∧ t.out.aud = none ∧
      t.ps = s.ps ∧ t.loads = s.loads := by
  rw [decodeEvent_eq]
  split_ifs
  · by_cases hnote : data1 = s.ve.note
    · exact ⟨_, exec_noteOff_of_current data2 hnote, rfl, rfl, rfl⟩
    · exact ⟨_, exec_noteOff_of_other data2 hnote, rfl, rfl, rfl⟩
  · exact ⟨_, exec_noteOn data1 data2 s, rfl, rfl, rfl⟩
  · exact ⟨_, exec_evtIgnored status data1 data2 s, rfl, rfl, rfl⟩

/-- Settles O13: a class 1 word decodes by its status byte (`decode_of_class_one`, `decodeEvent_eq`), and each of the
three events leaves the store and the audio output alone (`exec_decodeEvent`). -/
theorem eventDecodedByStatus : Obligations.EventDecodedByStatus := by
  unfold Obligations.EventDecodedByStatus
  intro cw dw h
  rw [decode_of_class_one dw h]
  exact ⟨decodeEvent_eq _ _ _, exec_decodeEvent _ _ _⟩

/-! ### TICK with the gate off (R197) -/

/-- Settles O45: such a TICK is a write of zeros to the audio output and nothing else (`exec_tick_of_gate_off`). -/
theorem tickGateOffIsSilent : Obligations.TickGateOffIsSilent := by
  unfold Obligations.TickGateOffIsSilent
  exact fun _ hg => exec_tick_of_gate_off hg

end Sys2Proof.Machine
end

section
/-! The parameter family (45_parameter_access.md): the value a PGET returns and what it leaves unchanged (R228 to R232,
R234). -/

namespace Sys2Proof.Machine

/-- The state after a PGET of parameter `i`: only the ports differ from `s`, and they drive the result alone (R228). -/
theorem State.pget_eq (s : State) (i : Fin 6) :
    s.pget i =
      { s with out := { aud := none, rw := some (s.num.div (s.par i) (s.num.lit (rscale i))), ret := none } } := rfl

/-- An instruction that divides by nothing and loads parameter `i`, whose read-back divisor is `d`, answers the stored
value over `d` and writes nothing else. -/
theorem exec_of_after_pget {j : Instr} {s : State} {i : Fin 6} {d : ℚ} (hdiv : divisors j s = [])
    (hafter : after j s = s.pget i) (hd : rscale i = d) :
    exec j s =
      .next { s with out := { aud := none, rw := some (s.num.div (s.par i) (s.num.lit d)), ret := none } } := by
  rw [exec_of_no_divisor hdiv, hafter, State.pget_eq, hd]

/-- In the ideal instantiation a division by a literal is the real quotient. -/
theorem State.Ideal.div_lit_val {s : State} (h : s.Ideal) (v : Num) (d : ℚ) :
    (s.num.div v (s.num.lit d)).val = v.val / d := by
  rw [h.num, Numerics.ideal_div, Numerics.ideal_lit]

/-- Settles O51: each of the five answers the stored value over its own read-back divisor (`exec_of_after_pget`), in the
ideal instantiation the real quotient (`State.Ideal.div_lit_val`), which over 1 is the stored value itself. -/
theorem pgetReturnsTheNormalizedValue : Obligations.PgetReturnsTheNormalizedValue := by
  unfold Obligations.PgetReturnsTheNormalizedValue
  intro s ratio result
  have hval (hi : s.Ideal) (i : Fin 6) (d : ℚ) : (ratio i d).val = (s.par i).val / d := hi.div_lit_val _ d
  refine ⟨exec_of_after_pget rfl rfl rfl, exec_of_after_pget rfl rfl rfl, exec_of_after_pget rfl rfl rfl,
    exec_of_after_pget rfl rfl rfl, exec_of_after_pget rfl rfl rfl, fun hi => ?_⟩
  simp [hval hi]

end Sys2Proof.Machine
end

section
/-! The hazards family (70_reset_and_hazards.md): the last note wins and there is no stack of notes (R291). -/

namespace Sys2Proof.Machine

/-- The current note is the last NOTE_ON's; no earlier one is kept (R291). -/
@[simp] theorem after_noteOn_note (data1 data2 : Byte) (s : State) : (after (.noteOn data1 data2) s).ve.note = data1 := by
  rw [after_noteOn]

/-- Making the ports quiet is no write of a register. -/
@[simp] theorem State.registers_quiet (s : State) : s.quiet.registers = s.registers := rfl

/-- A write of the envelope is the write of one register group. -/
@[simp] theorem State.registers_setEnv (s : State) (e : Env) : (s.setEnv e).registers = { s.registers with env := e } := rfl

/-- Settles O17: after the second NOTE_ON the current note is b (`after_noteOn_note`), so a NOTE_OFF of a finds another
note and writes nothing (`exec_noteOff_of_other`), and one of b writes the stage (`exec_noteOff_of_current`). -/
theorem lastNoteWins : Obligations.LastNoteWins := by
  unfold Obligations.LastNoteWins
  intro s a b v w x hab
  let t := after (.noteOn a v) s
  let u := after (.noteOn b w) t
  have hnote : u.ve.note = b := after_noteOn_note b w t
  refine ⟨t, u, exec_noteOn a v s, exec_noteOn b w t, hnote, ?_, ?_⟩
  · have hother : a ≠ u.ve.note := hnote.symm ▸ hab
    exact ⟨u.quiet, exec_noteOff_of_other x hother, u.registers_quiet⟩
  · exact ⟨u.quiet.setEnv u.env.release, exec_noteOff_of_current x hnote.symm, u.quiet.registers_setEnv _⟩

end Sys2Proof.Machine
end

section
/-! The encoding family (30_encoding.md): how a command word decodes, class by class (R93, R96, R97, R109), and that
encoding a well-formed command and decoding it gives it back (R98, R99 for the register codes). -/

namespace Sys2Proof.Machine

/-! ### The classes of a command word (R96, R109) -/

/-- The classes a port accepts, written out (R96). -/
theorem accepts_iff (p : Port) (cls : BitVec 4) :
    p.accepts cls = true ↔ (p = .r ∧ (cls = 0 ∨ cls = 1 ∨ cls = 2)) ∨ (p = .c ∧ (cls = 3 ∨ cls = 4)) := by
  cases p <;> simp [Port.accepts, BitVec.toNat_eq]
  omega

theorem decode_of_class_zero {cw : BitVec 32} (dw : Num) (h : Command.cls cw = 0) :
    decode { port := .r, cw := cw, dw := dw } = .tick := by simp [decode, Port.accepts, h]

theorem decode_of_class_two {cw : BitVec 32} (dw : Num) (h : Command.cls cw = 2) :
    decode { port := .r, cw := cw, dw := dw } = decodeEnvset (Command.sel cw) dw := by simp [decode, Port.accepts, h]

theorem decode_of_class_three {cw : BitVec 32} (dw : Num) (h : Command.cls cw = 3) :
    decode { port := .c, cw := cw, dw := dw } = decodePset (Command.idx cw) dw := by simp [decode, Port.accepts, h]

theorem decode_of_class_four {cw : BitVec 32} (dw : Num) (h : Command.cls cw = 4) :
    decode { port := .c, cw := cw, dw := dw } = decodePget (Command.idx cw) := by simp [decode, Port.accepts, h]

/-- What a command decodes to, by its port and its class: one of the five accepted classes, or RSVD (R97, R109). -/
theorem decode_cases (c : Command) :
    (c.port = .r ∧ Command.cls c.cw = 0 ∧ decode c = .tick) ∨
    (c.port = .r ∧ Command.cls c.cw = 1 ∧
      decode c = decodeEvent (Command.status c.cw) (Command.data1 c.cw) (Command.data2 c.cw)) ∨
    (c.port = .r ∧ Command.cls c.cw = 2 ∧ decode c = decodeEnvset (Command.sel c.cw) c.dw) ∨
    (c.port = .c ∧ Command.cls c.cw = 3 ∧ decode c = decodePset (Command.idx c.cw) c.dw) ∨
    (c.port = .c ∧ Command.cls c.cw = 4 ∧ decode c = decodePget (Command.idx c.cw)) ∨
    (c.port.accepts (Command.cls c.cw) = false ∧ decode c = .rsvd c.port (Command.cls c.cw)) := by
  obtain ⟨p, cw, dw⟩ := c
  by_cases hacc : p.accepts (Command.cls cw) = true
  · rcases (accepts_iff _ _).1 hacc with ⟨rfl, h | h | h⟩ | ⟨rfl, h | h⟩
    · exact .inl ⟨rfl, h, decode_of_class_zero dw h⟩
    · exact .inr (.inl ⟨rfl, h, decode_of_class_one dw h⟩)
    · exact .inr (.inr (.inl ⟨rfl, h, decode_of_class_two dw h⟩))
    · exact .inr (.inr (.inr (.inl ⟨rfl, h, decode_of_class_three dw h⟩)))
    · exact .inr (.inr (.inr (.inr (.inl ⟨rfl, h, decode_of_class_four dw h⟩))))
  · have hrsvd := Bool.eq_false_of_not_eq_true hacc
    exact .inr (.inr (.inr (.inr (.inr ⟨hrsvd, decode_rsvd hrsvd⟩))))

/-! ### Decoding what was encoded (R93, R109) -/

open Laws in
/-- Every well-formed instruction that has a command word is what the word decodes to: the per-instruction family,
gathered. -/
theorem issueRoundTrip : ∀ i : Instr, IssueRoundTrip.Statement i
  | .tick => IssueRoundTrip.tick
  | .noteOff d1 d2 => IssueRoundTrip.noteOff d1 d2
  | .noteOn d1 d2 => IssueRoundTrip.noteOn d1 d2
  | .evtIgnored st d1 d2 => IssueRoundTrip.evtIgnored st d1 d2
  | .envsetA v => IssueRoundTrip.envsetA v
  | .envsetD v => IssueRoundTrip.envsetD v
  | .envsetS v => IssueRoundTrip.envsetS v
  | .envsetR v => IssueRoundTrip.envsetR v
  | .pset0 x => IssueRoundTrip.pset0 x
  | .pset1 x => IssueRoundTrip.pset1 x
  | .pset2 x => IssueRoundTrip.pset2 x
  | .pset3 x => IssueRoundTrip.pset3 x
  | .pset4 x => IssueRoundTrip.pset4 x
  | .pset5 x => IssueRoundTrip.pset5 x
  | .psetRsvd idx x => IssueRoundTrip.psetRsvd idx x
  | .pget0 => IssueRoundTrip.pget0
  | .pget1 => IssueRoundTrip.pget1
  | .pget2 => IssueRoundTrip.pget2
  | .pget3 => IssueRoundTrip.pget3
  | .pget4 => IssueRoundTrip.pget4
  | .pget5 => IssueRoundTrip.pget5
  | .pgetRsvd idx => IssueRoundTrip.pgetRsvd idx
  | .rsvd p cls => IssueRoundTrip.rsvd p cls
  | .oscGenSine p => IssueRoundTrip.oscGenSine p
  | .oscGenSaw p => IssueRoundTrip.oscGenSaw p
  | .oscGenSquare p => IssueRoundTrip.oscGenSquare p
  | .oscGenTriangle p => IssueRoundTrip.oscGenTriangle p
  | .oscGenNoise => IssueRoundTrip.oscGenNoise
  | .envProcessIdle => IssueRoundTrip.envProcessIdle
  | .envProcessAttack => IssueRoundTrip.envProcessAttack
  | .envProcessDecay => IssueRoundTrip.envProcessDecay
  | .envProcessSustain => IssueRoundTrip.envProcessSustain
  | .envProcessRelease => IssueRoundTrip.envProcessRelease
  | .oscGen n => IssueRoundTrip.oscGen n
  | .oscAdvance n => IssueRoundTrip.oscAdvance n
  | .envProcess => IssueRoundTrip.envProcess
  | .envTrigger => IssueRoundTrip.envTrigger
  | .envRelease => IssueRoundTrip.envRelease
  | .lpfProcess x => IssueRoundTrip.lpfProcess x
  | .lfoProcess => IssueRoundTrip.lfoProcess

/-- The instructions that are issued as a command are the commands (R110). -/
theorem encode_isSome (i : Instr) : (encode i).isSome = i.isCommand := by cases i <;> rfl

theorem encode_of_command {i : Instr} (h : i.isCommand = true) : ∃ c, encode i = some c :=
  Option.isSome_iff_exists.1 ((encode_isSome i).trans h)

theorem encode_of_microOperation {i : Instr} (h : i.isCommand = false) : encode i = none :=
  Option.isNone_iff_eq_none.1 (Option.isSome_eq_false_iff.1 ((encode_isSome i).trans h))

theorem wave3_ofCode_code (w : Waveform) : Waveform.ofCode w.code = .ok w := by cases w <;> rfl

theorem stage3_ofCode_code (e : Stage) : Stage.ofCode e.code = .ok e := by cases e <;> rfl

/-- The three codes of a 3-bit register that name nothing (R130, R156). -/
theorem reserved_code {b : BitVec 3} (h : 5 ≤ b.toNat) : b = 5 ∨ b = 6 ∨ b = 7 := by
  simp only [BitVec.toNat_eq, BitVec.reduceToNat]
  have := b.isLt
  omega

theorem wave3_ofCode_reserved {b : BitVec 3} (h : 5 ≤ b.toNat) :
    Waveform.ofCode b = .error (.reservedWave b) := by
  rcases reserved_code h with rfl | rfl | rfl <;> rfl

theorem stage3_ofCode_reserved {b : BitVec 3} (h : 5 ≤ b.toNat) : Stage.ofCode b = .error (.reservedStage b) := by
  rcases reserved_code h with rfl | rfl | rfl <;> rfl

/-- Settles O9: a command is issued (`encode_of_command`) as a word that decodes to it (`issueRoundTrip`), a
micro-operation is not; and the two code tables. -/
theorem decodeOfEncodeIsTheInstruction : Obligations.DecodeOfEncodeIsTheInstruction := by
  unfold Obligations.DecodeOfEncodeIsTheInstruction
  refine ⟨fun i hw => ⟨fun hc => ?_, encode_of_microOperation⟩,
    ⟨rfl, rfl, rfl, rfl, rfl, wave3_ofCode_code, fun _ => wave3_ofCode_reserved⟩,
    rfl, rfl, rfl, rfl, rfl, stage3_ofCode_code, fun _ => stage3_ofCode_reserved⟩
  obtain ⟨c, he⟩ := encode_of_command hc
  exact ⟨c, he, issueRoundTrip i hw c he⟩

/-! ### What decoding can give (R103, R109) -/

/-- A well-formed command: what decoding gives. -/
def IsWord (i : Instr) : Prop := i.wellFormed = true ∧ i.isCommand = true

theorem decodeEvent_isWord (status data1 data2 : Byte) : IsWord (decodeEvent status data1 data2) := by
  unfold decodeEvent
  split_ifs with h80 h90
  · exact ⟨rfl, rfl⟩
  · exact ⟨rfl, rfl⟩
  · exact ⟨by simp [Instr.wellFormed, h80, h90], rfl⟩

theorem decodeEnvset_isWord (sel : BitVec 2) (v : Num) : IsWord (decodeEnvset sel v) := by
  unfold decodeEnvset
  split <;> exact ⟨rfl, rfl⟩

/-- The indices: 0 to 5 are parameters, 6 and 7 are reserved (R109). -/
theorem index_cases (idx : BitVec 3) :
    idx = 0 ∨ idx = 1 ∨ idx = 2 ∨ idx = 3 ∨ idx = 4 ∨ idx = 5 ∨ idx = 6 ∨ idx = 7 := by
  revert idx
  decide

theorem decodePset_isWord (idx : BitVec 3) (x : Num) : IsWord (decodePset idx x) := by
  rcases index_cases idx with rfl | rfl | rfl | rfl | rfl | rfl | rfl | rfl <;> exact ⟨rfl, rfl⟩

theorem decodePget_isWord (idx : BitVec 3) : IsWord (decodePget idx) := by
  rcases index_cases idx with rfl | rfl | rfl | rfl | rfl | rfl | rfl | rfl <;> exact ⟨rfl, rfl⟩

/-- Settles O10: by the class of the command (`decode_cases`); RSVD is well formed because its class is not
accepted. -/
theorem decodedCommandsAreWellFormed : Obligations.DecodedCommandsAreWellFormed := by
  unfold Obligations.DecodedCommandsAreWellFormed
  intro c
  rcases decode_cases c with ⟨-, -, h⟩ | ⟨-, -, h⟩ | ⟨-, -, h⟩ | ⟨-, -, h⟩ | ⟨-, -, h⟩ | ⟨hacc, h⟩ <;> rw [h]
  · exact ⟨rfl, rfl⟩
  · exact decodeEvent_isWord _ _ _
  · exact decodeEnvset_isWord _ _
  · exact decodePset_isWord _ _
  · exact decodePget_isWord _
  · exact ⟨by simp [Instr.wellFormed, hacc], rfl⟩

/-! ### The bits a class names (R93) -/

/-- A field of the low 24 bits is a field of the word. -/
theorem extractLsb'_of_low {cw cw' : BitVec 32} (h : cw.extractLsb' 0 24 = cw'.extractLsb' 0 24) {start len : Nat}
    (hle : start + len ≤ 24) : cw.extractLsb' start len = cw'.extractLsb' start len := by
  have hlow (w : BitVec 32) : (w.extractLsb' 0 24).extractLsb' start len = w.extractLsb' start len := by
    rw [BitVec.extractLsb'_extractLsb'_of_le (by omega)]
  rw [← hlow cw, h, hlow cw']

/-- Settles O11: the two commands are decoded by the same class (`decode_cases`), and from fields that are equal. -/
theorem unnamedBitsAreIgnored : Obligations.UnnamedBitsAreIgnored := by
  unfold Obligations.UnnamedBitsAreIgnored
  intro p cw cw' dw dw' hcls hevent henvset hpset hpget
  have hcls' : Command.cls cw' = Command.cls cw := hcls.symm
  rcases decode_cases { port := p, cw := cw, dw := dw } with
    ⟨rfl, h, hd⟩ | ⟨rfl, h, hd⟩ | ⟨rfl, h, hd⟩ | ⟨rfl, h, hd⟩ | ⟨rfl, h, hd⟩ | ⟨hacc, hd⟩ <;> rw [hd]
  · rw [decode_of_class_zero dw' (hcls'.trans h)]
  · have hlow := hevent h
    rw [decode_of_class_one dw' (hcls'.trans h)]
    congr 1 <;> exact extractLsb'_of_low hlow (by decide)
  · obtain ⟨hsel, hdw⟩ := henvset h
    rw [decode_of_class_two dw' (hcls'.trans h)]
    exact congrArg₂ decodeEnvset hsel hdw
  · obtain ⟨hidx, hdw⟩ := hpset h
    rw [decode_of_class_three dw' (hcls'.trans h)]
    exact congrArg₂ decodePset hidx hdw
  · rw [decode_of_class_four dw' (hcls'.trans h)]
    exact congrArg decodePget (hpget h)
  · rw [decode_rsvd (c := { port := p, cw := cw', dw := dw' }) (hcls' ▸ hacc), hcls']

/-! ### Every word (R97, R109) -/

/-- Settles O8: each class has its equation (`decode_of_class_zero` to `decode_of_class_four`, `decode_rsvd`), and each
select its row of the class's table. -/
theorem decodingOfACommandWord : Obligations.DecodingOfACommandWord := by
  unfold Obligations.DecodingOfACommandWord
  intro p cw dw cls d
  refine ⟨fun h => ?_, ?_, ?_, ?_, ?_, ?_⟩
  · have hacc : ¬ p.accepts cls = true := by
      rw [accepts_iff]
      rcases h with ⟨rfl, h0, h1, h2⟩ | ⟨rfl, h3, h4⟩ <;> simp_all
    exact decode_rsvd (Bool.eq_false_of_not_eq_true hacc)
  · rintro rfl h
    exact decode_of_class_zero dw h
  · rintro rfl h
    exact (decode_of_class_one dw h).trans (decodeEvent_eq _ _ _)
  · rintro rfl h
    have hd : d = decodeEnvset (cw.extractLsb' 0 2) dw := decode_of_class_two dw h
    refine ⟨?_, ?_, ?_, ?_⟩ <;> intro hsel <;> rw [hd, hsel] <;> rfl
  · rintro rfl h
    have hd : d = decodePset (cw.extractLsb' 0 3) dw := decode_of_class_three dw h
    refine ⟨?_, ?_, ?_, ?_, ?_, ?_, ?_, ?_⟩ <;> intro hidx <;> rw [hd, hidx] <;> rfl
  · rintro rfl h
    have hd : d = decodePget (cw.extractLsb' 0 3) := decode_of_class_four dw h
    refine ⟨?_, ?_, ?_, ?_, ?_, ?_, ?_, ?_⟩ <;> intro hidx <;> rw [hd, hidx] <;> rfl

/-- RSVD leaves every register and drives no port (R97). -/
theorem exec_rsvd (p : Port) (cls : BitVec 4) (s : State) : exec (.rsvd p cls) s = .next s.quiet :=
  exec_of_no_divisor rfl

/-- Settles O12: the accepted classes (`accepts_iff`), the decoding of any other (`decode_rsvd`), and the effect of
RSVD (`exec_rsvd`). -/
theorem unacceptedClassIsNoOperation : Obligations.UnacceptedClassIsNoOperation := by
  unfold Obligations.UnacceptedClassIsNoOperation
  exact ⟨accepts_iff, fun _ => decode_rsvd, exec_rsvd⟩

/-- Settles O7: the decoder, evaluated on each of the twelve words. -/
theorem wordsOfTheSpecDecode : Obligations.WordsOfTheSpecDecode := by
  unfold Obligations.WordsOfTheSpecDecode
  exact ⟨rfl, rfl, rfl, rfl, rfl, rfl, rfl, rfl, rfl, rfl, rfl, rfl⟩

end Sys2Proof.Machine
end

section
/-! The reset and the invariant (10_state.md section 9, 70_reset_and_hazards.md section 1): the reset values, RESET and
waiting as steps, and the invariant every step keeps, the LFO's phase with it. -/

namespace Sys2Proof.Machine

/-! ### Reset values and the inputs -/

/-- Settles O2: the reset state is written out in the configuration's own record, `Config.cfg` is legal, and in the
ideal instantiation a legal configuration is one in the real ranges (`Cfg.legal_ideal`). -/
theorem resetValuesOfTheSpec : Obligations.ResetValuesOfTheSpec := by
  unfold Obligations.ResetValuesOfTheSpec
  refine ⟨?_, rfl, Config.cfg_legal, fun _ => Cfg.legal_ideal⟩
  intro c N
  refine ⟨fun i => ?_, rfl, rfl, rfl, rfl, fun i => ?_⟩
  · rw [State.resetWith_osc, Fin.getElem_fin, Vector.getElem_ofFn]
    exact ⟨rfl, rfl⟩
  · rw [State.par_eq, State.resetWith_ps, Fin.getElem_fin, Vector.getElem_ofFn]
    exact ⟨rfl, rfl⟩

theorem takeInput_of_cons {s : State} {x : Input} {rest : List Input} (h : s.inbox = x :: rest) :
    s.takeInput = some (x, { s with inbox := rest }) := by rw [State.takeInput, h]

theorem step_of_empty {s : State} (h : s.inbox = []) : step s = .next s.quiet := by
  rw [step, State.takeInput, h]

theorem step_of_command {s : State} {c : Command} {rest : List Input} (h : s.inbox = .command c :: rest) :
    step s = exec (decode c) { s with inbox := rest } := by rw [step, takeInput_of_cons h]

theorem step_of_reset {s : State} {c : Cfg} {rest : List Input} (h : s.inbox = .reset c :: rest) :
    step s = .next (State.resetInput { s with inbox := rest } c) := by rw [step, takeInput_of_cons h]

/-- Settles O4: a RESET at the head of the inputs (`step_of_reset`), and no input (`step_of_empty`). -/
theorem resetInputAndWaiting : Obligations.ResetInputAndWaiting := by
  unfold Obligations.ResetInputAndWaiting
  exact ⟨fun _ _ _ h => ⟨_, step_of_reset h, rfl, rfl, rfl, rfl⟩, fun _ => step_of_empty⟩

/-- Settles O5: a command at the head of the inputs (`step_of_command`), which `withFetchWord` puts there. -/
theorem stepRunsTheDecodedCommand : Obligations.StepRunsTheDecodedCommand := by
  unfold Obligations.StepRunsTheDecodedCommand
  refine ⟨fun _ _ _ => step_of_command, fun s w => ?_⟩
  have hw : BitVec.ofNat 32 w.toNat = w := by simp
  rw [decodeTableWord, if_pos rfl, State.withFetchWord, if_pos rfl, hw]
  exact ⟨rfl, step_of_command rfl⟩

/-! ### The invariant at reset -/

/-- A reset into a legal configuration establishes the invariant, clause by clause. -/
theorem resetWith_inv {c : Cfg} (hc : c.Legal) : (State.resetWith c).Inv := by
  refine ⟨⟨hc, fun _ h => nomatch h⟩, ⟨rfl, fun i => ?_, fun i _ => State.resetWith_osc_freq c i⟩, fun hi => ?_⟩
  · rw [State.resetWith_osc, Fin.getElem_fin, Vector.getElem_ofFn]
    rfl
  · have hideal : c.num = .ideal := hi
    obtain ⟨-, -, -, -, -, -, hp⟩ := (Cfg.legal_ideal hideal).1 hc
    refine ⟨fun i v hv => ?_, ?_, ?_, ?_⟩
    · rw [State.resetWith_ps, Fin.getElem_fin, Vector.getElem_ofFn, ParLoc.values_reset, List.mem_singleton] at hv
      exact hv ▸ hp i
    · rw [State.CutoffInRange, State.resetWith_filt, hideal, NumSystem.record_ideal]
      simpa using clamp_mem (v := c.p0[2]) (lo := Numerics.ideal.lit 20) (hi := Numerics.ideal.lit 20000)
        (by norm_num)
    · simpa [scale] using hp 4
    · simpa [scale] using hp 3

/-- Settles O3: the invariant at a reset (`resetWith_inv`), and the configuration of `State.reset` is legal. -/
theorem invariantAtReset : Obligations.InvariantAtReset := by
  unfold Obligations.InvariantAtReset
  exact ⟨fun _ => resetWith_inv, resetWith_inv Config.cfg_legal⟩

/-! ### The invariant, part by part, over an instruction -/

section
variable {i : Instr} {s : State}

/-- The instantiation is the configuration's, and no instruction changes that. -/
theorem after_ideal_iff : (after i s).Ideal ↔ s.Ideal := by rw [State.Ideal, State.Ideal, (after_cfg_inbox i s).1]

theorem after_num (i : Instr) (s : State) : (after i s).num = s.num := by
  rw [State.num, (after_cfg_inbox i s).1, State.num]

theorem after_keeps_configsLegal (h : s.ConfigsLegal) : (after i s).ConfigsLegal := by
  rw [State.ConfigsLegal, (after_cfg_inbox i s).1, (after_cfg_inbox i s).2]
  exact h

theorem after_wave (i : Instr) (s : State) (j : Fin 5) : (after i s).osc[j].wave = s.osc[j].wave := by
  rcases after_osc_get i s j with e | ⟨-, e⟩ | ⟨-, -, f, e⟩ <;> rw [e]
  rfl

/-- Only NOTE_ON writes a frequency, and only of oscillators 0 and 1 (10_state.md R22). -/
theorem after_freq (i : Instr) (s : State) (j : Fin 5) :
    (after i s).osc[j].freq = s.osc[j].freq ∨ (j.val < 2 ∧ ∃ d1 d2, i = .noteOn d1 d2) := by
  rcases after_osc_get i s j with e | ⟨-, e⟩ | ⟨hj, hi, -, -⟩
  · exact .inl (by rw [e])
  · exact .inl (by rw [e, Osc.advance_freq])
  · exact .inr ⟨hj, hi⟩

theorem after_keeps_constantsHeld (h : s.ConstantsHeld) : (after i s).ConstantsHeld := by
  obtain ⟨hsr, hwave, hfreq⟩ := h
  refine ⟨?_, fun j => ?_, fun j hj => ?_⟩
  · rw [after_env_sr, hsr, (after_cfg_inbox i s).1]
  · rw [after_wave, hwave, (after_cfg_inbox i s).1]
  · rcases after_freq i s j with hsame | ⟨hlt, -⟩
    · rw [hsame, hfreq j hj, after_num]
    · omega

/-- A PSET adds a value of the parameter's range, a TICK's loads only drop values (45_parameter_access.md R237). -/
theorem after_keeps_storeInRange (hi : s.Ideal) (h : s.StoreInRange) : (after i s).StoreInRange := by
  intro j v hv
  rcases after_ps i s with e | ⟨-, -, e⟩ | ⟨k, x, -, e⟩ <;> rw [e] at hv
  · exact h j v hv
  · exact h j v (s.storeLoaded_values j hv)
  · change v ∈ (s.setPar k (s.ps[k].store (unitOf s.num k x))).ps[j].values at hv
    rw [State.setPar_get] at hv
    split_ifs at hv with hkj
    · subst hkj
      rw [ParLoc.values_store, List.mem_append, List.mem_singleton] at hv
      rcases hv with hold | rfl
      · exact h k v hold
      · exact hi.num ▸ unitOf_mem k x
    · exact h j v hv

/-- The cutoff is written by TICK alone, through its clamp (44_voice_engine.md R201). -/
theorem after_keeps_cutoffInRange (hi : s.Ideal) (h : s.CutoffInRange) : (after i s).CutoffInRange := by
  rcases after_filt_lfo i s with ⟨e, -⟩ | ⟨-, -, ⟨x, e⟩, -⟩ | ⟨x, -, e, -⟩ | ⟨-, e, -⟩ <;> rw [State.CutoffInRange, e]
  · exact h
  · exact filtAfterFour_cutoff hi
  · exact h
  · exact h

/-- What the n-th load of a TICK returns lies in its parameter's range. -/
theorem State.StoreInRange.loaded (h : s.StoreInRange) (j : Fin 6) (n : ℕ) :
    0 ≤ (s.loaded j n).val ∧ (s.loaded j n).val ≤ scale j := h j _ (s.loaded_mem j n)

/-- The filter's run does not write the resonance that step 4 latched (42_filter.md R171). -/
theorem filtAfterFour_process_res (N : Numerics) (s : State) (x sr : Num) :
    (s.filtAfterFour.process N x sr).res = s.loaded 3 1 := rfl

/-- The latches are written by TICK alone, from parameters 4 and 3 (44_voice_engine.md R200). -/
theorem after_keeps_latchesInRange (hs : s.StoreInRange) (h : s.LatchesInRange) : (after i s).LatchesInRange := by
  rcases after_filt_lfo i s with ⟨e, e'⟩ | ⟨-, -, ⟨x, e⟩, e'⟩ | ⟨x, -, e, e'⟩ | ⟨-, e, e'⟩ <;>
    rw [State.LatchesInRange, e, e']
  · exact h
  · exact ⟨by simpa [scale] using hs.loaded 4 0, by simpa [scale, filtAfterFour_process_res] using hs.loaded 3 1⟩
  · exact h
  · exact h

/-- Every instruction keeps the invariant, from every state that meets it. -/
theorem after_keeps_inv (h : s.Inv) : (after i s).Inv := by
  obtain ⟨hlegal, hconst, hrange⟩ := h
  refine ⟨after_keeps_configsLegal hlegal, after_keeps_constantsHeld hconst, fun hi' => ?_⟩
  have hi : s.Ideal := after_ideal_iff.1 hi'
  obtain ⟨hstore, hcutoff, hlatch⟩ := hrange hi
  exact ⟨after_keeps_storeInRange hi hstore, after_keeps_cutoffInRange hi hcutoff,
    after_keeps_latchesInRange hstore hlatch⟩

end

/-! ### The invariant over a step -/

/-- The invariant speaks of the inputs to come only through the RESETs among them. -/
theorem State.Inv.withFewerInputs {s : State} {l : List Input} (h : s.Inv) (hl : l ⊆ s.inbox) :
    State.Inv { s with inbox := l } := by
  obtain ⟨⟨hlegal, hresets⟩, hconst, hrange⟩ := h
  exact ⟨⟨hlegal, fun c hc => hresets c (hl hc)⟩, hconst, hrange⟩

/-- RESET with a legal configuration establishes the invariant, if the RESETs still to come are legal. -/
theorem resetInput_inv {s : State} {c : Cfg} (hc : c.Legal) (hl : ∀ d, Input.reset d ∈ s.inbox → d.Legal) :
    (s.resetInput c).Inv := by
  obtain ⟨-, hconst, hrange⟩ := resetWith_inv hc
  exact ⟨⟨hc, hl⟩, hconst, hrange⟩

/-- Settles O57: waiting changes no register, a command is an instruction (`after_keeps_inv`) on the state without it,
and a RESET is to a configuration the invariant says is legal (`resetInput_inv`). -/
theorem stepKeepsTheInvariant : Obligations.StepKeepsTheInvariant := by
  unfold Obligations.StepKeepsTheInvariant
  intro s t hinv h
  rcases step_cases h with ⟨-, rfl⟩ | ⟨c, rest, hin, rfl⟩ | ⟨c, rest, hin, rfl⟩
  · exact hinv
  · exact after_keeps_inv (hinv.withFewerInputs (hin ▸ List.subset_cons_self _ _))
  · obtain ⟨⟨-, hresets⟩, -, -⟩ := hinv
    rw [hin] at hresets
    exact resetInput_inv (hresets c List.mem_cons_self) fun d hd => hresets d (List.mem_cons_of_mem _ hd)

/-! ### The LFO's phase (43_lfo.md R183) -/

/-- No instruction takes the LFO's phase out of its turn, at a sample rate above the range of the rates it is latched
from. -/
theorem after_keeps_lfoInTurn {i : Instr} {s : State} (hi : s.Ideal) (hinv : s.Inv) (hsr : 20 < s.cfg.sr.val)
    (hp : InTurn s.lfo.ph) : InTurn (after i s).lfo.ph := by
  obtain ⟨-, -, hrange⟩ := hinv
  obtain ⟨hstore, -, ⟨hf0, hf20⟩, -⟩ := hrange hi
  have hloaded : 0 ≤ (s.loaded 4 0).val ∧ (s.loaded 4 0).val ≤ 20 := by simpa [scale] using hstore.loaded 4 0
  have hrate (f : Num) (h0 : 0 ≤ f.val) (h20 : f.val ≤ 20) : RateOk f s.cfg.sr := ⟨by linarith, h0, by linarith⟩
  rcases after_filt_lfo i s with ⟨-, e⟩ | ⟨-, -, -, e⟩ | ⟨x, -, -, e⟩ | ⟨-, -, e⟩ <;> rw [e]
  · exact hp
  · exact hi.num ▸ advancePhase_inTurn hp (hrate _ hloaded.1 hloaded.2)
  · exact hp
  · exact hi.num ▸ advancePhase_inTurn hp (hrate _ hf0 hf20)

/-- Settles O44: over a command by `after_keeps_lfoInTurn`, and a RESET leaves the phase 0. -/
theorem lfoPhaseStaysInTurn : Obligations.LfoPhaseStaysInTurn := by
  unfold Obligations.LfoPhaseStaysInTurn
  intro s t hi hi' hinv hsr hp h
  rcases step_cases h with ⟨-, rfl⟩ | ⟨c, rest, hin, rfl⟩ | ⟨c, rest, hin, rfl⟩
  · exact hp
  · exact after_keeps_lfoInTurn hi (hinv.withFewerInputs (hin ▸ List.subset_cons_self _ _)) hsr hp
  · have hideal : c.num = .ideal := hi'
    rw [State.resetInput_lfo, State.resetWith_lfo, hideal]
    simp [InTurn]

end Sys2Proof.Machine
end

section
/-! Numbers and oscillators (00_scope.md section 4, 40_oscillator.md): the ideal record, the pitch mapping (R194), the
Noise draw (R125), the phases over many advances (R131) and over any instruction (R128). -/

namespace Sys2Proof.Machine

/-! ### The ideal record and the pitch mapping -/

/-- Settles O6: field by field, the lemma that says what the ideal record's field is as a real function. -/
theorem idealRecordIsExact : Obligations.IdealRecordIsExact := by
  unfold Obligations.IdealRecordIsExact
  exact ⟨fun a b => ⟨Numerics.ideal_add a b, Numerics.ideal_sub a b, Numerics.ideal_mul a b,
      fun _ => Numerics.ideal_div a b, Numerics.ideal_lt a b, Numerics.ideal_le a b, Numerics.ideal_ge a b,
      Numerics.ideal_eq a b⟩,
    Numerics.ideal_ofInt, Numerics.ideal_lit, Numerics.ideal_twoPi,
    fun a => ⟨Numerics.ideal_sin a, Numerics.ideal_exp2 a⟩⟩

/-- A pitch j octaves from 69 is 440 × 2^j (R194). -/
theorem pitchToFreq_octave {d : Byte} {j : ℤ} (h : (d.toNat : ℤ) = 69 + 12 * j) :
    (pitchToFreq Numerics.ideal d).val = 440 * (2 : ℝ) ^ j := by
  have hd : (d.toNat : ℝ) = 69 + 12 * (j : ℝ) := by exact_mod_cast h
  have hexp : ((d.toNat : ℝ) - 69) / 12 = (j : ℝ) := by rw [hd]; ring
  rw [pitchToFreq_val, hexp, Real.rpow_intCast]

/-- Settles O18: the mapping is the record's formula, in the ideal instantiation `pitchToFreq_val`; pitch 69 is octave
0. -/
theorem pitchMapping : Obligations.PitchMapping := by
  unfold Obligations.PitchMapping
  refine ⟨fun _ _ => rfl, pitchToFreq_val, ?_, fun _ _ => pitchToFreq_octave⟩
  rw [NumSystem.record_ideal, pitchToFreq_octave (j := 0) (by decide), zpow_zero, mul_one]

/-! ### Noise (R125) -/

/-- A draw is in the range by the record's own order, if 0, which replaces a free number outside it, is. -/
theorem noiseDraw_inRange {N : Numerics} (n : ℕ) (h0 : N.le (N.lit (-1)) (N.lit 0) = true)
    (h1 : N.lt (N.lit 0) (N.lit 1) = true) :
    N.le (N.lit (-1)) (noiseDraw N n) = true ∧ N.lt (noiseDraw N n) (N.lit 1) = true := by
  unfold noiseDraw
  split_ifs with h
  · exact Bool.and_eq_true_iff.1 h
  · exact ⟨h0, h1⟩

/-- Settles O21: Noise is the waveform whose sample is the next draw (`exec_waveform`). -/
theorem noiseReturnsADraw : Obligations.NoiseReturnsADraw := by
  unfold Obligations.NoiseReturnsADraw
  exact fun s => ⟨noiseDraw s.num s.draws, exec_waveform .noise (.rat 0) s, noiseDraw_inRange s.draws,
    fun hi => hi.num ▸ noiseDraw_mem s.draws⟩

/-! ### The phases (R128, R131) -/

/-- OSC.ADVANCE(i) moves oscillator i's phase on by one advance. -/
theorem oscAdvance_get_self (i : Fin 5) (s : State) :
    (oscAdvance i s).osc[i] = s.osc[i].advance s.num s.cfg.sr := by rw [oscAdvance_get, if_pos rfl]

/-- n advances leave the configuration, the frequency, and the fractional part of PH + n × FREQ / SR: by induction on n,
one advance moving the fractional part on (`advancePhase_fract`). -/
theorem execTimes_oscAdvance {s : State} {i : Fin 5} (hi : s.Ideal) (hp : InTurn s.osc[i].ph)
    (hr : RateOk s.osc[i].freq s.cfg.sr) (n : ℕ) :
    ∃ t, execTimes (.oscAdvance i) n s = .next t ∧ t.cfg = s.cfg ∧ t.osc[i].freq = s.osc[i].freq ∧
      t.osc[i].ph.val = Int.fract (s.osc[i].ph.val + n * (s.osc[i].freq.val / s.cfg.sr.val)) := by
  induction n with
  | zero =>
    refine ⟨s, rfl, rfl, rfl, ?_⟩
    rw [Nat.cast_zero, zero_mul, add_zero, Int.fract_eq_self.2 hp]
  | succ n ih =>
    obtain ⟨t, ht, hcfg, hfreq, hph⟩ := ih
    have hti : t.Ideal := by rw [State.Ideal, hcfg]; exact hi
    have hdiv : Divides (.oscAdvance i) t := (divides_sampleRate rfl).2 fun _ => by rw [hcfg]; exact hr.1.ne'
    have hosc : (after (.oscAdvance i) t).osc[i] = t.osc[i].advance t.num t.cfg.sr := oscAdvance_get_self i t.quiet
    refine ⟨_, execTimes_step ht hdiv, hcfg, by rw [hosc, Osc.advance_freq, hfreq], ?_⟩
    rw [hosc, Osc.advance_ph, hti.num, hfreq, hcfg, advancePhase_fract hph hr]
    congr 1
    push_cast
    ring

/-- Settles O24: `execTimes_oscAdvance`, which carries the configuration along. -/
theorem phaseClosedForm : Obligations.PhaseClosedForm := by
  unfold Obligations.PhaseClosedForm
  intro n s i hi hp hr
  obtain ⟨t, ht, -, hfreq, hph⟩ := execTimes_oscAdvance hi hp hr n
  exact ⟨t, ht, hfreq, hph⟩

/-- No instruction takes a phase out of its turn, at frequencies below the sample rate: a phase is only written by an
advance (`after_osc_get`). -/
theorem after_phase_inTurn {i : Instr} {s : State} (hi : s.Ideal) (h : s.PhasesInTurn) (j : Fin 5) :
    InTurn (after i s).osc[j].ph := by
  obtain ⟨hp, hr⟩ := h j
  rcases after_osc_get i s j with e | ⟨-, e⟩ | ⟨-, -, f, e⟩ <;> rw [e]
  · exact hp
  · exact hi.num ▸ advancePhase_inTurn hp hr
  · exact hp

/-- Settles O25: the phases by `after_phase_inTurn`; the frequencies are written by NOTE_ON alone (`after_freq`). -/
theorem phasesStayInTurn : Obligations.PhasesStayInTurn := by
  unfold Obligations.PhasesStayInTurn
  intro i s t hi hph h
  obtain rfl : t = after i s := exec_next h
  refine ⟨after_phase_inTurn hi hph, fun hno j => ⟨after_phase_inTurn hi hph j, ?_⟩⟩
  rcases after_freq i s j with hsame | ⟨-, d1, d2, hon⟩
  · rw [hsame, (after_cfg_inbox i s).1]
    exact (hph j).2
  · exact absurd hon (hno d1 d2)

end Sys2Proof.Machine
end

section
/-! The envelope's arms and stages (41_envelope.md): each arm run alone (R141 to R145) and as ENV.PROCESS (R140), the
setters (R148 to R151), the level's range (R154) and the lengths of the stages (section 5). -/

namespace Sys2Proof.Machine

/-! ### The arms run alone (R141 to R145) -/

/-- An instruction that leaves the envelope `f` and returns its level, with `f` worked out as `e`. -/
theorem exec_arm {i : Instr} {s : State} {f e : Env} (hdiv : Divides i s)
    (hafter : after i s = State.returning (s.quiet.envReturning f)) (hf : f = e) :
    exec i s = .next { s with env := e, out := { aud := none, rw := none, ret := some e.level } } := by
  rw [exec_of_divides hdiv, hafter, hf]
  rfl

/-- Settles O26: both arms divide by nothing and are what `after` says. -/
theorem idleAndSustainArms : Obligations.IdleAndSustainArms := by
  unfold Obligations.IdleAndSustainArms
  exact fun _ => ⟨exec_of_no_divisor rfl, exec_of_no_divisor rfl⟩

/-- Settles O27: the arm (`exec_arm`) with the stage over or not (`Env.afterAttack_done`, `Env.afterAttack_on`). -/
theorem attackArm : Obligations.AttackArm := by
  unfold Obligations.AttackArm
  intro s h N l
  have hdiv : Divides .envProcessAttack s := divides_attack.2 h
  refine ⟨fun hge => exec_arm hdiv rfl (Env.afterAttack_done hge),
    fun hlt => exec_arm hdiv rfl (Env.afterAttack_on hlt), fun hi => ?_⟩
  have hN : N = Numerics.ideal := hi.num
  simp [l, hN]

/-- Settles O28: the arm (`exec_arm`) with the stage over or not (`Env.afterDecay_done`, `Env.afterDecay_on`). -/
theorem decayArm : Obligations.DecayArm := by
  unfold Obligations.DecayArm
  intro s h N l
  have hdiv : Divides .envProcessDecay s := divides_decay.2 h
  refine ⟨fun hle => exec_arm hdiv rfl (Env.afterDecay_done hle),
    fun hgt => exec_arm hdiv rfl (Env.afterDecay_on hgt), fun hi => ?_⟩
  have hN : N = Numerics.ideal := hi.num
  simp [l, hN]

/-- Settles O29: the arm (`exec_arm`) with the stage over or not (`Env.afterRelease_done`, `Env.afterRelease_on`). -/
theorem releaseArm : Obligations.ReleaseArm := by
  unfold Obligations.ReleaseArm
  intro s h N l
  have hdiv : Divides .envProcessRelease s := divides_release.2 h
  refine ⟨fun hle => exec_arm hdiv rfl (Env.afterRelease_done hle),
    fun hgt => exec_arm hdiv rfl (Env.afterRelease_on hgt), fun hi => ?_⟩
  have hN : N = Numerics.ideal := hi.num
  simp [l, hN]

/-! ### ENV.PROCESS and the setters (R140, R148 to R151) -/

/-- ENV.PROCESS leaves what the arm of the current stage leaves. -/
theorem after_envProcess_eq_arm (s : State) : after .envProcess s = after (Stage.instr s.env.stage) s := by
  have h : after .envProcess s = State.returning (s.quiet.envReturning (s.env.process s.num)) := rfl
  rw [h]
  cases hst : s.env.stage
  case idle => rw [Env.process_of_idle hst]; rfl
  case attack => rw [Env.process_of_attack hst]; rfl
  case decay => rw [Env.process_of_decay hst]; rfl
  case sustain => rw [Env.process_of_sustain hst]; rfl
  case release => rw [Env.process_of_release hst]; rfl

/-- It divides by what that arm divides by. -/
theorem divisors_envProcess_eq_arm (s : State) : divisors .envProcess s = divisors (Stage.instr s.env.stage) s := by
  rw [divisors]
  cases s.env.stage <;> rfl

/-- Settles O31: the same next state and the same divisors, so the same answer; and the returned value is the level of
the envelope just written. -/
theorem envProcessRunsOneArm : Obligations.EnvProcessRunsOneArm := by
  unfold Obligations.EnvProcessRunsOneArm
  refine fun s => ⟨?_, fun hdiv => ⟨_, exec_envProcess hdiv, rfl⟩⟩
  rw [exec_eq, exec_eq, after_envProcess_eq_arm, divisors_envProcess_eq_arm]

/-- Settles O33: no setter divides, and each writes its register. -/
theorem envsetStoresItsOperand : Obligations.EnvsetStoresItsOperand := by
  unfold Obligations.EnvsetStoresItsOperand
  exact fun _ _ => ⟨exec_of_no_divisor rfl, exec_of_no_divisor rfl, exec_of_no_divisor rfl, exec_of_no_divisor rfl⟩

/-! ### The level's range (R154) -/

/-- Settles O36: what an instruction makes of the envelope (`after_env`) is an arm, a trigger or a release, which keep
the level in [0,1] (`Env.arms_unit`), or a setter, which keeps the level. -/
theorem levelStaysInUnit : Obligations.LevelStaysInUnit := by
  unfold Obligations.LevelStaysInUnit
  intro i s t hi hw hl h
  obtain rfl : t = after i s := exec_next h
  have hunit := Env.arms_unit hw hl
  rw [← hi.num] at hunit
  rcases after_env i s with
    e | e | e | e | e | e | e | e | ⟨v, -, e⟩ | ⟨v, -, e⟩ | ⟨v, -, e⟩ | ⟨v, -, e⟩ <;> rw [e]
  any_goals exact hl -- unchanged, released, or a setting written
  all_goals exact hunit _ (by simp)

/-! ### The lengths of the stages (section 5) -/

/-- The envelope at another level. -/
def Env.withLevel (e : Env) (l : Num) : Env := { e with level := l }

/-- One call more, whatever it makes of the level `l` that the n calls before it left. -/
theorem execTimes_envProcess_succ {s t : State} {n : ℕ} {l : Num} {e : Env} (hi : s.Ideal) (hdiv : s.env.ArmDivides)
    (ht : execTimes .envProcess n s = .next t) (hcfg : t.cfg = s.cfg) (henv : t.env = s.env.withLevel l)
    (hcall : (s.env.withLevel l).process Numerics.ideal = e) :
    ∃ u, execTimes .envProcess (n + 1) s = .next u ∧ u.cfg = s.cfg ∧ u.env = e := by
  have hti : t.Ideal := by rw [State.Ideal, hcfg]; exact hi
  have htdiv : t.env.ArmDivides := henv ▸ hdiv
  refine ⟨_, execTimes_step ht (divides_envProcess.2 fun _ => htdiv), hcfg, ?_⟩
  rw [after_envProcess_env, hti.num, henv, hcall]

/-- n calls of ENV.PROCESS within one stage: if each call takes the level from one term of a sequence to the next and
writes nothing else, n calls take it to the n-th term. -/
theorem execTimes_envProcess_level {s : State} {f : ℕ → ℝ} (hi : s.Ideal) (hdiv : s.env.ArmDivides)
    (h0 : s.env.level.val = f 0) (n : ℕ)
    (hcall : ∀ k < n, ∀ l : Num, l.val = f k → ∃ m : Num, m.val = f (k + 1) ∧
      (s.env.withLevel l).process Numerics.ideal = s.env.withLevel m) :
    ∃ t l, execTimes .envProcess n s = .next t ∧ t.cfg = s.cfg ∧ t.env = s.env.withLevel l ∧ l.val = f n := by
  induction n with
  | zero => exact ⟨s, s.env.level, rfl, rfl, rfl, h0⟩
  | succ n ih =>
    obtain ⟨t, l, ht, hcfg, henv, hl⟩ := ih fun k hk => hcall k (by omega)
    obtain ⟨m, hm, hprocess⟩ := hcall n (by omega) l hl
    obtain ⟨u, hu, hucfg, huenv⟩ := execTimes_envProcess_succ hi hdiv ht hcfg henv hprocess
    exact ⟨u, m, hu, hucfg, huenv, hm⟩

/-- Settles O37: while n < N each call adds 1/N and stays below 1 (`Env.attackArm_on`); the call that reaches 1 ends the
stage (`Env.attackArm_done`). -/
theorem attackLength : Obligations.AttackLength := by
  unfold Obligations.AttackLength
  intro n s hi hst hl0 hN hn
  set N := s.env.att.val * s.env.sr.val
  have hdiv : s.env.ArmDivides := Env.armDivides_of_attack hst hN.ne'
  have hcall : ∀ k < n, ∀ l : Num, l.val = k / N → ∃ m : Num, m.val = (k + 1 : ℕ) / N ∧
      (s.env.withLevel l).process Numerics.ideal = s.env.withLevel m := by
    intro k hk l hl
    have hk' : ((k + 1 : ℕ) : ℝ) < N := lt_of_le_of_lt (by exact_mod_cast hk) hn
    have hsum : l.val + 1 / N = (k + 1 : ℕ) / N := by rw [hl]; push_cast; ring
    have hlt : l.val + 1 / N < 1 := by rw [hsum]; exact (div_lt_one hN).2 hk'
    obtain ⟨m, hm, he⟩ := Env.attackArm_on (e := s.env.withLevel l) hlt
    exact ⟨m, hm.trans hsum, (Env.process_of_attack (e := s.env.withLevel l) hst).trans he⟩
  obtain ⟨t, l, ht, hcfg, henv, hl⟩ :=
    execTimes_envProcess_level (f := fun k => k / N) hi hdiv (by simpa using hl0) n hcall
  refine ⟨⟨t, l, ht, henv, hl⟩, fun hend => ?_⟩
  have hge : 1 ≤ l.val + 1 / N := by
    have hsum : l.val + 1 / N = (n + 1) / N := by rw [hl]; ring
    rw [hsum]; exact (one_le_div hN).2 hend
  obtain ⟨u, hu, -, hue⟩ := execTimes_envProcess_succ hi hdiv ht hcfg henv
    ((Env.process_of_attack (e := s.env.withLevel l) hst).trans (Env.attackArm_done hge))
  exact ⟨u, .rat 1, hu, hue, by simp⟩

/-- Settles O38: while n < N each call takes off (1 − SUS)/N and stays above SUS (`Env.decayArm_on`); the call that
reaches SUS ends the stage (`Env.decayArm_done`). -/
theorem decayLength : Obligations.DecayLength := by
  unfold Obligations.DecayLength
  intro n s hi hst hl1 hsus hN hn
  set N := s.env.dec.val * s.env.sr.val
  set d := (1 - s.env.sus.val) / N
  have hdN : d * N = 1 - s.env.sus.val := div_mul_cancel₀ _ hN.ne'
  have hd0 : 0 < d := div_pos (by linarith) hN
  have hdiv : s.env.ArmDivides := Env.armDivides_of_decay hst hN.ne'
  have hcall : ∀ k < n, ∀ l : Num, l.val = 1 - k * d → ∃ m : Num, m.val = 1 - (k + 1 : ℕ) * d ∧
      (s.env.withLevel l).process Numerics.ideal = s.env.withLevel m := by
    intro k hk l hl
    have hk' : ((k + 1 : ℕ) : ℝ) < N := lt_of_le_of_lt (by exact_mod_cast hk) hn
    have hdiff : l.val - d = 1 - (k + 1 : ℕ) * d := by rw [hl]; push_cast; ring
    have hgt : s.env.sus.val < l.val - d := by
      rw [hdiff]
      have := mul_lt_mul_of_pos_right hk' hd0
      linarith
    obtain ⟨m, hm, he⟩ := Env.decayArm_on (e := s.env.withLevel l) hgt
    exact ⟨m, hm.trans hdiff, (Env.process_of_decay (e := s.env.withLevel l) hst).trans he⟩
  obtain ⟨t, l, ht, hcfg, henv, hl⟩ :=
    execTimes_envProcess_level (f := fun k => 1 - k * d) hi hdiv (by simpa using hl1) n hcall
  refine ⟨⟨t, l, ht, henv, hl⟩, fun hend => ?_⟩
  have hle : l.val - d ≤ s.env.sus.val := by
    have := mul_le_mul_of_nonneg_right hend hd0.le
    rw [hl]
    linarith
  obtain ⟨u, hu, -, hue⟩ := execTimes_envProcess_succ hi hdiv ht hcfg henv
    ((Env.process_of_decay (e := s.env.withLevel l) hst).trans (Env.decayArm_done hle))
  exact ⟨u, hu, hue⟩

/-- Settles O39: each call multiplies the level by 1 − 1/N; the powers fall, so the n-th above 0.001 means that all
before it are, and no call but the next can end the stage (`Env.releaseArm_on`, `Env.releaseArm_done`). -/
theorem releaseLength : Obligations.ReleaseLength := by
  unfold Obligations.ReleaseLength
  intro n s hi hst hN hn
  set N := s.env.rel.val * s.env.sr.val
  set q := 1 - 1 / N with hq
  have hdiv : s.env.ArmDivides := Env.armDivides_of_release hst (by linarith)
  have hq0 : 0 < q := by
    have : 1 / N < 1 := (div_lt_one (by linarith)).2 hN
    linarith
  have hq1 : q ≤ 1 := by
    have : 0 < 1 / N := by positivity
    linarith
  have hL : 0 < s.env.level.val := pos_of_mul_pos_left (by linarith) (pow_pos hq0 n).le
  have hfall (x : ℝ) (k : ℕ) (hx : x = s.env.level.val * q ^ k) : x - x / N = s.env.level.val * q ^ (k + 1) := by
    rw [hx, pow_succ, hq]; ring
  have hcall : ∀ k < n, ∀ l : Num, l.val = s.env.level.val * q ^ k → ∃ m : Num,
      m.val = s.env.level.val * q ^ (k + 1) ∧
      (s.env.withLevel l).process Numerics.ideal = s.env.withLevel m := by
    intro k hk l hl
    have hgt : 1 / 1000 < l.val - l.val / N := by
      rw [hfall _ k hl]
      exact hn.trans_le (mul_le_mul_of_nonneg_left (pow_le_pow_of_le_one hq0.le hq1 hk) hL.le)
    obtain ⟨m, hm, he⟩ := Env.releaseArm_on (e := s.env.withLevel l) hgt
    exact ⟨m, hm.trans (hfall _ k hl), (Env.process_of_release (e := s.env.withLevel l) hst).trans he⟩
  obtain ⟨t, l, ht, hcfg, henv, hl⟩ :=
    execTimes_envProcess_level (f := fun k => s.env.level.val * q ^ k) hi hdiv (by simp) n hcall
  refine ⟨⟨t, l, ht, henv, hl⟩, fun hend => ?_⟩
  have hle : l.val - l.val / N ≤ 1 / 1000 := by rw [hfall _ n hl]; exact hend
  obtain ⟨u, hu, -, hue⟩ := execTimes_envProcess_succ hi hdiv ht hcfg henv
    ((Env.process_of_release (e := s.env.withLevel l) hst).trans (Env.releaseArm_done hle))
  exact ⟨u, .rat 0, hu, hue, by simp⟩

end Sys2Proof.Machine
end

section
/-! The filter and TICK (42_filter.md, 44_voice_engine.md section 2): the coefficient and the DC gain (R175), the frame
of a gated TICK (R196 to R203), the bound of the mix (R207), and what a TICK does not read: the resonance (R171) and the
parameters 0 and 1 (20_memory.md section 3). -/

namespace Sys2Proof.Machine

/-! ### The coefficient and the DC gain (R170, R175) -/

/-- The coefficient c / (1 + c) lies strictly between 0 and 1 for a positive c. -/
theorem onePole_mem {c : Num} (hc : 0 < c.val) :
    0 < (onePole Numerics.ideal c).val ∧ (onePole Numerics.ideal c).val < 1 := by
  rw [onePole_val]
  exact ⟨by positivity, (div_lt_one (by linarith)).2 (by linarith)⟩

/-- A stage of the cascade keeps an input it has settled at, whatever the coefficient. -/
theorem smooth_settled {s : State} (hi : s.Ideal) {k x y : Num} {v : ℝ} (hx : x.val = v) (hy : y.val = v) :
    (smooth s.num k x y).val = v := by
  rw [hi.num, smooth_val, hx, hy]
  ring

/-- Settles O41: the coefficient (`onePole_mem`) at a positive normalized cutoff; both stages of the cascade are settled
(`smooth_settled`). -/
theorem coefficientRangeAndDcGain : Obligations.CoefficientRangeAndDcGain := by
  unfold Obligations.CoefficientRangeAndDcGain
  refine ⟨?_, fun s x hi hsr hc hy1 hy2 => ?_⟩
  · intro cutoff sr hsr hcut N
    have hpos : 0 < (normalizedCutoff Numerics.ideal cutoff sr).val := by
      rw [normalizedCutoff_val]
      have := Real.pi_pos
      positivity
    exact ⟨normalizedCutoff_val cutoff sr, onePole_mem hpos⟩
  · have hstage1 (k : Num) : (smooth s.num k x s.filt.y1).val = x.val := smooth_settled hi rfl hy1
    exact ⟨_, _, exec_lpfProcess x fun _ => ⟨hsr, hc⟩, rfl, hstage1 _, smooth_settled hi (hstage1 _) hy2, hstage1 _⟩

/-! ### A gated TICK (R196 to R203) -/

/-- A gated TICK that divides by no 0 leaves the render. -/
theorem exec_tick_of_gate_on {s : State} (hg : s.ve.gate = true) (hdiv : Divides .tick s) :
    exec .tick s = .next (render s.quiet) := by
  rw [exec_of_divides hdiv, after_tick, if_pos hg]

/-- Where the store is loaded from, seen at each location: 2 to 5 hold the value loaded, 0 and 1 are as they were. -/
theorem storeLoaded_get (s : State) :
    s.storeLoaded[0] = s.ps[0] ∧ s.storeLoaded[1] = s.ps[1] ∧ s.storeLoaded[2].seen = s.loaded 2 2 ∧
      s.storeLoaded[3].seen = s.loaded 3 1 ∧ s.storeLoaded[4].seen = s.loaded 4 0 ∧
      s.storeLoaded[5].seen = s.loaded 5 3 := by
  simp [State.storeLoaded, State.loaded]

/-- Settles O46: the values are those the four loads return (`storeLoaded_get`), the state the render's (`render_eq`),
and it completes by `divides_tick_of_pos` and `divides_tick`. -/
theorem tickRendersOneFrame : Obligations.TickRendersOneFrame := by
  unfold Obligations.TickRendersOneFrame
  intro s hg
  obtain ⟨h0, h1, h2, h3, h4, h5⟩ := storeLoaded_get s
  refine ⟨s.loaded 2 2, s.loaded 3 1, s.loaded 4 0, s.loaded 5 3, s.storeLoaded,
    ⟨s.loaded_mem 2 2, s.loaded_mem 3 1, s.loaded_mem 4 0, s.loaded_mem 5 3⟩, ⟨h2, h3, h4, h5⟩, ⟨h0, h1⟩,
    s.storeLoaded_suffix, ?_⟩
  intro N e a l cutoff c k o t
  have hrender : render s.quiet = t := render_eq s.quiet
  exact ⟨fun h => hrender ▸ exec_tick_of_gate_on hg (divides_tick_of_pos hg h),
    fun h => hrender ▸ exec_tick_of_gate_on hg ((divides_tick hg).2 h)⟩

/-! ### The mix (R198, R207) -/

/-- Settles O47: each of the five samples lies in [−1, 1] (`sampleAt_mem`), their sum is halved, and a level at most 1
does not enlarge it. -/
theorem mixIsBounded : Obligations.MixIsBounded := by
  unfold Obligations.MixIsBounded
  intro osc draws e hph he0 he1 N
  have hsample (i : Fin 5) := sampleAt_mem osc[i].wave osc[i].ph (draws + drawsBefore osc i) (hph i)
  obtain ⟨lo0, hi0⟩ := hsample 0
  obtain ⟨lo1, hi1⟩ := hsample 1
  obtain ⟨lo2, hi2⟩ := hsample 2
  obtain ⟨lo3, hi3⟩ := hsample 3
  obtain ⟨lo4, hi4⟩ := hsample 4
  have hmix : -(5 / 2) ≤ (mixOf N osc draws).val ∧ (mixOf N osc draws).val ≤ 5 / 2 := by
    simp only [mixOf, N, NumSystem.record_ideal, Numerics.ideal_mul, Numerics.ideal_add, Numerics.ideal_lit]
    push_cast
    constructor <;> linarith
  have hscaled : |(Numerics.ideal.mul (mixOf N osc draws) e).val| ≤ 5 / 2 := by
    rw [Numerics.ideal_mul, abs_mul, abs_of_nonneg he0]
    exact (mul_le_of_le_one_right (abs_nonneg _) he1).trans (abs_le.2 hmix)
  exact ⟨hmix, abs_le.1 hscaled⟩

/-! ### What a TICK loads, and what it divides by (R200, R201) -/

section
variable {s t : State}

/-- A load depends on its own location and on the loads before it. -/
theorem loaded_congr {j : Fin 6} (hloads : t.loads = s.loads) (hps : t.ps[j] = s.ps[j]) (n : ℕ) :
    t.loaded j n = s.loaded j n := by rw [State.loaded, State.loaded, hps, hloads]

/-- A location after a TICK's loads depends on itself and on the loads before. -/
theorem storeLoaded_congr {j : Fin 6} (hloads : t.loads = s.loads) (hps : t.ps[j] = s.ps[j]) :
    t.storeLoaded[j] = s.storeLoaded[j] := by
  revert hps
  fin_cases j <;> intro hps <;> simp_all [State.storeLoaded]

/-- Putting another location in the store before a TICK's loads changes that location after them and no other. -/
theorem storeLoaded_setPar (s : State) (i : Fin 6) (l : ParLoc) :
    (s.setPar i l).storeLoaded = s.storeLoaded.set i (s.setPar i l).storeLoaded[i] := by
  ext j hj
  rw [Vector.getElem_set]
  split_ifs with hij
  · subst hij
    rfl
  · refine storeLoaded_congr (j := ⟨j, hj⟩) rfl ?_
    rw [State.setPar_get, if_neg fun h => hij (congrArg Fin.val h)]

/-- A TICK divides by the sample rate, the product of its envelope's stage and what the cutoff of step 4 makes: two
states alike in these divide alike. -/
theorem divisors_tick_congr (hve : t.ve = s.ve) (hcfg : t.cfg = s.cfg) (henv : t.env = s.env)
    (hcut : t.filtAfterFour.cutoff = s.filtAfterFour.cutoff) : divisors .tick t = divisors .tick s := by
  have hquiet (u : State) : u.quiet.filtAfterFour = u.filtAfterFour := rfl
  simp only [divisors, renderDivisors_eq, hquiet, Filt.divisors, hcut, hve, hcfg, henv, State.quiet_cfg,
    State.quiet_env, State.num]

/-- So does a TICK complete from both or from neither. -/
theorem divides_tick_congr (hve : t.ve = s.ve) (hcfg : t.cfg = s.cfg) (henv : t.env = s.env)
    (hcut : t.filtAfterFour.cutoff = s.filtAfterFour.cutoff) : Divides .tick s → Divides .tick t := by
  rw [Divides, Divides, divisors_tick_congr hve hcfg henv hcut, State.Ideal, State.Ideal, hcfg]
  exact id

end

/-! ### The resonance is inert (R171) -/

/-- The state with another resonance and another location 3. -/
def State.withResonance (s : State) (r : Num) (l : ParLoc) : State := (s.setPar 3 l).setFilt { s.filt with res := r }

section
variable (s : State) (r : Num) (l : ParLoc)

theorem State.withResonance_ps : (s.withResonance r l).ps = (s.setPar 3 l).ps := rfl

/-- A location other than 3 is loaded alike. -/
theorem loaded_withResonance {j : Fin 6} (hj : 3 ≠ j) (n : ℕ) : (s.withResonance r l).loaded j n = s.loaded j n :=
  loaded_congr (s := s) (t := s.withResonance r l) rfl (by rw [State.withResonance_ps, State.setPar_get, if_neg hj]) n

theorem filtAfterFour_withResonance :
    (s.withResonance r l).filtAfterFour = { s.filtAfterFour with res := (s.withResonance r l).loaded 3 1 } := by
  rw [State.filtAfterFour, loaded_withResonance s r l (by decide), loaded_withResonance s r l (by decide)]
  rfl

/-- A gated TICK from it differs in the resonance and in location 3 alone: `FILT.RES` enters no other register. -/
theorem render_withResonance : ∃ r' l', render (s.withResonance r l) = (render s).withResonance r' l' := by
  refine ⟨(s.withResonance r l).loaded 3 1, (s.setPar 3 l).storeLoaded[3], ?_⟩
  rw [render_eq, render_eq, filtAfterFour_withResonance, loaded_withResonance s r l (j := 4) (by decide)]
  have hps : (s.withResonance r l).storeLoaded = s.storeLoaded.set 3 (s.setPar 3 l).storeLoaded[3] :=
    storeLoaded_setPar s 3 l
  rw [hps]
  rfl

/-- So does any TICK. -/
theorem after_tick_withResonance :
    ∃ r' l', after .tick (s.withResonance r l) = (after .tick s).withResonance r' l' := by
  rw [after_tick, after_tick]
  by_cases hg : s.ve.gate = true
  · rw [if_pos hg, if_pos (show (s.withResonance r l).ve.gate = true from hg)]
    exact render_withResonance s.quiet r l
  · rw [if_neg hg, if_neg (show ¬ (s.withResonance r l).ve.gate = true from hg)]
    exact ⟨r, l, rfl⟩

end

/-- The resonance and location 3 of the state so made. -/
theorem withResonance_eq_self (s : State) (r : Num) (l : ParLoc) :
    s.withResonance r l = s.withResonance (s.withResonance r l).filt.res (s.withResonance r l).ps[3] := by
  simp [State.withResonance, State.setPar]

/-- A TICK answers with another resonance and location 3 where it answers without: the cutoff it divides by is the
same. -/
theorem exec_tick_withResonance {s t : State} (r : Num) (l : ParLoc) (h : exec .tick s = .next t) :
    ∃ r' l', exec .tick (s.withResonance r l) = .next (t.withResonance r' l') := by
  obtain ⟨rfl, hdiv⟩ := (exec_next_iff _ _ _).1 h
  obtain ⟨r', l', hafter⟩ := after_tick_withResonance s r l
  have hcut : (s.withResonance r l).filtAfterFour.cutoff = s.filtAfterFour.cutoff := by
    rw [filtAfterFour_withResonance]
  have hdiv' : Divides .tick (s.withResonance r l) := divides_tick_congr (s := s) rfl rfl rfl hcut hdiv
  exact ⟨r', l', by rw [exec_of_divides hdiv', hafter]⟩

/-- Settles O42: LPF.PROCESS neither reads nor writes the resonance; and a TICK hands what differs on to the resonance
and location 3 alone (`exec_tick_withResonance`). -/
theorem resonanceIsInert : Obligations.ResonanceIsInert := by
  unfold Obligations.ResonanceIsInert
  refine ⟨fun s t x r h => ?_, fun s t l r h => ?_⟩
  · obtain ⟨rfl, hdiv⟩ := (exec_next_iff _ _ _).1 h
    exact exec_of_divides hdiv
  · obtain ⟨r', l', h'⟩ := exec_tick_withResonance r l h
    exact ⟨t.withResonance r' l', h', rfl, withResonance_eq_self t r' l'⟩

/-! ### Parameters 0 and 1 are inert (20_memory.md section 3) -/

section
variable {s : State} {i : Fin 6} (hi : i = 0 ∨ i = 1) (l : ParLoc)
include hi

/-- A TICK loads neither location. -/
theorem storeLoaded_of_inert (s : State) : s.storeLoaded[i] = s.ps[i] := by
  obtain ⟨h0, h1, -⟩ := storeLoaded_get s
  rcases hi with rfl | rfl
  · exact h0
  · exact h1

theorem loaded_setPar_of_inert {j : Fin 6} (hj : 2 ≤ j.val) (n : ℕ) : (s.setPar i l).loaded j n = s.loaded j n := by
  have hij : i ≠ j := by rcases hi with rfl | rfl <;> rintro rfl <;> contradiction
  exact loaded_congr (s := s) (t := s.setPar i l) rfl (by rw [State.setPar_get, if_neg hij]) n

theorem filtAfterFour_setPar_of_inert : (s.setPar i l).filtAfterFour = s.filtAfterFour := by
  rw [State.filtAfterFour, loaded_setPar_of_inert hi l (by decide), loaded_setPar_of_inert hi l (by decide),
    loaded_setPar_of_inert hi l (by decide)]
  rfl

theorem storeLoaded_setPar_of_inert : (s.setPar i l).storeLoaded = s.storeLoaded.set i l := by
  have hl : (s.setPar i l).ps[i] = l := by rw [State.setPar_get, if_pos rfl]
  rw [storeLoaded_setPar, storeLoaded_of_inert hi, hl]

theorem render_setPar_of_inert : render (s.setPar i l) = (render s).setPar i l := by
  rw [render_eq, render_eq, filtAfterFour_setPar_of_inert hi, loaded_setPar_of_inert hi l (by decide),
    storeLoaded_setPar_of_inert hi]
  rfl

theorem after_tick_setPar_of_inert : after .tick (s.setPar i l) = (after .tick s).setPar i l := by
  rw [after_tick, after_tick, State.setPar_ve]
  split_ifs
  · exact render_setPar_of_inert (s := s.quiet) hi l
  · rfl

/-- A TICK leaves the location as it was. -/
theorem after_tick_ps_of_inert (s : State) : (after .tick s).ps[i] = s.ps[i] := by
  rcases after_ps .tick s with e | ⟨-, -, e⟩ | ⟨k, x, h, -⟩
  · rw [e]
  · rw [e, storeLoaded_of_inert hi]
  · cases h

end


end Sys2Proof.Machine
end

section
/-! The parameter store (45_parameter_access.md, 20_memory.md sections 2 to 4): what a PSET stores (R220) and a PGET
reads back (R228, R233), the reserved indices (R227, R235), and the order of the stores of one location (R70). -/

namespace Sys2Proof.Machine

/-! ### The values of PSET and PGET (R220, R228) -/

/-- The operand clamped to [0,1], as a real number (92_eei_decisions.md D13). -/
theorem clampUnit_val (x : Num) :
    (clamp Numerics.ideal x (Numerics.ideal.lit 0) (Numerics.ideal.lit 1)).val = max 0 (min 1 x.val) := by
  rcases lt_or_ge x.val 0 with h | h
  · rw [clamp_of_lt (by simpa using h), max_eq_left ((min_le_right _ _).trans h.le)]
    simp
  · rw [max_eq_right (le_min zero_le_one h)]
    rcases lt_or_ge 1 x.val with h1 | h1
    · rw [clamp_of_gt (by simp) (by simpa using h1), min_eq_left h1.le]
      simp
    · rw [clamp_of_mem (by simpa using h) (by simpa using h1), min_eq_right h1]

theorem unitOf_val (i : Fin 6) (x : Num) :
    (unitOf Numerics.ideal i x).val = max 0 (min 1 x.val) * scale i := by
  rw [unitOf, Numerics.ideal_mul, clampUnit_val, Numerics.ideal_lit]

theorem normOf_val (i : Fin 6) (v : Num) : (normOf Numerics.ideal i v).val = v.val / rscale i := by
  rw [normOf, Numerics.ideal_div, Numerics.ideal_lit]

/-- Settles O50: each PSET divides by nothing and adds its store; the value's real clamp is `clampUnit_val`. -/
theorem psetStoresClampedAndScaled : Obligations.PsetStoresClampedAndScaled := by
  unfold Obligations.PsetStoresClampedAndScaled
  intro s x N value stored
  refine ⟨exec_of_no_divisor rfl, exec_of_no_divisor rfl, exec_of_no_divisor rfl, exec_of_no_divisor rfl,
    exec_of_no_divisor rfl, exec_of_no_divisor rfl, fun hi scale => ?_⟩
  have hN : N = Numerics.ideal := hi.num
  simp only [value, hN, Numerics.ideal_mul, clampUnit_val, Numerics.ideal_lit]

/-- Settles O52: PGET.4's divisor is 10 (`exec_of_after_pget`); the reserved indices touch no location. -/
theorem lfoFreqReadBackAndReservedIndices : Obligations.LfoFreqReadBackAndReservedIndices := by
  unfold Obligations.LfoFreqReadBackAndReservedIndices
  intro s idx x
  refine ⟨exec_of_after_pget rfl rfl rfl, exec_of_no_divisor rfl, exec_of_no_divisor rfl, fun hi => ?_⟩
  rw [hi.div_lit_val, hi.num, Numerics.ideal_lit]
  norm_num

/-! ### PSET and then PGET (45_parameter_access.md section 3) -/

/-- The register of the parameter after its PSET. -/
theorem State.par_pset (s : State) (i : Fin 6) (x : Num) : (s.pset i x).par i = unitOf s.num i x := by
  rw [State.pset, State.par_parWrite, if_pos rfl]

/-- PSET and then PGET of parameter `i`, by the instructions `a` and `b`: what the register holds in between, and the
result. -/
theorem pset_then_pget {s : State} (hi : s.Ideal) {a b : Instr} (i : Fin 6) (x : Num)
    (ha : exec a s = .next (s.pset i x)) (hb : ∀ t, exec b t = .next (t.pget i)) :
    ∃ t u y, exec a s = .next t ∧ (t.par i).val = max 0 (min 1 x.val) * scale i ∧ exec b t = .next u ∧
      u.out.rw = some y ∧ y.val = max 0 (min 1 x.val) * (scale i / rscale i) := by
  have hN : (s.pset i x).num = Numerics.ideal := hi.num
  have hpar : ((s.pset i x).par i).val = max 0 (min 1 x.val) * scale i := by
    rw [State.par_pset, hi.num, unitOf_val]
  refine ⟨_, _, _, ha, hpar, hb _, rfl, ?_⟩
  rw [hN, normOf_val, hpar, mul_div_assoc]

/-- The clamp written as the two comparisons. -/
theorem max_min_eq_ite (v : ℝ) : max 0 (min 1 v) = if v < 0 then 0 else if 1 < v then 1 else v := by
  split_ifs with h0 h1
  · exact max_eq_left ((min_le_right _ _).trans h0.le)
  · rw [min_eq_left h1.le, max_eq_right zero_le_one]
  · rw [min_eq_right (not_lt.1 h1), max_eq_right (not_lt.1 h0)]

/-- Settles O53: the result is the clamped operand times the ratio of the two scales (`pset_then_pget`), which is 1,
and 2 for parameter 4. -/
theorem parameterRoundTrip : Obligations.ParameterRoundTrip := by
  unfold Obligations.ParameterRoundTrip
  intro s x hi clamped trip
  have key {a b : Instr} {v : ℝ} (i : Fin 6) (ha : exec a s = .next (s.pset i x))
      (hb : ∀ t, exec b t = .next (t.pget i)) (hv : clamped * (scale i / rscale i) = v) : trip a b v := by
    obtain ⟨t, u, y, ht, -, hu, hy, hval⟩ := pset_then_pget hi i x ha hb
    exact ⟨t, u, y, ht, hu, hy, by rw [hval, max_min_eq_ite, ← hv]⟩
  refine ⟨key 0 rfl (fun _ => rfl) ?_, key 1 rfl (fun _ => rfl) ?_, key 2 rfl (fun _ => rfl) ?_,
    key 3 rfl (fun _ => rfl) ?_, key 4 rfl (fun _ => rfl) ?_, key 5 rfl (fun _ => rfl) ?_⟩
  case refine_5 => norm_num [scale, rscale]; ring
  all_goals norm_num [scale, rscale]

/-- Settles O48: a TICK neither reads nor writes the two locations (`after_tick_setPar_of_inert`,
`after_tick_ps_of_inert`); PSET and PGET reach them as any other (`pset_then_pget`). -/
theorem oscFreqParametersAreInert : Obligations.OscFreqParametersAreInert := by
  unfold Obligations.OscFreqParametersAreInert
  refine ⟨fun s t i l hi h => ?_, fun s x hi h0 h1 => ?_⟩
  · obtain ⟨rfl, hdiv⟩ := (exec_next_iff _ _ _).1 h
    have hcut : (s.setPar i l).filtAfterFour.cutoff = s.filtAfterFour.cutoff := by
      rw [filtAfterFour_setPar_of_inert hi]
    have hdiv' : Divides .tick (s.setPar i l) := divides_tick_congr (s := s) rfl rfl rfl hcut hdiv
    exact ⟨after_tick_ps_of_inert hi s, by rw [exec_of_divides hdiv', after_tick_setPar_of_inert hi]⟩
  · have hx : max 0 (min 1 x.val) = x.val := by rw [min_eq_right h1, max_eq_right h0]
    obtain ⟨t, u, y, ht, htv, hu, hy, hyv⟩ := pset_then_pget hi (a := .pset0 x) (b := .pget0) 0 x rfl fun _ => rfl
    obtain ⟨v, w, z, hv, hvv, hw, hz, hzv⟩ := pset_then_pget hi (a := .pset1 x) (b := .pget1) 1 x rfl fun _ => rfl
    rw [hx] at htv hyv hvv hzv
    exact ⟨t, u, v, w, y, z, ht, by simpa [scale] using htv, hu, hy, by simpa [scale, rscale] using hyv,
      hv, by simpa [scale] using hvv, hw, hz, by simpa [scale, rscale] using hzv⟩

/-! ### One location (R70) -/

/-- Settles O54: a load drops values from the front of the location's list (`ParLoc.values_observe`) and reaches any of
them (`ParLoc.observe_reaches`); a store goes to its end (`ParLoc.values_store`). -/
theorem locationIsCoherent : Obligations.LocationIsCoherent := by
  unfold Obligations.LocationIsCoherent
  refine fun l => ⟨fun k => ⟨l.seen_observe_mem k, ?_, l.newest_observe k⟩, l.observe_reaches,
    fun v => ⟨l.values_store v, l.newest_store v⟩⟩
  rw [ParLoc.values_observe]
  exact List.drop_suffix _ _

/-! ### The order of the stores over a step (R66, R70) -/

/-- The PSET of a parameter. -/
def psetOf (i : Fin 6) (x : Num) : Instr :=
  (#v[.pset0 x, .pset1 x, .pset2 x, .pset3 x, .pset4 x, .pset5 x] : Vector Instr 6)[i]

theorem psetOperand_psetOf (i : Fin 6) (x : Num) : Instr.psetOperand (psetOf i x) = some (i, x) := by
  fin_cases i <;> rfl

theorem psetOf_of_psetOperand {j : Instr} {i : Fin 6} {x : Num} (h : Instr.psetOperand j = some (i, x)) :
    j = psetOf i x := by
  rcases psetOperand_eq h with ⟨rfl, e⟩ | ⟨rfl, e⟩ | ⟨rfl, e⟩ | ⟨rfl, e⟩ | ⟨rfl, e⟩ | ⟨rfl, e⟩ <;> exact e

section
variable (s : State) (i : Fin 6)

/-- After its own PSET a location may be loaded as all it could be before, and last as the value stored. -/
theorem after_psetOf_values (x : Num) :
    (after (psetOf i x) s).ps[i].values = s.ps[i].values ++ [unitOf s.num i x] := by
  have hps : (s.pset i x).ps[i] = s.ps[i].store (unitOf s.num i x) :=
    (State.setPar_get s i i _).trans (if_pos rfl)
  rw [after_pset (psetOperand_psetOf i x), hps, ParLoc.values_store]

/-- After a TICK it may be loaded as a tail of what it could be before. -/
theorem after_tick_values : (after .tick s).ps[i].values <:+ s.ps[i].values := by
  rcases after_ps .tick s with e | ⟨-, -, e⟩ | ⟨k, x, h, -⟩
  · rw [e]
  · rw [e]
    exact s.storeLoaded_suffix i
  · cases h

/-- After any other instruction it is as it was. -/
theorem after_location {j : Instr} (hpset : ∀ x, j ≠ psetOf i x) (htick : j ≠ .tick) :
    (after j s).ps[i] = s.ps[i] := by
  rcases after_ps j s with e | ⟨h, -, -⟩ | ⟨k, x, h, e⟩
  · rw [e]
  · exact absurd h htick
  · have hki : k ≠ i := by
      rintro rfl
      exact hpset x (psetOf_of_psetOperand h)
    rw [e]
    exact (State.setPar_get s k i _).trans (if_neg hki)

end

/-- Settles O55: waiting leaves the store, and a command is an instruction on the same store, of one of the three kinds
(`after_psetOf_values`, `after_tick_values`, `after_location`). -/
theorem storeOrderIsKeptByEveryStep : Obligations.StoreOrderIsKeptByEveryStep := by
  unfold Obligations.StoreOrderIsKeptByEveryStep
  intro s t h i pset
  refine ⟨fun hin => ?_, fun c rest hin => ?_⟩
  · rw [step_of_empty hin] at h
    cases h
    rfl
  · rw [step_of_command hin] at h
    obtain rfl : t = after (decode c) { s with inbox := rest } := exec_next h
    refine ⟨fun x hc => ?_, fun hc => ?_, after_location _ i⟩
    · exact hc ▸ after_psetOf_values _ i x
    · exact hc ▸ after_tick_values _ i

end Sys2Proof.Machine
end

section
/-! The whole machine: where it stops (00_scope.md section 4, 60_exceptions.md section 1), which register an instruction
may change (10_state.md), what each agent may touch (60_exceptions.md section 5), and the run of a block
(44_voice_engine.md section 2, 30_encoding.md R107). -/

namespace Sys2Proof.Machine

/-! ### Where the machine stops (R11, U1) -/

/-- An instruction that would divide by 0 is refused. -/
theorem exec_of_not_divides {i : Instr} {s : State} (h : ¬ Divides i s) : exec i s = .refused .divisionByZero := by
  simp only [Divides, not_forall, not_not] at h
  obtain ⟨hi, d, hd, hz⟩ := h
  rw [exec_eq]
  exact State.dividing_zero _ hi ⟨d, hd, hz⟩

/-- Only a gated TICK and the micro-operations with a quotient in them divide by a number of the state. -/
theorem cases_of_divisors_ne_nil {i : Instr} {s : State} (h : divisors i s ≠ []) :
    (i = .tick ∧ s.ve.gate = true) ∨ (∃ n, i = .oscGen n ∨ i = .oscAdvance n) ∨ (∃ x, i = .lpfProcess x) ∨
      i ∈ [.lfoProcess, .envProcess, .envProcessAttack, .envProcessDecay, .envProcessRelease] := by
  cases i
  case tick =>
    refine .inl ⟨rfl, ?_⟩
    by_contra hg
    exact h (if_neg hg)
  case oscGen n => exact .inr (.inl ⟨n, .inl rfl⟩)
  case oscAdvance n => exact .inr (.inl ⟨n, .inr rfl⟩)
  case lpfProcess x => exact .inr (.inr (.inl ⟨x, rfl⟩))
  case lfoProcess | envProcess | envProcessAttack | envProcessDecay | envProcessRelease =>
    exact .inr (.inr (.inr (by simp)))
  all_goals exact absurd rfl h

/-- A step waits, takes a RESET, or answers as the instruction it takes. -/
theorem step_next_or_refused (s : State) : (∃ t, step s = .next t) ∨
    (step s = .refused .divisionByZero ∧
      ∃ c rest, s.inbox = .command c :: rest ∧ ¬ Divides (decode c) { s with inbox := rest }) := by
  match hin : s.inbox with
  | [] => exact .inl ⟨_, step_of_empty hin⟩
  | .reset c :: rest => exact .inl ⟨_, step_of_reset hin⟩
  | .command c :: rest =>
    rw [step_of_command hin]
    by_cases hdiv : Divides (decode c) { s with inbox := rest }
    · exact .inl ⟨_, exec_of_divides hdiv⟩
    · exact .inr ⟨exec_of_not_divides hdiv, c, rest, rfl, hdiv⟩

/-- Settles O56: an instruction by `exec_of_divides` and `exec_of_not_divides`, the instructions that divide by
`cases_of_divisors_ne_nil`, a step by `step_next_or_refused`. -/
theorem onlyAZeroDivisorStops : Obligations.OnlyAZeroDivisorStops := by
  unfold Obligations.OnlyAZeroDivisorStops
  refine ⟨fun i s => ⟨fun h => ⟨_, exec_of_divides h⟩, exec_of_not_divides⟩, fun _ _ => cases_of_divisors_ne_nil,
    fun s => ?_⟩
  rcases step_next_or_refused s with h | ⟨h, c, rest, hin, hdiv⟩
  · exact .inl h
  · have hi : s.Ideal := by
      by_contra hi
      exact hdiv fun hideal => absurd hideal hi
    exact .inr ⟨h, hi, c, rest, hin, hdiv⟩

/-- Settles O30: where a divisor is 0 the instruction does not divide (`divides_attack` to `divides_tick`), so it is
refused (`exec_of_not_divides`); another instantiation divides by anything. -/
theorem zeroDivisorIsRefused : Obligations.ZeroDivisorIsRefused := by
  unfold Obligations.ZeroDivisorIsRefused
  refine ⟨fun s hi => ⟨fun hz => ⟨?_, fun hst => ?_⟩, fun hz => ⟨?_, fun hst => ?_⟩, fun hz => ⟨?_, fun hst => ?_⟩,
    fun hz => ⟨fun i => ⟨?_, ?_⟩, ?_, fun x => ?_⟩, fun hz x => ?_, fun hg hz => ?_⟩,
    fun i s hi => ⟨_, exec_of_divides fun hideal => absurd hideal hi⟩⟩ <;> refine exec_of_not_divides fun hdiv => ?_
  · exact divides_attack.1 hdiv hi hz
  · exact (divides_envProcess.1 hdiv hi).1 hst hz
  · exact divides_decay.1 hdiv hi hz
  · exact (divides_envProcess.1 hdiv hi).2.1 hst hz
  · exact divides_release.1 hdiv hi hz
  · exact (divides_envProcess.1 hdiv hi).2.2 hst hz
  · exact (divides_sampleRate rfl).1 hdiv hi hz
  · exact (divides_sampleRate rfl).1 hdiv hi hz
  · exact (divides_sampleRate rfl).1 hdiv hi hz
  · exact (divides_lpfProcess.1 hdiv hi).1 hz
  · exact (divides_lpfProcess.1 hdiv hi).2 hz
  · obtain ⟨hsr, harm, -⟩ := (divides_tick hg).1 hdiv hi
    exact hz.elim hsr (absurd harm)

/-! ### The frame, component by component (10_state.md sections 2 to 7) -/

section
variable (i : Instr) (s : State)

theorem osc_frame : (after i s).osc = s.osc ∨ (i = .tick ∧ s.ve.gate = true) ∨ (∃ d1 d2, i = .noteOn d1 d2) ∨
    ∃ n, i = .oscGen n ∨ i = .oscAdvance n := by
  rcases after_osc i s with e | ⟨hi, hg, -⟩ | ⟨n, hi, -⟩ | ⟨d1, d2, hi, -⟩
  · exact .inl e
  · exact .inr (.inl ⟨hi, hg⟩)
  · exact .inr (.inr (.inr ⟨n, hi⟩))
  · exact .inr (.inr (.inl ⟨d1, d2, hi⟩))

/-- NOTE_ON does not write a phase (44_voice_engine.md R195). -/
theorem phase_of_noteOn (d1 d2 : Byte) (j : Fin 5) : (after (.noteOn d1 d2) s).osc[j].ph = s.osc[j].ph := by
  rcases after_osc_get (.noteOn d1 d2) s j with e | ⟨hi, -⟩ | ⟨-, -, f, e⟩
  · rw [e]
  · simp at hi
  · rw [e]

/-- OSC.GEN(n) and OSC.ADVANCE(n) write oscillator n alone (10_state.md R24). -/
theorem other_oscillators {i : Instr} {j n : Fin 5} (hi : i = .oscGen n ∨ i = .oscAdvance n) (hj : j ≠ n) :
    (after i s).osc[j] = s.osc[j] := by
  rcases after_osc_get i s j with e | ⟨hadv, -⟩ | ⟨-, ⟨d1, d2, hon⟩, -⟩
  · exact e
  · rcases hi with rfl | rfl <;> simp [hj.symm] at hadv
  · rcases hi with rfl | rfl <;> cases hon

theorem env_frame : (after i s).env = s.env ∨ (i = .tick ∧ s.ve.gate = true) ∨
    (∃ d1 d2, i = .noteOn d1 d2 ∨ (i = .noteOff d1 d2 ∧ d1 = s.ve.note)) ∨
    (∃ v, i = .envsetA v ∨ i = .envsetD v ∨ i = .envsetS v ∨ i = .envsetR v) ∨
    i ∈ [.envProcess, .envProcessIdle, .envProcessAttack, .envProcessDecay, .envProcessRelease, .envTrigger,
      .envRelease] := by
  cases i
  case tick =>
    by_cases hg : s.ve.gate = true
    · exact .inr (.inl ⟨rfl, hg⟩)
    · rw [after_tick, if_neg hg]
      exact .inl rfl
  case noteOn d1 d2 => exact .inr (.inr (.inl ⟨d1, d2, .inl rfl⟩))
  case noteOff d1 d2 =>
    by_cases hnote : d1 = s.ve.note
    · exact .inr (.inr (.inl ⟨d1, d2, .inr ⟨rfl, hnote⟩⟩))
    · rw [after_noteOff, if_neg hnote]
      exact .inl rfl
  case envsetA v | envsetD v | envsetS v | envsetR v => exact .inr (.inr (.inr (.inl ⟨v, by simp⟩)))
  case envProcess | envProcessIdle | envProcessAttack | envProcessDecay | envProcessRelease | envTrigger
    | envRelease => exact .inr (.inr (.inr (.inr (by simp))))
  case oscGen n =>
    left
    show (State.returning (oscGen n s.quiet)).env = _
    rw [State.returning_env, oscGen_state]
    rfl
  all_goals exact .inl rfl

/-- No instruction but an ENVSET writes a setting (41_envelope.md R148 to R151). -/
theorem settings_of_not_envset {i : Instr}
    (h : ¬ ∃ v, i = .envsetA v ∨ i = .envsetD v ∨ i = .envsetS v ∨ i = .envsetR v) :
    (after i s).env.att = s.env.att ∧ (after i s).env.dec = s.env.dec ∧ (after i s).env.sus = s.env.sus ∧
      (after i s).env.rel = s.env.rel := by
  have harm := s.env.arm_settings s.num
  rcases after_env i s with
    e | e | e | e | e | e | e | e | ⟨v, hi, -⟩ | ⟨v, hi, -⟩ | ⟨v, hi, -⟩ | ⟨v, hi, -⟩
  iterate 8 -- unchanged, or an arm, a trigger or a release
    · obtain ⟨hatt, hdec, hsus, hrel, -⟩ := harm (after i s).env (by simp [e, Env.sustainArm])
      exact ⟨hatt, hdec, hsus, hrel⟩
  all_goals exact absurd ⟨v, by simp [hi]⟩ h

/-- Each setting is written by its own ENVSET alone. -/
theorem settings_frame : ((after i s).env.att = s.env.att ∨ ∃ v, i = .envsetA v) ∧
    ((after i s).env.dec = s.env.dec ∨ ∃ v, i = .envsetD v) ∧
    ((after i s).env.sus = s.env.sus ∨ ∃ v, i = .envsetS v) ∧
    ((after i s).env.rel = s.env.rel ∨ ∃ v, i = .envsetR v) := by
  by_cases h : ∃ v, i = .envsetA v ∨ i = .envsetD v ∨ i = .envsetS v ∨ i = .envsetR v
  · obtain ⟨v, rfl | rfl | rfl | rfl⟩ := h
    · exact ⟨.inr ⟨v, rfl⟩, .inl rfl, .inl rfl, .inl rfl⟩
    · exact ⟨.inl rfl, .inr ⟨v, rfl⟩, .inl rfl, .inl rfl⟩
    · exact ⟨.inl rfl, .inl rfl, .inr ⟨v, rfl⟩, .inl rfl⟩
    · exact ⟨.inl rfl, .inl rfl, .inl rfl, .inr ⟨v, rfl⟩⟩
  · obtain ⟨hatt, hdec, hsus, hrel⟩ := settings_of_not_envset s h
    exact ⟨.inl hatt, .inl hdec, .inl hsus, .inl hrel⟩

theorem filt_frame : (after i s).filt = s.filt ∨ (i = .tick ∧ s.ve.gate = true) ∨ ∃ x, i = .lpfProcess x := by
  rcases after_filt_lfo i s with ⟨e, -⟩ | ⟨hi, hg, -⟩ | ⟨x, hi, -⟩ | ⟨-, e, -⟩
  · exact .inl e
  · exact .inr (.inl ⟨hi, hg⟩)
  · exact .inr (.inr ⟨x, hi⟩)
  · exact .inl e

theorem lfo_frame : (after i s).lfo = s.lfo ∨ (i = .tick ∧ s.ve.gate = true) ∨ i = .lfoProcess := by
  rcases after_filt_lfo i s with ⟨-, e⟩ | ⟨hi, hg, -⟩ | ⟨-, -, -, e⟩ | ⟨hi, -⟩
  · exact .inl e
  · exact .inr (.inl ⟨hi, hg⟩)
  · exact .inl e
  · exact .inr (.inr hi)

/-- The cutoff, the resonance and the LFO's rate are written by TICK alone (44_voice_engine.md R200, R201). -/
theorem latches_frame {i : Instr} (hi : i ≠ .tick) : (after i s).filt.cutoff = s.filt.cutoff ∧
    (after i s).filt.res = s.filt.res ∧ (after i s).lfo.freq = s.lfo.freq := by
  rcases after_filt_lfo i s with ⟨e, e'⟩ | ⟨htick, -⟩ | ⟨x, -, e, e'⟩ | ⟨-, e, e'⟩
  · rw [e, e']
    exact ⟨rfl, rfl, rfl⟩
  · exact absurd htick hi
  · rw [e, e']
    exact ⟨rfl, rfl, rfl⟩
  · rw [e, e']
    exact ⟨rfl, rfl, rfl⟩

theorem ve_frame : (after i s).ve = s.ve ∨ ∃ d1 d2, i = .noteOn d1 d2 := by
  rcases after_ve i s with e | ⟨d1, d2, hi, -⟩
  · exact .inl e
  · exact .inr ⟨d1, d2, hi⟩

theorem par_frame (j : Fin 6) : (after i s).par j = s.par j ∨
    (j = 0 ∧ ∃ x, i = .pset0 x) ∨ (j = 1 ∧ ∃ x, i = .pset1 x) ∨ (j = 2 ∧ ∃ x, i = .pset2 x) ∨
    (j = 3 ∧ ∃ x, i = .pset3 x) ∨ (j = 4 ∧ ∃ x, i = .pset4 x) ∨ (j = 5 ∧ ∃ x, i = .pset5 x) := by
  rcases after_par i s j with e | ⟨x, hi, -⟩
  · exact .inl e
  · right
    rcases psetOperand_eq hi with ⟨h, h'⟩ | ⟨h, h'⟩ | ⟨h, h'⟩ | ⟨h, h'⟩ | ⟨h, h'⟩ | ⟨h, h'⟩ <;> simp [h, h']

end

/-- An ENVSET leaves the level and the stage (41_envelope.md R148 to R151). -/
theorem level_stage_of_envset {i : Instr} (s : State)
    (h : ∃ v, i = .envsetA v ∨ i = .envsetD v ∨ i = .envsetS v ∨ i = .envsetR v) :
    (after i s).env.level = s.env.level ∧ (after i s).env.stage = s.env.stage := by
  obtain ⟨v, rfl | rfl | rfl | rfl⟩ := h <;> exact ⟨rfl, rfl⟩

/-- Settles O59: the frame of each component. -/
theorem frameOfEveryInstruction : Obligations.FrameOfEveryInstruction := by
  unfold Obligations.FrameOfEveryInstruction
  intro i s t h
  obtain rfl : t = after i s := exec_next h
  refine ⟨osc_frame i s, after_wave i s, after_freq i s, ?_, fun j n => other_oscillators s, after_env_sr i s,
    env_frame i s, level_stage_of_envset s, settings_frame i s, filt_frame i s, latches_frame s, lfo_frame i s,
    ve_frame i s, par_frame i s, after_cfg_inbox i s⟩
  rintro j ⟨d1, d2, rfl⟩
  exact phase_of_noteOn s d1 d2 j

/-! ### The two agents (60_exceptions.md section 5) -/

/-- The C agent's commands write the parameter store and the result, and nothing else. -/
theorem after_of_agent_c {i : Instr} (h : Instr.agent i = some .c) (s : State) :
    (after i s).osc = s.osc ∧ (after i s).env = s.env ∧ (after i s).filt = s.filt ∧ (after i s).lfo = s.lfo ∧
      (after i s).ve = s.ve ∧ (after i s).out.aud = none := by
  cases i
  case pset0 | pset1 | pset2 | pset3 | pset4 | pset5 | psetRsvd => exact ⟨rfl, rfl, rfl, rfl, rfl, rfl⟩
  case pget0 | pget1 | pget2 | pget3 | pget4 | pget5 | pgetRsvd => exact ⟨rfl, rfl, rfl, rfl, rfl, rfl⟩
  case rsvd => exact ⟨rfl, rfl, rfl, rfl, rfl, rfl⟩
  all_goals cases h

/-- A PSET is no command of the R agent. -/
theorem psetOperand_of_agent_r {i : Instr} (h : Instr.agent i = some .r) : Instr.psetOperand i = none := by
  cases i
  case pset0 | pset1 | pset2 | pset3 | pset4 | pset5 => cases h
  all_goals rfl

/-- The R agent's commands write no parameter. -/
theorem par_of_agent_r {i : Instr} (h : Instr.agent i = some .r) (s : State) (j : Fin 6) :
    (after i s).par j = s.par j := by
  rcases after_par i s j with e | ⟨x, hi, -⟩
  · exact e
  · rw [psetOperand_of_agent_r h] at hi
    cases hi

/-- The R agent's commands drive no result. -/
theorem rw_of_agent_r {i : Instr} (h : Instr.agent i = some .r) (s : State) : (after i s).out.rw = none := by
  cases i
  case tick =>
    rw [after_tick]
    split_ifs
    · rw [render_eq]
      rfl
    · rfl
  case noteOff d1 d2 =>
    rw [after_noteOff]
    split_ifs <;> rfl
  case noteOn | evtIgnored | envsetA | envsetD | envsetS | envsetR | rsvd => rfl
  all_goals cases h

/-- Settles O60: a command is of the agent of its port (`decode_agent`). -/
theorem agentsKeepToTheirState : Obligations.AgentsKeepToTheirState := by
  unfold Obligations.AgentsKeepToTheirState
  intro c s t h
  obtain rfl : t = after (decode c) s := exec_next h
  have hagent := decode_agent c
  refine ⟨fun hp => after_of_agent_c (hp ▸ hagent) s, fun hp => ?_⟩
  have hr : Instr.agent (decode c) = some .r := hp ▸ hagent
  exact ⟨par_of_agent_r hr s, rw_of_agent_r hr s⟩

/-! ### A block (44_voice_engine.md section 2, 30_encoding.md R107) -/

/-- The commands of a block. -/
def blockCommands (n : ℕ) (es : List AsmEvent) : List Command :=
  es.map AsmEvent.command ++ List.replicate n tickCommand

theorem block_inputs (n : ℕ) (es : List AsmEvent) :
    (Asm.block n es).inputs = (blockCommands n es).map .command := by
  simp [Asm.inputs, blockCommands, Function.comp_def]

theorem blockCommands_length (n : ℕ) (es : List AsmEvent) : (blockCommands n es).length = es.length + n := by
  simp [blockCommands]

/-- Settles O49: the block is handed over as its commands (`block_inputs`), which run in order (`core_run_commands`),
each as what it decodes to. -/
theorem blockRunsEventsThenTicks : Obligations.BlockRunsEventsThenTicks := by
  unfold Obligations.BlockRunsEventsThenTicks
  intro instr
  have hevent (e : AsmEvent) : decode e.command = instr e := by
    cases e
    case evt st d1 d2 => rw [AsmEvent.command, decode_event, decodeEvent_eq]
    case noteOn d1 d2 => rw [AsmEvent.command, decode_event, decodeEvent_eq]; rfl
    case noteOff d1 d2 => rw [AsmEvent.command, decode_event, decodeEvent_eq]; rfl
  refine ⟨fun es n s rest => ?_, fun e => rfl, fun n => rfl, fun d1 => ⟨rfl, rfl⟩⟩
  have hdecode : (blockCommands n es).map decode = es.map instr ++ List.replicate n .tick := by
    simp [blockCommands, hevent]
  rw [block_inputs, ← blockCommands_length, core_run_commands, hdecode]

end Sys2Proof.Machine
end
